-- ==== Sys2Proof/Word.lean ====
section
/-!
DEFINITION. The word types of DFPWM-CORE (spec/00_scope.md R7, R8; spec/30_encoding.md R70, R74, R76).
A bit vector stands where the spec speaks of bits: command, response and event words, registers with a width.
-/

namespace Sys2Proof

/-- A command word or a response word: 32 bits (R70, R74). -/
abbrev Word := BitVec 32

/-- A byte of a PCM stream or of an encoded stream: uint8 (R72, R56). -/
abbrev Byte := BitVec 8

/-- A 16-bit PCM sample or a DOUT event word, in two's complement (R71, R76). -/
abbrev SampleWord := BitVec 16

end Sys2Proof
end

