-- ==== Sys2Proof/Syntax.lean ====
section
/-!
DEFINITION. The thirteen commands of DFPWM-CORE, one constructor per row of spec/opcode_table.json
(spec/30_encoding.md R70, R72, R73).
-/

namespace Sys2Proof

/-- A command. Each operand is the operand field of the command's format, at the field's own width (R70), so every term
of this type is a command the encoding can express; the readings of R72 are in Machine/Operands.lean. -/
inductive Instr where
  /-- `RESET` (Z, 0x01). -/
  | reset
  /-- `RDSTAT` (Z, 0x02). -/
  | rdstat
  /-- `E.CFG n` (S24, 0x10). -/
  | eCfg (n : BitVec 24)
  /-- `E.START` (Z, 0x11). -/
  | eStart
  /-- `E.SAMP sample` (I16, 0x12). -/
  | eSamp (sample : SampleWord)
  /-- `E.PCMB byte` (I8, 0x13). -/
  | ePcmb (byte : Byte)
  /-- `E.END` (Z, 0x14). -/
  | eEnd
  /-- `E.RDST` (Z, 0x15). -/
  | eRdst
  /-- `D.START` (Z, 0x20). -/
  | dStart
  /-- `D.BIT bit` (I1, 0x21). -/
  | dBit (bit : BitVec 1)
  /-- `D.BYTE byte` (I8, 0x22). -/
  | dByte (byte : Byte)
  /-- `D.END` (Z, 0x23). -/
  | dEnd
  /-- `D.RDST` (Z, 0x24). -/
  | dRdst
deriving DecidableEq, Repr

end Sys2Proof
end

