-- ==== Sys2Proof/Decode.lean ====
section
/-!
DEFINITION. The decoder, from the opcode map of spec/30_encoding.md R73 as a table of (mask, match) rows, and the encoder,
from the word format of R70. Decoding is total and reads nothing but the word (R77, R78).
-/

namespace Sys2Proof

/-- One row of the opcode map (R73): a word selects it when `cw & mask = match`; `build` reads the operand field (R72). -/
structure OpRow where
  pattern : Word
  mask : Word
  build : Word → Instr

/-- `cw & mask = match` (R73). -/
def OpRow.selects (r : OpRow) (cw : Word) : Bool := cw &&& r.mask == r.pattern

/-- `cw[hi:lo]` with `len = hi - lo + 1` bits (spec/00_scope.md R8). -/
def field (cw : Word) (lo len : Nat) : BitVec len := cw.extractLsb' lo len

/-- The thirteen rows of R73, in the table's order. -/
def opTable : List OpRow :=
  [ { pattern := 0x01000000#32, mask := 0xFFFFFFFF#32, build := fun _ => .reset },
    { pattern := 0x02000000#32, mask := 0xFFFFFFFF#32, build := fun _ => .rdstat },
    { pattern := 0x10000000#32, mask := 0xFF000000#32, build := fun cw => .eCfg (field cw 0 24) },
    { pattern := 0x11000000#32, mask := 0xFFFFFFFF#32, build := fun _ => .eStart },
    { pattern := 0x12000000#32, mask := 0xFFFF0000#32, build := fun cw => .eSamp (field cw 0 16) },
    { pattern := 0x13000000#32, mask := 0xFFFFFF00#32, build := fun cw => .ePcmb (field cw 0 8) },
    { pattern := 0x14000000#32, mask := 0xFFFFFFFF#32, build := fun _ => .eEnd },
    { pattern := 0x15000000#32, mask := 0xFFFFFFFF#32, build := fun _ => .eRdst },
    { pattern := 0x20000000#32, mask := 0xFFFFFFFF#32, build := fun _ => .dStart },
    { pattern := 0x21000000#32, mask := 0xFFFFFFFE#32, build := fun cw => .dBit (field cw 0 1) },
    { pattern := 0x22000000#32, mask := 0xFFFFFF00#32, build := fun cw => .dByte (field cw 0 8) },
    { pattern := 0x23000000#32, mask := 0xFFFFFFFF#32, build := fun _ => .dEnd },
    { pattern := 0x24000000#32, mask := 0xFFFFFFFF#32, build := fun _ => .dRdst } ]

/-- Why a word is no command (R77): its opcode is in no row, or its opcode is listed and a must-be-zero bit is 1.
Both raise IllegalCmd. -/
inductive IllegalWord where
  | unassignedOpcode
  | strayOperandBit
deriving DecidableEq, Repr

/-- The two ways of R77 to match no row, told apart by the opcode byte `cw[31:24]`. -/
def illegalReason (cw : Word) : IllegalWord :=
  if opTable.any (fun r => field r.pattern 24 8 == field cw 24 8) then .strayOperandBit else .unassignedOpcode

/-- Decode one command word (R73, R77): the row that selects it, or the reason that none does. -/
def decode (cw : Word) : Except IllegalWord Instr :=
  match opTable.find? (fun r => r.selects cw) with
  | some r => .ok (r.build cw)
  | none => .error (illegalReason cw)

/-- The opcode byte of each command (R73). -/
def opcode : Instr → BitVec 8
  | .reset => 0x01#8
  | .rdstat => 0x02#8
  | .eCfg _ => 0x10#8
  | .eStart => 0x11#8
  | .eSamp _ => 0x12#8
  | .ePcmb _ => 0x13#8
  | .eEnd => 0x14#8
  | .eRdst => 0x15#8
  | .dStart => 0x20#8
  | .dBit _ => 0x21#8
  | .dByte _ => 0x22#8
  | .dEnd => 0x23#8
  | .dRdst => 0x24#8

/-- The operand field `imm = cw[23:0]` of each command: the operand in its low bits and zeros above (R70). -/
def immediate : Instr → BitVec 24
  | .reset => 0#24
  | .rdstat => 0#24
  | .eCfg n => n
  | .eStart => 0#24
  | .eSamp sample => 0#8 ++ sample
  | .ePcmb byte => 0#16 ++ byte
  | .eEnd => 0#24
  | .eRdst => 0#24
  | .dStart => 0#24
  | .dBit bit => 0#23 ++ bit
  | .dByte byte => 0#16 ++ byte
  | .dEnd => 0#24
  | .dRdst => 0#24

/-- The command word of a command: `op` in bits 31:24 and `imm` in bits 23:0 (R70). -/
def encode (i : Instr) : Word := opcode i ++ immediate i

/-- The low `nbits` bits of `w` as one command word, every bit above them 0. A command is one 32-bit word (R70), so bits
of `w` from 32 up belong to no word the decoder sees (log entry 15). -/
def tableWord (nbits w : Nat) : Word := BitVec.ofNat 32 (w % 2 ^ nbits)

/-- The command the decoder reads from a row of spec/opcode_table.json whose bits are `w`. -/
def decodeTableWord (nbits w : Nat) : Option Instr :=
  match decode (tableWord nbits w) with
  | .ok i => some i
  | .error _ => none

end Sys2Proof
end

