-- ==== Sys2Proof/Config.lean ====
section
/-!
DEFINITION. What an implementation of DFPWM-CORE fixes and the spec leaves open: the one OPEN parameter `IDX_W`
(spec/00_scope.md R6, spec/10_state.md R30, spec/92_eei_decisions.md, Open parameters). The block has no free value
(spec/93_implementation_defined.md, the paragraph after Part 1), so this file holds no opaque constant.
-/

namespace Sys2Proof

/-- The configuration a block is built with. It is held in the model's State so that every statement about every state
is a statement about every `IDX_W`; no step writes it (log entry 1). -/
structure Config where
  /-- `IDX_W`, the width in bits of the chunk index counter `E.idx` and of the `idx` field of an EOUT event word. -/
  idxW : Nat
deriving DecidableEq, Repr

/-- `IDX_W` at the default the spec gives it, 32 (R6). DESIGN CHOICE (log entry 1). -/
def Config.specDefault : Config := { idxW := 32 }

/-- The largest chunk index the counter can hold, `2^IDX_W - 1` (R30). -/
def Config.maxIdx (c : Config) : Nat := 2 ^ c.idxW - 1

end Sys2Proof
end

