-- ==== Sys2Proof/Machine/State.lean ====
section
/-!
DEFINITION. The state of DFPWM-CORE: the registers of spec/10_state.md R20, under the spec's names, and beside them the
model's own four fields: the configuration, the host actions not yet taken, what the ports have carried, and where in that
history the encode stream was opened.
-/

namespace Sys2Proof.Machine

/-- A side's stream state: IDLE = 0, ACTIVE = 1, FAULT = 2 (R31, R32). "The value 3 is never taken", so it is no
constructor (spec/93_implementation_defined.md U9; log entry 12). -/
inductive StreamState where
  | idle
  | active
  | fault
deriving DecidableEq, Repr

/-- The four faults of spec/60_exceptions.md R200. They are outcomes of a command that the block goes on from, not ends
of the run; how each is taken is in Machine/Ops.lean. -/
inductive FaultKind where
  | configFault
  | seqFault
  | illegalCmd
  | idxOverflow
deriving DecidableEq, Repr

/-- A CodecState, "identical shape for encode and decode" (R21, R22, R23, R25). -/
structure CodecState where
  /-- `level`: 8 bits, read as int8. -/
  level : BitVec 8
  /-- `resp`: 6 bits, read as uint6. -/
  resp : BitVec 6
  /-- `last`: 1 bit, true for the document's true (spec/00_scope.md R12). -/
  last : Bool
deriving DecidableEq, Repr

/-- The encode side's registers (R20): `E.level`, `E.resp`, `E.last` in `codec`, then PA, BP, CS and the control
registers. -/
structure EncRegs where
  codec : CodecState
  /-- `E.hold`: the pending low byte of a sample (R26). -/
  hold : Byte
  /-- `E.pend`: 1 when `hold` holds one (R26). -/
  pend : Bool
  /-- `E.acc`: the packer's partial byte (R27). -/
  acc : Byte
  /-- `E.nbits`: how many decisions it holds (R27). -/
  nbits : BitVec 3
  /-- `E.cb`: CHUNKBYTES, 0 when not configured (R28). -/
  cb : BitVec 23
  /-- `E.pos`: bytes already emitted into the open chunk (R29). -/
  pos : BitVec 23
  /-- `E.idx`: the 1-based index of the open or last chunk (R30), `IDX_W` bits, held as a Nat (log entry 9). -/
  idx : Nat
  /-- `E.st` (R31). -/
  st : StreamState
  /-- `E.fcode`: the latched fault code, 0 when none (R31). -/
  fcode : BitVec 3
deriving DecidableEq, Repr

/-- The decode side's registers (R20, R25, R32). -/
structure DecRegs where
  codec : CodecState
  /-- `D.st` (R32). -/
  st : StreamState
  /-- `D.fcode` (R32). -/
  fcode : BitVec 3
deriving DecidableEq, Repr

/-- What the host can do to the block, "exhaustively" (spec/70_reset_and_hazards.md R252). -/
inductive HostAction where
  /-- Present a 32-bit word on CIN. -/
  | word (cw : Word)
  /-- Assert the hardware reset, between commands. -/
  | hardwareReset
deriving DecidableEq, Repr

/-- An event on EOUT (spec/20_memory.md R52). -/
inductive EoutEvent where
  /-- `BYTE(idx, pos, data)`: byte number `pos` of chunk `idx`. -/
  | byte (idx : Nat) (pos : BitVec 23) (data : Byte)
  /-- `CEND(idx, len)`: chunk `idx` is complete and has `len` bytes. -/
  | cend (idx : Nat) (len : BitVec 23)
deriving DecidableEq, Repr

/-- One thing the block has put on an output port. -/
inductive PortEvent where
  /-- An event on EOUT. -/
  | eout (ev : EoutEvent)
  /-- `SAMP(v)` on DOUT, as its word `tc_16(v)` (R53; spec/30_encoding.md R76). -/
  | dout (v : SampleWord)
  /-- A response word on RSP (R54; spec/30_encoding.md R74). -/
  | rsp (rw : Word)
deriving DecidableEq, Repr

/-- The machine: the registers of R20, and the model's own `cfg`, `cin`, `out` and `eoutMark`. -/
structure State where
  /-- The configuration the block was built with; the model's own field, which no step writes (log entry 1). -/
  cfg : Config
  /-- The encode side. -/
  enc : EncRegs
  /-- The decode side. -/
  dec : DecRegs
  /-- `ILL`: an illegal command word was received since reset (R34). -/
  ill : Bool
  /-- The host actions not yet taken, in order; the model's own field (log entry 2). -/
  cin : List HostAction
  /-- What the output ports have carried, oldest first; history, which nothing reads back (R20; log entry 4). -/
  out : List PortEvent
  /-- How many EOUT events had gone out when E.START last opened a stream: the place in the history where "this stream" of
  R39, item 8, begins. The model's own field, which no register, event or response depends on (log entry 20). -/
  eoutMark : Nat
deriving DecidableEq, Repr

/-- The reasons for which the machine stops: none. Every command word has a defined outcome (spec/30_encoding.md R77) and
every fault of spec/60_exceptions.md R200 is latched and reported while the block goes on, so nothing raises a Fault;
that is safe, since no behaviour is cut short (log entry 13). -/
inductive Fault where
deriving DecidableEq, Repr

/-- The reasons for which the model has no meaning for an instruction. -/
inductive Refusal where
  /-- Raised by an arm of exec whose command has no meaning yet, which is none of them; safe, since it ends a run that the
  hardware goes on with (log entry 13). -/
  | notModelled (mnemonic : String)
deriving DecidableEq, Repr

/-- The outcome of a command or of a step. -/
abbrev Result := Host.Outcome State Fault Refusal

/-- `INIT_CS = (0, 0, 0)`: "initialized to `(level=0, response=0, lastBit=false)`" (R24). -/
def CodecState.init : CodecState := { level := 0#8, resp := 0#6, last := false }

/-- The encode side at reset (R40). -/
def EncRegs.reset : EncRegs :=
  { codec := CodecState.init, hold := 0#8, pend := false, acc := 0#8, nbits := 0#3, cb := 0#23, pos := 0#23, idx := 0,
    st := .idle, fcode := 0#3 }

/-- The decode side at reset (R40). -/
def DecRegs.reset : DecRegs := { codec := CodecState.init, st := .idle, fcode := 0#3 }

/-- The machine right after reset (R40, spec/70_reset_and_hazards.md R230): every register 0, nothing emitted, no host
action presented yet, `IDX_W` at the spec's default. -/
def State.reset : State :=
  { cfg := Config.specDefault, enc := EncRegs.reset, dec := DecRegs.reset, ill := false, cin := [], out := [],
    eoutMark := 0 }

end Sys2Proof.Machine
end

