-- ==== Sys2Proof/Machine/Flags.lean ====
section
/-!
DEFINITION. The one-bit registers that act as flags and what sets each (spec/10_state.md R36): `E.last` and `D.last`
take a decision, `E.pend` toggles on `E.PCMB`, `ILL` is set by an illegal word. "No command writes a flag as a side
effect beyond what its own rule states."
-/

namespace Sys2Proof.Machine

/-- `Decide(reduced, level)`: the decision, "1 if reduced >= level else 0", a signed comparison with the level before
the update (spec/40_codec.md R101). -/
def decision (reduced level : Int) : Bool := if level ≤ reduced then true else false

/-- `E.last`, `D.last` after a step: the decision just made, or the bit just consumed (R36; spec/40_codec.md R105,
step 6). -/
def lastAfter (bit : Bool) : Bool := bit

/-- `E.pend` after an `E.PCMB` that completes: it toggles (R36; spec/43_stream.md R175). -/
def pendAfter (pend : Bool) : Bool := !pend

/-- `ILL` after an illegal command word: 1 (R34, R36; spec/60_exceptions.md R203). -/
def illAfterIllegal : Bool := true

end Sys2Proof.Machine
end

