-- ==== Sys2Proof/Machine/Operands.lean ====
section
/-!
DEFINITION. How each operand field is read (spec/30_encoding.md R72), with the sign extension of spec/00_scope.md R11.
"No scaling or shifting is applied to any operand."
-/

namespace Sys2Proof.Machine

/-- `sext_N(v)`: `v[N-1:0] - 2^N` when `v[N-1] = 1`, else `v[N-1:0]` (spec/00_scope.md R11). -/
def sext {n : Nat} (v : BitVec n) : Int := if v.msb then (v.toNat : Int) - 2 ^ n else (v.toNat : Int)

/-- `tc_N(i)`: the N-bit two's-complement vector of i, `i mod 2^N` (spec/00_scope.md R11). -/
def tc (n : Nat) (i : Int) : BitVec n := BitVec.ofInt n i

/-- `D.BIT`: `bit = cw[0]`, 1 is true (R72; spec/00_scope.md R12). -/
def bitOperand (bit : BitVec 1) : Bool := bit == 1#1

/-- `E.PCMB`, `D.BYTE`: `byte = cw[7:0]`, "unsigned, 0 to 255, not extended" (R72). -/
def byteOperand (byte : Byte) : Byte := byte

/-- `E.SAMP`: `sample = sext_16(cw[15:0])`, in [-32768, 32767] (R72). -/
def sampleOperand (sample : SampleWord) : Int := sext sample

/-- `E.CFG`: `n = sext_24(cw[23:0])`, in [-8388608, 8388607] (R72). -/
def cfgOperand (n : BitVec 24) : Int := sext n

/-- The sample of a little-endian byte pair, `sext_16({hi, lo})` (spec/20_memory.md R55). -/
def sampleOfBytes (lo hi : Byte) : Int := sext (hi ++ lo)

end Sys2Proof.Machine
end

