-- ==== Sys2Proof/Machine/Codec.lean ====
section
/-!
DEFINITION. The codec: the update rule of spec/40_codec.md as pure functions on integers (R100 to R107, R113), with the
notation of spec/00_scope.md R9 and R10. The registers narrow the integers at the end; by R110 nothing is lost.
-/

namespace Sys2Proof.Machine

/-- `asr(v, n) = floor(v / 2^n)`: "true floor division, not truncation-toward-zero" (spec/00_scope.md R9). -/
def asr (v : Int) (n : Nat) : Int := Int.fdiv v (2 ^ n)

/-- `clamp(x, lo, hi)` (spec/00_scope.md R10). -/
def clamp (x lo hi : Int) : Int := if x < lo then lo else if hi < x then hi else x

/-- `Reduce(sample) = asr(sample, 8)` (R100). -/
def reduce (sample : Int) : Int := asr sample 8

/-- `Target(1) = 127`, `Target(0) = -128` (R102). -/
def target (bit : Bool) : Int := if bit then 127 else -128

/-- `Adapt(resp, bit, last)`: one up when the decision repeats, one down when it reverses, clamped to [0, 63] (R103). -/
def adapt (resp : Int) (bit last : Bool) : Int :=
  if bit = last then clamp (resp + 1) 0 63 else clamp (resp - 1) 0 63

/-- `Predict(level, target, resp)`, with the response already adapted (R104). -/
def predict (level target resp : Int) : Int := level + asr ((target - level) * (resp + 1)) 6

/-- `Update(cs, bit)`: steps 3 to 6, shared by encode and decode; step 5 uses the new response (R105). -/
def update (cs : CodecState) (bit : Bool) : CodecState :=
  let resp' := adapt cs.resp.toNat bit cs.last
  let level' := predict (sext cs.level) (target bit) resp'
  { level := tc 8 level', resp := tc 6 resp', last := lastAfter bit }

/-- The decision the encoder makes on a sample: steps 1 and 2, with the old level (R100, R101, R106). -/
def encDecision (cs : CodecState) (sample : Int) : Bool := decision (reduce sample) (sext cs.level)

/-- `EncStep(cs, sample)`: the next CodecState and the decision bit (R106). -/
def encStep (cs : CodecState) (sample : Int) : CodecState × Bool :=
  (update cs (encDecision cs sample), encDecision cs sample)

/-- The reconstructed sample of a CodecState: `level * 256` as its 16-bit word (R107; spec/30_encoding.md R76). -/
def reconstruct (cs : CodecState) : SampleWord := tc 16 (sext cs.level * 256)

/-- `DecStep(cs, bit)`: the next CodecState and the reconstructed sample (R107). -/
def decStep (cs : CodecState) (bit : Bool) : CodecState × SampleWord :=
  (update cs bit, reconstruct (update cs bit))

/-- `EncSeq(cs, samples)`: the fold of EncStep over the samples in order, the final state and the bits (R113). -/
def encSeq (cs : CodecState) : List Int → CodecState × List Bool
  | [] => (cs, [])
  | s :: ss => ((encSeq (encStep cs s).1 ss).1, (encStep cs s).2 :: (encSeq (encStep cs s).1 ss).2)

/-- The fold of DecStep over bits in order: the final state and the outputs (spec/43_stream.md R181). -/
def decSeq (cs : CodecState) : List Bool → CodecState × List SampleWord
  | [] => (cs, [])
  | b :: bs => ((decSeq (decStep cs b).1 bs).1, (decStep cs b).2 :: (decSeq (decStep cs b).1 bs).2)

/-- `AssemblePCM(bytes)`: samples of consecutive little-endian pairs; an odd last byte takes part in none
(spec/43_stream.md R174). -/
def assemblePCM : List Byte → List Int
  | lo :: hi :: rest => sampleOfBytes lo hi :: assemblePCM rest
  | [_] => []
  | [] => []

end Sys2Proof.Machine
end

