-- ==== Sys2Proof/Machine/Packer.lean ====
section
/-!
DEFINITION. The bit packer, the bit unpacker and the chunk splitter as pure functions (spec/41_bitpack.md R130 to R133,
spec/42_chunk.md R150).
-/

namespace Sys2Proof.Machine

/-- One decision as a byte with that bit 0 (spec/00_scope.md R12, `b2i`). -/
def bitByte (bit : Bool) : Byte := if bit then 1#8 else 0#8

/-- `PackPush(acc, n, bit)`: the new partial byte, the new count, and the completed byte if the 8th decision completes
one (R130). -/
def packPush (acc : Byte) (n : BitVec 3) (bit : Bool) : Byte × BitVec 3 × Option Byte :=
  let acc' := acc ||| (bitByte bit <<< n.toNat)
  if n = 7#3 then (0#8, 0#3, some acc') else (acc', n + 1#3, none)

/-- `PackFlush(acc, n)`: the partial byte if any decision was written into it (R131). -/
def packFlush (acc : Byte) (n : BitVec 3) : Option Byte := if n = 0#3 then none else some acc

/-- Push decisions in order from a partial byte, then flush: the bytes emitted (R130, R131). -/
def packFrom (acc : Byte) (n : BitVec 3) : List Bool → List Byte
  | [] => (packFlush acc n).toList
  | d :: ds => (packPush acc n d).2.2.toList ++ packFrom (packPush acc n d).1 (packPush acc n d).2.1 ds

/-- `Pack(d)`: the encoded stream of a decision sequence (R132, R137). -/
def pack (ds : List Bool) : List Byte := packFrom 0#8 0#3 ds

/-- `Unpack(B) = [B[0], ..., B[7]]`, in rising bit number (R133). -/
def unpack (b : Byte) : List Bool :=
  [b.getLsbD 0, b.getLsbD 1, b.getLsbD 2, b.getLsbD 3, b.getLsbD 4, b.getLsbD 5, b.getLsbD 6, b.getLsbD 7]

/-- `ceil(a / b)` for b > 0 (spec/00_scope.md R13). -/
def ceilDiv (a b : Nat) : Nat := (a + b - 1) / b

/-- `Split(bytes, cb)`: chunk i (1-indexed, at place i - 1) is `bytes[(i-1)*cb : min(i*cb, L)]` (spec/42_chunk.md R150).
For `cb <= 0` the spec defines no split. -/
def split (bytes : List Byte) (cb : Nat) : List (List Byte) :=
  (List.range (ceilDiv bytes.length cb)).map fun i => (bytes.take (min ((i + 1) * cb) bytes.length)).drop (i * cb)

end Sys2Proof.Machine
end

