-- ==== Sys2Proof/Machine/Ops.lean ====
section
/-!
DEFINITION. The named operations over the machine's state: the ports, the register writes, the two status views, taking a
fault and leaving it, the E-side and D-side command frames, and the procedures SeqByte, SeqClose, EncPush and the decode
push that the commands are made of.
-/

namespace Sys2Proof.Machine

/-! ### Codes (spec/10_state.md R31; spec/60_exceptions.md R200) -/

/-- IDLE = 0, ACTIVE = 1, FAULT = 2 (R31). -/
def stCode : StreamState → BitVec 2
  | .idle => 0#2
  | .active => 1#2
  | .fault => 2#2

/-- 1 ConfigFault, 2 SeqFault, 3 IllegalCmd, 4 IdxOverflow (R200). -/
def faultCode : FaultKind → BitVec 3
  | .configFault => 1#3
  | .seqFault => 2#3
  | .illegalCmd => 3#3
  | .idxOverflow => 4#3

/-! ### The ports (spec/20_memory.md R52 to R54; spec/30_encoding.md R74 to R76) -/

/-- `Emit(EOUT, ev)` (spec/00_scope.md R14). -/
def emitEout (ev : EoutEvent) (s : State) : State := { s with out := s.out ++ [.eout ev] }

/-- `Emit(DOUT, SAMP(v))` (spec/00_scope.md R14). -/
def emitDout (v : SampleWord) (s : State) : State := { s with out := s.out ++ [.dout v] }

/-- The response word: `code` in bits 31:28, `data` in bits 27:0 (R74). -/
def responseWord (code : BitVec 4) (data : BitVec 28) : Word := code ++ data

/-- The end of a command: its one response word goes out (R54, R74). -/
def respond (code : BitVec 4) (data : BitVec 28) (s : State) : State :=
  { s with out := s.out ++ [.rsp (responseWord code data)] }

/-- `Respond(OK, data)`. -/
def respondOk (data : BitVec 28) (s : State) : State := respond 0#4 data s

/-- The response to a fault: `code << 28`, data 0 (R74). -/
def respondFault (code : BitVec 3) (s : State) : State := respond (code.setWidth 4) 0#28 s

/-- The events the Sink has received on EOUT, in order (R52). -/
def State.eout (s : State) : List EoutEvent :=
  s.out.filterMap fun e => match e with
    | .eout ev => some ev
    | .dout _ => none
    | .rsp _ => none

/-- The sample words on DOUT, in order (R53). -/
def State.dout (s : State) : List SampleWord :=
  s.out.filterMap fun e => match e with
    | .eout _ => none
    | .dout v => some v
    | .rsp _ => none

/-- The response words on RSP, in order (R54). -/
def State.responses (s : State) : List Word :=
  s.out.filterMap fun e => match e with
    | .eout _ => none
    | .dout _ => none
    | .rsp rw => some rw

/-- The present becomes the place where the open encode stream's EOUT events begin (R39, item 8; log entry 20). -/
def markStream (s : State) : State := { s with eoutMark := s.eout.length }

/-- The EOUT events since E.START last opened a stream: those "emitted in this stream" while one is open (R39, item 8). -/
def State.streamEvents (s : State) : List EoutEvent := s.eout.drop s.eoutMark

/-- The EOUT event word, `32 + IDX_W` bits: kind, idx, pl, data (R75). -/
def eoutWord (c : Config) (ev : EoutEvent) : BitVec (32 + c.idxW) :=
  match ev with
  | .byte idx pos data => BitVec.ofNat (32 + c.idxW) (idx * 2 ^ 31 + pos.toNat * 2 ^ 8 + data.toNat)
  | .cend idx len => BitVec.ofNat (32 + c.idxW) (2 ^ (31 + c.idxW) + idx * 2 ^ 31 + len.toNat * 2 ^ 8)

/-- The next host action and the state without it, or none when the host has presented nothing (R51;
spec/70_reset_and_hazards.md R251, R252). -/
def takeAction (s : State) : Option (HostAction × State) :=
  match s.cin with
  | [] => none
  | a :: rest => some (a, { s with cin := rest })

/-- Present a host action before those already waiting. -/
def presentAction (a : HostAction) (s : State) : State := { s with cin := a :: s.cin }

/-! ### Register writes (spec/10_state.md R20) -/

/-- `(E.level, E.resp, E.last) <- cs`. -/
def setEncCodec (cs : CodecState) (s : State) : State := { s with enc := { s.enc with codec := cs } }

/-- `E.hold <- b ; E.pend <- p`. -/
def setPending (b : Byte) (p : Bool) (s : State) : State := { s with enc := { s.enc with hold := b, pend := p } }

/-- `E.acc <- acc ; E.nbits <- n`. -/
def setPacker (acc : Byte) (n : BitVec 3) (s : State) : State := { s with enc := { s.enc with acc := acc, nbits := n } }

/-- `E.cb <- cb`. -/
def setChunkBytes (cb : BitVec 23) (s : State) : State := { s with enc := { s.enc with cb := cb } }

/-- `E.pos <- pos`. -/
def setPos (pos : BitVec 23) (s : State) : State := { s with enc := { s.enc with pos := pos } }

/-- `E.idx <- idx`. -/
def setIdx (idx : Nat) (s : State) : State := { s with enc := { s.enc with idx := idx } }

/-- `E.st <- st`. -/
def setEncSt (st : StreamState) (s : State) : State := { s with enc := { s.enc with st := st } }

/-- `(D.level, D.resp, D.last) <- cs`. -/
def setDecCodec (cs : CodecState) (s : State) : State := { s with dec := { s.dec with codec := cs } }

/-- `D.st <- st`. -/
def setDecSt (st : StreamState) (s : State) : State := { s with dec := { s.dec with st := st } }

/-- The E-side registers that E.START and E.END set back: the CodecState to `INIT_CS`, and the assembler, packer and
sequencer registers to 0; `E.cb`, `E.st` and `E.fcode` are kept (spec/43_stream.md R173, R176). -/
def clearEncStream (s : State) : State :=
  setIdx 0 (setPos 0#23 (setPacker 0#8 0#3 (setPending 0#8 false (setEncCodec CodecState.init s))))

/-! ### The views (spec/10_state.md R35, R37) -/

/-- `STATUS`, 25 bits (R35). -/
def status (s : State) : BitVec 25 :=
  BitVec.ofBool s.ill ++ 0#3 ++ s.dec.fcode ++ stCode s.dec.st ++ 0#7 ++ s.enc.nbits ++ BitVec.ofBool s.enc.pend
    ++ s.enc.fcode ++ stCode s.enc.st

/-- `CSTATE`, 15 bits, of one CodecState (R37). -/
def cstate (cs : CodecState) : BitVec 15 := BitVec.ofBool cs.last ++ cs.resp ++ cs.level

/-! ### Taking a fault, refusing, and the way back (spec/60_exceptions.md R203, R207 to R209) -/

/-- `raise F(E)`: the side goes to FAULT, the code is latched and reported; nothing is saved and nothing is vectored
(R207). Applied to the state before the command. -/
def raiseEnc (f : FaultKind) (s : State) : State :=
  respondFault (faultCode f) { s with enc := { s.enc with st := .fault, fcode := faultCode f } }

/-- `raise F(D)` (R207). -/
def raiseDec (f : FaultKind) (s : State) : State :=
  respondFault (faultCode f) { s with dec := { s.dec with st := .fault, fcode := faultCode f } }

/-- A command to the E side in FAULT: "no register written, no event", the latched code answered (R208). -/
def refuseEnc (s : State) : State := respondFault s.enc.fcode s

/-- A command to the D side in FAULT (R208). -/
def refuseDec (s : State) : State := respondFault s.dec.fcode s

/-- IllegalCmd: `ILL <- 1`, response code 3, nothing else (R203). -/
def raiseIllegal (s : State) : State := respondFault (faultCode .illegalCmd) { s with ill := illAfterIllegal }

/-- Every register to its reset value (spec/10_state.md R40): the one way out of FAULT and the one way to clear ILL
(R209). What the ports have carried stands, and what the host has yet to send is the host's (spec/70 R231). -/
def resetRegisters (s : State) : State :=
  { s with enc := EncRegs.reset, dec := DecRegs.reset, ill := false }

/-- The hardware reset input: the reset state, and no response (spec/70_reset_and_hazards.md R231). -/
def hardwareReset (s : State) : State := resetRegisters s

/-! ### The frame of a command (spec/43_stream.md R170; spec/60_exceptions.md R206, items 2 to 6) -/

/-- An E command that is legal in the stream state `need` and there does `body`, which gives the state after its writes
and events or the fault it raises. -/
def encCommand (need : StreamState) (body : Except FaultKind State) (s : State) : Result :=
  if s.enc.st = .fault then .next (refuseEnc s)
  else if s.enc.st ≠ need then .next (raiseEnc .seqFault s)
  else match body with
    | .ok s' => .next (respondOk 0#28 s')
    | .error f => .next (raiseEnc f s)

/-- A D command that is legal in the stream state `need` and there leaves `body`. -/
def decCommand (need : StreamState) (body : State) (s : State) : Result :=
  if s.dec.st = .fault then .next (refuseDec s)
  else if s.dec.st ≠ need then .next (raiseDec .seqFault s)
  else .next (respondOk 0#28 body)

/-! ### The chunk sequencer (spec/42_chunk.md R152, R153) -/

/-- "no chunk is open: this byte opens the next one" (R152). -/
def openChunk (s : State) : State := if s.enc.pos = 0#23 then setIdx (s.enc.idx + 1) s else s

/-- "the chunk is full: close it at once" (R152). -/
def closeIfFull (s : State) : State :=
  if s.enc.pos = s.enc.cb then setPos 0#23 (emitEout (.cend s.enc.idx s.enc.cb) s) else s

/-- `SeqByte(B)`: place one byte of the encoded stream (R152). -/
def seqByte (b : Byte) (s : State) : State :=
  let s1 := openChunk s
  let s2 := emitEout (.byte s1.enc.idx s1.enc.pos b) s1
  closeIfFull (setPos (s2.enc.pos + 1#23) s2)

/-- `SeqClose()`: close the stream's last chunk (R153). -/
def seqClose (s : State) : State :=
  if s.enc.pos = 0#23 then s else setPos 0#23 (emitEout (.cend s.enc.idx s.enc.pos) s)

/-- `SeqByte` for a byte that is there, nothing for none (spec/40_codec.md R117; spec/43_stream.md R176). -/
def seqOption (b : Option Byte) (s : State) : State :=
  match b with
  | some b => seqByte b s
  | none => s

/-- The next byte would open a chunk whose index does not fit: `E.pos = 0 and E.idx = 2^IDX_W - 1`
(spec/60_exceptions.md R204). -/
def indexExhausted (s : State) : Bool := s.enc.pos == 0#23 && s.enc.idx == s.cfg.maxIdx

/-! ### The encode and decode pipelines (spec/40_codec.md R117, R118) -/

/-- `EncPush(sample)`: Q, then BP, then CS when a byte is complete; IdxOverflow is checked first (R117). -/
def encPush (sample : Int) (s : State) : Except FaultKind State :=
  if s.enc.nbits == 7#3 && indexExhausted s then .error .idxOverflow
  else
    let r := encStep s.enc.codec sample
    let p := packPush s.enc.acc s.enc.nbits r.2
    .ok (seqOption p.2.2 (setPacker p.1 p.2.1 (setEncCodec r.1 s)))

/-- One decode step on the D registers: DecStep, then its sample on DOUT (R118). -/
def decPush (bit : Bool) (s : State) : State :=
  let r := decStep s.dec.codec bit
  emitDout r.2 (setDecCodec r.1 s)

end Sys2Proof.Machine
end

