-- ==== Sys2Proof/Machine/Block.lean ====
section
/-!
DEFINITION. The block commands RESET and RDSTAT (spec/43_stream.md R171, R172).
-/

namespace Sys2Proof.Machine

/-- `RESET`: every register to its reset value, then respond OK; legal in every state (R171). -/
def execReset (s : State) : Result := .next (respondOk 0#28 (resetRegisters s))

/-- `RDSTAT`: respond STATUS; legal in every state, writes nothing (R172). -/
def execRdstat (s : State) : Result := .next (respondOk ((status s).setWidth 28) s)

end Sys2Proof.Machine
end

