-- ==== Sys2Proof/Machine/DecodeSide.lean ====
section
/-!
DEFINITION. The decode side's commands: D.START, D.END (spec/43_stream.md R177, R178), D.BIT, D.RDST (spec/40_codec.md
R118, R120) and D.BYTE (spec/41_bitpack.md R136).
-/

namespace Sys2Proof.Machine

/-- `D.START`: legal in IDLE; a fresh stream, ACTIVE (R177). -/
def execDStart (s : State) : Result := decCommand .idle (setDecSt .active (setDecCodec CodecState.init s)) s

/-- `D.BIT bit`: legal in ACTIVE; one decode step, one SAMP (R118). -/
def execDBit (bit : BitVec 1) (s : State) : Result := decCommand .active (decPush (bitOperand bit) s) s

/-- `D.BYTE byte`: legal in ACTIVE; eight decode steps in rising bit number, each from the state the one before it left
(R136). -/
def execDByte (byte : Byte) (s : State) : Result :=
  decCommand .active ((unpack (byteOperand byte)).foldl (fun t bit => decPush bit t) s) s

/-- `D.END`: legal in ACTIVE; the state is discarded, IDLE (R178). -/
def execDEnd (s : State) : Result := decCommand .active (setDecSt .idle (setDecCodec CodecState.init s)) s

/-- `D.RDST`: respond the decoder's CSTATE; legal in every state, writes nothing (R120). -/
def execDRdst (s : State) : Result := .next (respondOk ((cstate s.dec.codec).setWidth 28) s)

end Sys2Proof.Machine
end

