-- ==== Sys2Proof/Machine/EncodeSide.lean ====
section
/-!
DEFINITION. The encode side's commands: E.CFG (spec/42_chunk.md R156), E.START, E.PCMB, E.END (spec/43_stream.md R173,
R175, R176), E.SAMP and E.RDST (spec/40_codec.md R116, R119).
-/

namespace Sys2Proof.Machine

/-- `E.CFG n`: legal in IDLE; n <= 0 is a ConfigFault, "never clamped, never ignored"; else `E.cb <- n` (R156). -/
def execECfg (n : BitVec 24) (s : State) : Result :=
  encCommand .idle
    (if cfgOperand n ≤ 0 then .error .configFault else .ok (setChunkBytes (tc 23 (cfgOperand n)) s)) s

/-- `E.START`: legal in IDLE; an unconfigured `E.cb` is a ConfigFault; else a fresh stream, ACTIVE (R173), whose
events begin here (spec/10_state.md R39, item 8; log entry 20). -/
def execEStart (s : State) : Result :=
  encCommand .idle
    (if s.enc.cb = 0#23 then .error .configFault else .ok (setEncSt .active (clearEncStream (markStream s)))) s

/-- `E.SAMP sample`: legal in ACTIVE; a pending low byte is a SeqFault; else EncPush (R116). -/
def execESamp (sample : SampleWord) (s : State) : Result :=
  encCommand .active (if s.enc.pend then .error .seqFault else encPush (sampleOperand sample) s) s

/-- What `E.PCMB` does in ACTIVE: hold a low byte, or complete the sample with a high byte and push it (R175). -/
def pushPcmByte (byte : Byte) (s : State) : Except FaultKind State :=
  if s.enc.pend then
    match encPush (sampleOfBytes s.enc.hold byte) s with
    | .ok s' => .ok (setPending 0#8 (pendAfter s.enc.pend) s')
    | .error f => .error f
  else .ok (setPending byte (pendAfter s.enc.pend) s)

/-- `E.PCMB byte`: legal in ACTIVE (R175). -/
def execEPcmb (byte : Byte) (s : State) : Result := encCommand .active (pushPcmByte (byteOperand byte) s) s

/-- What `E.END` does in ACTIVE: flush the partial byte, close the open chunk, discard the stream's state; the odd
trailing PCM byte is simply not used (R176). -/
def endEncStream (s : State) : Except FaultKind State :=
  if s.enc.nbits != 0#3 && indexExhausted s then .error .idxOverflow
  else .ok (setEncSt .idle (clearEncStream (seqClose (seqOption (packFlush s.enc.acc s.enc.nbits) s))))

/-- `E.END`: legal in ACTIVE (R176). -/
def execEEnd (s : State) : Result := encCommand .active (endEncStream s) s

/-- `E.RDST`: respond the encoder's CSTATE; legal in every state, writes nothing (R119). -/
def execERdst (s : State) : Result := .next (respondOk ((cstate s.enc.codec).setWidth 28) s)

end Sys2Proof.Machine
end

