-- ==== Sys2Proof/Machine/Dispatch.lean ====
section
/-!
DEFINITION. One arm per command of spec/opcode_table.json, each one call of its meaning.
-/

namespace Sys2Proof.Machine

def exec (i : Instr) (s : State) : Host.Outcome State Fault Refusal :=
  match i with
  | .reset => Sys2Proof.Machine.execReset s
  | .rdstat => Sys2Proof.Machine.execRdstat s
  | .eCfg n => Sys2Proof.Machine.execECfg n s
  | .eStart => Sys2Proof.Machine.execEStart s
  | .eSamp sample => Sys2Proof.Machine.execESamp sample s
  | .ePcmb byte => Sys2Proof.Machine.execEPcmb byte s
  | .eEnd => Sys2Proof.Machine.execEEnd s
  | .eRdst => Sys2Proof.Machine.execERdst s
  | .dStart => Sys2Proof.Machine.execDStart s
  | .dBit bit => Sys2Proof.Machine.execDBit bit s
  | .dByte byte => Sys2Proof.Machine.execDByte byte s
  | .dEnd => Sys2Proof.Machine.execDEnd s
  | .dRdst => Sys2Proof.Machine.execDRdst s

end Sys2Proof.Machine
end

