-- ==== Sys2Proof/Machine/Step.lean ====
section
/-!
DEFINITION. One step of the machine: one host action (spec/00_scope.md R15, R18; spec/70_reset_and_hazards.md R252).
-/

namespace Sys2Proof.Machine

/-- With nothing presented the block waits (R251; log entry 3). A hardware reset resets. A word that decodes runs its
command, and one that does not raises IllegalCmd (spec/30_encoding.md R77). -/
def step (s : State) : Host.Outcome State Fault Refusal :=
  match takeAction s with
  | none => .next s
  | some (.hardwareReset, t) => .next (hardwareReset t)
  | some (.word cw, t) =>
    match decode cw with
    | .ok i => exec i t
    | .error _ => .next (raiseIllegal t)

/-- The host presents the word `w` on CIN, before any action already waiting, so that the next step executes it: the
block fetches from CIN and nowhere else (spec/10_state.md R33; log entries 7 and 15). -/
def State.withFetchWord (s : State) (nbits w : Nat) : State := presentAction (.word (tableWord nbits w)) s

end Sys2Proof.Machine
end

