-- ==== Sys2Proof/WellFormed.lean ====
section
/-!
DEFINITION. The assembler's lines (spec/30_encoding.md R79, R80) and their well-formedness: "An operand out of range is an
assembly error, not a command word." A term of Instr needs no check of its own, since each operand has its field's width;
what can be ill formed is the line a host writes, whose operands are integers.
-/

namespace Sys2Proof

/-- An operand as it is written: a decimal integer, optionally signed, or a `0x` hexadecimal one (R79). The two differ
for `E.SAMP` and `E.PCMW` only, where a hexadecimal operand is a bit pattern. -/
inductive Literal where
  | dec (v : Int)
  | hex (v : Nat)
deriving DecidableEq, Repr

/-- One line: a command (R79) or a pseudo-instruction other than `REP` (R80). -/
inductive AsmLine where
  | reset
  | rdstat
  | eCfg (n : Literal)
  | eStart
  | eSamp (s : Literal)
  | ePcmb (b : Literal)
  | eEnd
  | eRdst
  | dStart
  | dBit (b : Literal)
  | dByte (b : Literal)
  | dEnd
  | dRdst
  /-- `E.PCMW s`: a sample as its little-endian byte pair. -/
  | ePcmw (s : Literal)
  /-- `E.BUF b0 ... bm`: a PCM byte buffer. -/
  | eBuf (bs : List Literal)
  /-- `D.BITS b0 ... bm`. -/
  | dBits (bs : List Literal)
  /-- `D.BUF b0 ... bm`: an encoded byte buffer. -/
  | dBuf (bs : List Literal)
deriving DecidableEq, Repr

/-- A program: "a finite list of commands", with `REP n` of the enclosed lines (R80). -/
inductive AsmProgram where
  | done
  | line (l : AsmLine) (rest : AsmProgram)
  | rep (n : Nat) (body rest : AsmProgram)
deriving DecidableEq, Repr

/-- The integer a literal is written as. -/
def Literal.value : Literal → Int
  | .dec v => v
  | .hex v => v

/-- `lo <= v <= hi`. -/
def Literal.within (lo hi : Int) (l : Literal) : Bool := lo ≤ l.value && l.value ≤ hi

/-- An `E.SAMP` operand: a signed integer in [-32768, 32767], or a hexadecimal pattern 0x0000 to 0xFFFF (R79). -/
def Literal.isSample : Literal → Bool
  | .dec v => -32768 ≤ v && v ≤ 32767
  | .hex v => v ≤ 0xFFFF

/-- An `E.PCMB` or `D.BYTE` operand: in [0, 255] (R79). -/
def Literal.isByte (l : Literal) : Bool := l.within 0 255

/-- A `D.BIT` operand: 0 or 1 (R79). -/
def Literal.isBit (l : Literal) : Bool := l.within 0 1

/-- The operand of each line is in the range R79 gives it; a buffer pseudo of R80 has at least one element. -/
def AsmLine.wellFormed : AsmLine → Bool
  | .reset => true
  | .rdstat => true
  | .eCfg n => n.within (-8388608) 8388607
  | .eStart => true
  | .eSamp s => s.isSample
  | .ePcmb b => b.isByte
  | .eEnd => true
  | .eRdst => true
  | .dStart => true
  | .dBit b => b.isBit
  | .dByte b => b.isByte
  | .dEnd => true
  | .dRdst => true
  | .ePcmw s => s.isSample
  | .eBuf bs => !bs.isEmpty && bs.all Literal.isByte
  | .dBits bs => !bs.isEmpty && bs.all Literal.isBit
  | .dBuf bs => !bs.isEmpty && bs.all Literal.isByte

/-- Every line of the program is well formed. -/
def AsmProgram.wellFormed : AsmProgram → Bool
  | .done => true
  | .line l rest => l.wellFormed && rest.wellFormed
  | .rep _ body rest => body.wellFormed && rest.wellFormed

end Sys2Proof
end

