-- ==== Sys2Proof/Machine/Assembler.lean ====
section
/-!
DEFINITION. The assembler of spec/30_encoding.md R79 and R80: a well-formed line to its commands, a pseudo-instruction to
its expansion, a program to its command words, and the text of one line to the line. The block never sees any of it; it is
the notation the spec's programs are written in.
-/

namespace Sys2Proof.Machine

/-- The 16-bit pattern of an `E.SAMP` operand: `tc_16` of a signed integer, or the pattern itself (R79). -/
def samplePattern : Literal → SampleWord
  | .dec v => tc 16 v
  | .hex v => BitVec.ofNat 16 v

/-- The commands a line stands for, without a check of its operands (R79, R80). -/
def expandLine : AsmLine → List Instr
  | .reset => [.reset]
  | .rdstat => [.rdstat]
  | .eCfg n => [.eCfg (tc 24 n.value)]
  | .eStart => [.eStart]
  | .eSamp s => [.eSamp (samplePattern s)]
  | .ePcmb b => [.ePcmb (tc 8 b.value)]
  | .eEnd => [.eEnd]
  | .eRdst => [.eRdst]
  | .dStart => [.dStart]
  | .dBit b => [.dBit (tc 1 b.value)]
  | .dByte b => [.dByte (tc 8 b.value)]
  | .dEnd => [.dEnd]
  | .dRdst => [.dRdst]
  | .ePcmw s => [.ePcmb ((samplePattern s).extractLsb' 0 8), .ePcmb ((samplePattern s).extractLsb' 8 8)]
  | .eBuf bs => bs.map fun b => .ePcmb (tc 8 b.value)
  | .dBits bs => bs.map fun b => .dBit (tc 1 b.value)
  | .dBuf bs => bs.map fun b => .dByte (tc 8 b.value)

/-- A line's commands, or none: "An operand out of range is an assembly error, not a command word" (R79). -/
def assembleLine (l : AsmLine) : Option (List Instr) := if l.wellFormed then some (expandLine l) else none

/-- `n` copies in a row: `REP n` (R80). -/
def repeatCommands (n : Nat) (is : List Instr) : List Instr := (List.replicate n is).flatten

/-- The commands of a program, without a check (R80). -/
def expandProgram : AsmProgram → List Instr
  | .done => []
  | .line l rest => expandLine l ++ expandProgram rest
  | .rep n body rest => repeatCommands n (expandProgram body) ++ expandProgram rest

/-- The command words of a program, or none when a line is ill formed (R79, R80). -/
def assembleProgram (p : AsmProgram) : Option (List Word) :=
  if p.wellFormed then some ((expandProgram p).map encode) else none

/-! ### The text of one line (R79; the lexical conventions are log entry 17) -/

/-- The characters before a `;`. -/
def stripComment (cs : List Char) : List Char := cs.takeWhile (· ≠ ';')

/-- The words of a line, at the spaces. -/
def splitWords (cs : List Char) : List (List Char) :=
  let r := cs.foldr (fun c (cur, done) => if c = ' ' then ([], if cur = [] then done else cur :: done) else (c :: cur, done))
    (([] : List Char), ([] : List (List Char)))
  if r.1 = [] then r.2 else r.1 :: r.2

/-- The value of a digit in base 10 or 16. -/
def digitValue (base : Nat) (c : Char) : Option Nat :=
  let v := if '0' ≤ c ∧ c ≤ '9' then some (c.toNat - 48)
    else if 'A' ≤ c ∧ c ≤ 'F' then some (c.toNat - 55)
    else if 'a' ≤ c ∧ c ≤ 'f' then some (c.toNat - 87)
    else none
  v.filter (· < base)

/-- A non-empty run of digits, most significant first. -/
def parseDigits (base : Nat) (cs : List Char) : Option Nat :=
  if cs = [] then none
  else cs.foldl (fun acc c => acc.bind fun a => (digitValue base c).map fun d => a * base + d) (some 0)

/-- An operand: a decimal integer, optionally signed, or `0x` hexadecimal (R79). -/
def parseLiteral (cs : List Char) : Option Literal :=
  match cs with
  | '0' :: 'x' :: ds => (parseDigits 16 ds).map .hex
  | '-' :: ds => (parseDigits 10 ds).map fun v => .dec (-(v : Int))
  | ds => (parseDigits 10 ds).map fun v => .dec (v : Int)

/-- A mnemonic that takes no operand. -/
def parseBare (m : List Char) : Option AsmLine :=
  if m = "RESET".toList then some .reset
  else if m = "RDSTAT".toList then some .rdstat
  else if m = "E.START".toList then some .eStart
  else if m = "E.END".toList then some .eEnd
  else if m = "E.RDST".toList then some .eRdst
  else if m = "D.START".toList then some .dStart
  else if m = "D.END".toList then some .dEnd
  else if m = "D.RDST".toList then some .dRdst
  else none

/-- A mnemonic that takes one operand. -/
def parseUnary (m : List Char) (v : Literal) : Option AsmLine :=
  if m = "E.CFG".toList then some (.eCfg v)
  else if m = "E.SAMP".toList then some (.eSamp v)
  else if m = "E.PCMB".toList then some (.ePcmb v)
  else if m = "D.BIT".toList then some (.dBit v)
  else if m = "D.BYTE".toList then some (.dByte v)
  else none

/-- `line := mnemonic [operand] [";" comment]`, mnemonics "case-sensitive as written" (R79). -/
def parseLine (cs : List Char) : Option AsmLine :=
  match splitWords (stripComment cs) with
  | [m] => parseBare m
  | [m, v] => (parseLiteral v).bind (parseUnary m)
  | _ => none

end Sys2Proof.Machine
end

