-- ==== Sys2Proof/Safety.lean ====
section
/-!
DEFINITION. What counts as a complete and a clean run (spec/70_reset_and_hazards.md R251), and the invariant of the state
(spec/10_state.md R39), in the terms the statements use.
-/

namespace Sys2Proof.Machine

/-- *stream-complete* for the E side: `E.st = IDLE` (R251). -/
abbrev State.encComplete (s : State) : Prop := s.enc.st = .idle

/-- *stream-complete* for the D side: `D.st = IDLE` (R251). -/
abbrev State.decComplete (s : State) : Prop := s.dec.st = .idle

/-- *clean end*: both sides IDLE, no fault latched, `ILL = 0`, nothing pending (R251). -/
abbrev State.cleanEnd (s : State) : Prop :=
  s.enc.st = .idle ∧ s.dec.st = .idle ∧ s.enc.fcode = 0#3 ∧ s.dec.fcode = 0#3 ∧ s.ill = false ∧ s.enc.pend = false ∧
    s.enc.nbits = 0#3

/-- The event is a BYTE (spec/20_memory.md R52). -/
def isByteEvent : EoutEvent → Bool
  | .byte _ _ _ => true
  | .cend _ _ => false

/-- R39 on the encode side, items 2 to 8 as far as they speak of registers alone, with the width of `E.idx` (R30) as a bound;
items 1 and 7 hold by the types. -/
structure EncRegs.Inv (c : Config) (e : EncRegs) : Prop where
  /-- Item 2. -/
  hold_empty : e.pend = false → e.hold = 0#8
  /-- Item 3: bits 7 down to `E.nbits` of `E.acc` are 0, so `E.acc` is below `2^E.nbits`. -/
  acc_clear : e.acc.toNat < 2 ^ e.nbits.toNat
  /-- Item 4. -/
  open_chunk : e.st = .active → 1 ≤ e.cb.toNat ∧ e.pos.toNat < e.cb.toNat
  /-- Item 5. -/
  idle_clean : e.st = .idle → e.codec = CodecState.init ∧ e.hold = 0#8 ∧ e.pend = false ∧ e.acc = 0#8 ∧ e.nbits = 0#3 ∧
    e.pos = 0#23 ∧ e.idx = 0
  /-- Item 6, no code latched outside FAULT. -/
  no_code : e.st ≠ .fault → e.fcode = 0#3
  /-- Item 6, the codes an E side latches. -/
  fault_code : e.st = .fault → e.fcode = 1#3 ∨ e.fcode = 2#3 ∨ e.fcode = 4#3
  /-- Item 8, its second half (its first half speaks of the history: `State.Inv.no_byte_yet`). -/
  chunk_numbered : e.st = .active → 0 < e.pos.toNat → 1 ≤ e.idx
  /-- `E.idx` is `IDX_W` bits wide (R30). -/
  idx_fits : e.idx < 2 ^ c.idxW

/-- R39 on the decode side, items 5 and 6. -/
structure DecRegs.Inv (d : DecRegs) : Prop where
  /-- Item 5. -/
  idle_clean : d.st = .idle → d.codec = CodecState.init
  /-- Item 6, no code latched outside FAULT. -/
  no_code : d.st ≠ .fault → d.fcode = 0#3
  /-- Item 6, the one code a D side latches. -/
  fault_code : d.st = .fault → d.fcode = 2#3

/-- The invariant of the state (R39): that of each side's registers, and item 8's first half, which relates the E side's
registers to what EOUT has carried. -/
structure State.Inv (s : State) : Prop where
  enc : s.enc.Inv s.cfg
  dec : s.dec.Inv
  /-- Where the stream's events begin lies within the history (log entry 20). -/
  mark_within : s.eoutMark ≤ s.eout.length
  /-- Item 8, its first half, in both directions: while ACTIVE, `E.pos = 0` and `E.idx = 0` together hold exactly when no
  byte has been emitted in this stream. -/
  no_byte_yet : s.enc.st = .active →
    (s.enc.pos = 0#23 ∧ s.enc.idx = 0 ↔ ∀ ev ∈ s.streamEvents, isByteEvent ev = false)

end Sys2Proof.Machine
end

