-- ==== Sys2Proof/Certificates/Slice0/Obligations.lean ====
section
/-!
DEFINITION. The statements for the provers, and the few notions they are written in. The notions (namespace Claims) are
read from the spec's rules on integers and on whole records, apart from the model's own functions, so that a statement
says what a rule says and not how the model computes it. State's fields `cin`, `out` and `eoutMark` are the model's own (log
entries 2, 4 and 20): what a statement says of the first two is what spec/20_memory.md R51, R54 and R61 say of the ports,
and of the third what spec/10_state.md R39, item 8, says of "this stream".
-/

namespace Sys2Proof.Claims

open Sys2Proof.Machine

/-! ### Commands and words -/

/-- The (mask, match) pairs of the opcode map, written out from spec/30_encoding.md R73. -/
def commandRows : List (Word × Word) :=
  [(0xFFFFFFFF#32, 0x01000000#32), (0xFFFFFFFF#32, 0x02000000#32), (0xFF000000#32, 0x10000000#32),
   (0xFFFFFFFF#32, 0x11000000#32), (0xFFFF0000#32, 0x12000000#32), (0xFFFFFF00#32, 0x13000000#32),
   (0xFFFFFFFF#32, 0x14000000#32), (0xFFFFFFFF#32, 0x15000000#32), (0xFFFFFFFF#32, 0x20000000#32),
   (0xFFFFFFFE#32, 0x21000000#32), (0xFFFFFF00#32, 0x22000000#32), (0xFFFFFFFF#32, 0x23000000#32),
   (0xFFFFFFFF#32, 0x24000000#32)]

/-- The word matches a row: it is one of the thirteen commands (R73, R77). -/
abbrev legalWord (cw : Word) : Prop := ∃ r ∈ commandRows, cw &&& r.1 = r.2

/-- The commands addressed to the E side that a fault of that side refuses: all but its read-back (R208). -/
def isEncData : Instr → Bool
  | .eCfg _ => true
  | .eStart => true
  | .eSamp _ => true
  | .ePcmb _ => true
  | .eEnd => true
  | .reset => false
  | .rdstat => false
  | .eRdst => false
  | .dStart => false
  | .dBit _ => false
  | .dByte _ => false
  | .dEnd => false
  | .dRdst => false

/-- The commands addressed to the D side that a fault of that side refuses: all but its read-back (R208). -/
def isDecData : Instr → Bool
  | .dStart => true
  | .dBit _ => true
  | .dByte _ => true
  | .dEnd => true
  | .reset => false
  | .rdstat => false
  | .eRdst => false
  | .dRdst => false
  | .eCfg _ => false
  | .eStart => false
  | .eSamp _ => false
  | .ePcmb _ => false
  | .eEnd => false

/-- The encode group of the opcode map, opcode high nibble 1 (R73). -/
def isEncSide (i : Instr) : Bool := isEncData i || i == .eRdst

/-- The decode group of the opcode map, opcode high nibble 2 (R73). -/
def isDecSide (i : Instr) : Bool := isDecData i || i == .dRdst

/-- A host action that resets the block: the pin, or the word of RESET (spec/70_reset_and_hazards.md R231). -/
def isReset : HostAction → Bool
  | .hardwareReset => true
  | .word cw => cw == 0x01000000#32

/-! ### Answers and faults -/

/-- The state after the response word `rw` has gone out. -/
def answered (rw : Word) (s : State) : State := { s with out := s.out ++ [.rsp rw] }

/-- `code << 28` (spec/30_encoding.md R74). -/
def faultWord (code : BitVec 3) : Word := BitVec.ofNat 32 (code.toNat * 2 ^ 28)

/-- The E side in FAULT with the code latched and reported, everything else as it was (spec/60_exceptions.md R207). -/
def faultedE (code : BitVec 3) (s : State) : State :=
  answered (faultWord code) { s with enc := { s.enc with st := .fault, fcode := code } }

/-- The D side in FAULT with the code latched and reported, everything else as it was (spec/60_exceptions.md R207). -/
def faultedD (code : BitVec 3) (s : State) : State :=
  answered (faultWord code) { s with dec := { s.dec with st := .fault, fcode := code } }

/-- The port event is a response word. -/
def isResponse : PortEvent → Bool
  | .rsp _ => true
  | .eout _ => false
  | .dout _ => false

/-- The port event is an EOUT event. -/
def isEout : PortEvent → Bool
  | .rsp _ => false
  | .eout _ => true
  | .dout _ => false

/-- The port event is a DOUT event. -/
def isDout : PortEvent → Bool
  | .rsp _ => false
  | .eout _ => false
  | .dout _ => true

/-! ### The update rule on integers (spec/40_codec.md R100 to R105) -/

/-- The response after a decision: one up on a repeat and one down on a reversal, kept in [0, 63] (R103). -/
def nextResp (resp : Nat) (bit last : Bool) : Nat := if bit = last then min (resp + 1) 63 else resp - 1

/-- The level after a decision, with the new response; `/` on Int by 64 is floor division (R102, R104). -/
def nextLevel (level : Int) (bit : Bool) (resp' : Nat) : Int :=
  level + (((if bit then 127 else -128) - level) * ((resp' : Int) + 1)) / 64

/-- `cs'` is the CodecState after the decision `bit` from `cs` (R105). -/
def CodecAfter (cs : CodecState) (bit : Bool) (cs' : CodecState) : Prop :=
  cs'.last = bit ∧ cs'.resp.toNat = nextResp cs.resp.toNat bit cs.last ∧
    cs'.level.toInt = nextLevel cs.level.toInt bit (nextResp cs.resp.toNat bit cs.last)

/-- The decision on a sample: `floor(sample / 256) >= level` (R100, R101). -/
def decides (cs : CodecState) (sample : Int) : Bool := decide (cs.level.toInt ≤ sample / 256)

/-- `outs` are the sample words and `cs'` the last CodecState of decoding `bits` from `cs` (R107): word by word, 256
times the level after the bit. -/
def DecodesTo : CodecState → List Bool → List SampleWord → CodecState → Prop
  | cs, [], outs, cs' => outs = [] ∧ cs' = cs
  | cs, b :: bs, outs, cs' =>
    ∃ cs1 v rest, CodecAfter cs b cs1 ∧ v.toInt = cs1.level.toInt * 256 ∧ outs = v :: rest ∧ DecodesTo cs1 bs rest cs'

/-! ### The packer and the sequencer on whole records (spec/41_bitpack.md R130; spec/42_chunk.md R152, R153) -/

/-- `B` is `acc` with decision number `n` in bit `n` (R130). -/
def PackedInto (acc : Byte) (n : BitVec 3) (bit : Bool) (B : Byte) : Prop :=
  ∀ k, B.getLsbD k = (acc.getLsbD k || (decide (k = n.toNat) && bit))

/-- The index of the chunk that takes the next byte (R152). -/
def chunkNumber (s : State) : Nat := if s.enc.pos = 0#23 then s.enc.idx + 1 else s.enc.idx

/-- The state after the byte `B` of the encoded stream has been placed (R152). -/
def placed (B : Byte) (s : State) : State :=
  if s.enc.pos + 1#23 = s.enc.cb then
    { s with enc := { s.enc with idx := chunkNumber s, pos := 0#23 },
             out := s.out ++ [.eout (.byte (chunkNumber s) s.enc.pos B), .eout (.cend (chunkNumber s) s.enc.cb)] }
  else
    { s with enc := { s.enc with idx := chunkNumber s, pos := s.enc.pos + 1#23 },
             out := s.out ++ [.eout (.byte (chunkNumber s) s.enc.pos B)] }

/-- The next byte would open a chunk whose index does not fit (spec/60_exceptions.md R204). -/
abbrev noIndexLeft (s : State) : Prop := s.enc.pos = 0#23 ∧ s.enc.idx = 2 ^ s.cfg.idxW - 1

/-- `t` is `s` after the E side has taken one complete sample, before the response (spec/40_codec.md R117). -/
def EncPushed (s : State) (sample : Int) (t : State) : Prop :=
  ∃ cs' B, CodecAfter s.enc.codec (decides s.enc.codec sample) cs' ∧
    PackedInto s.enc.acc s.enc.nbits (decides s.enc.codec sample) B ∧
    t = if s.enc.nbits = 7#3 then
          placed B { s with enc := { s.enc with codec := cs', acc := 0#8, nbits := 0#3 } }
        else { s with enc := { s.enc with codec := cs', acc := B, nbits := s.enc.nbits + 1#3 } }

/-- The state after the packer's partial byte has gone out, if there is one (spec/43_stream.md R176, item 2). -/
def flushed (s : State) : State := if s.enc.nbits = 0#3 then s else placed s.enc.acc s

/-- The state after the open chunk has been closed, if there is one (R153; spec/43_stream.md R176, item 3). -/
def closed (s : State) : State :=
  if s.enc.pos = 0#23 then s
  else { s with enc := { s.enc with pos := 0#23 }, out := s.out ++ [.eout (.cend s.enc.idx s.enc.pos)] }

/-- The stream's registers back to 0 and the side in `st`; `E.cb` and `E.fcode` kept (spec/43_stream.md R173, R176). -/
def freshE (st : StreamState) (s : State) : State :=
  { s with enc := { codec := { level := 0#8, resp := 0#6, last := false }, hold := 0#8, pend := false, acc := 0#8,
                    nbits := 0#3, cb := s.enc.cb, pos := 0#23, idx := 0, st := st, fcode := s.enc.fcode } }

/-- The events of a list of chunks numbered from `i`: the bytes of each in order, then its CEND (R52, R154). -/
def chunkEvents : Nat → List (List Byte) → List EoutEvent
  | _, [] => []
  | i, c :: cs =>
    (c.mapIdx fun j b => EoutEvent.byte i (BitVec.ofNat 23 j) b) ++ [.cend i (BitVec.ofNat 23 c.length)] ++
      chunkEvents (i + 1) cs

/-- The number of chunks of a stream of `n` bytes, `ceil(n / cb)` (R151). -/
def chunkCount (n cb : Nat) : Nat := (n + cb - 1) / cb

/-- Run commands in order; none when one of them stops. -/
def runCommands : List Instr → State → Option State
  | [], s => some s
  | i :: is, s =>
    match exec i s with
    | .next t => runCommands is t
    | .fault _ => none
    | .refused _ => none

/-- How many BYTE events a list of EOUT events holds. -/
def byteCount (evs : List EoutEvent) : Nat := evs.countP isByteEvent

/-- How many CEND events a list of EOUT events holds. -/
def cendCount (evs : List EoutEvent) : Nat := evs.countP fun ev => !isByteEvent ev

/-- While a stream is open, the bytes it has emitted are those of its closed chunks and of its open one, and it has closed
as many chunks as its position says (spec/10_state.md R29, R30; spec/42_chunk.md R155). -/
def positionCounts (s : State) : Prop :=
  s.enc.st = .active →
    byteCount s.streamEvents =
      (if s.enc.pos = 0#23 then s.enc.idx * s.enc.cb.toNat else (s.enc.idx - 1) * s.enc.cb.toNat + s.enc.pos.toNat) ∧
    cendCount s.streamEvents = if s.enc.pos = 0#23 then s.enc.idx else s.enc.idx - 1

/-- A fault is on record: a side is in FAULT or `ILL` is 1 (spec/60_exceptions.md R209). -/
def faultOnRecord (s : State) : Prop := s.enc.st = .fault ∨ s.dec.st = .fault ∨ s.ill = true

/-- An EOUT event with its fields in the ranges of spec/30_encoding.md R75, for a configuration and a `chunkBytes`. -/
def eventInRange (c : Config) (cb : Nat) : EoutEvent → Prop
  | .byte idx pos _ => 1 ≤ idx ∧ idx < 2 ^ c.idxW ∧ pos.toNat < cb
  | .cend idx len => 1 ≤ idx ∧ idx < 2 ^ c.idxW ∧ 1 ≤ len.toNat ∧ len.toNat ≤ cb

end Sys2Proof.Claims

open Sys2Proof Sys2Proof.Machine Sys2Proof.Claims

/-! ## Encoding -/

/-- R73, R72: each row of the opcode map, as a word selects it, gives its command with its operand field, and no word
selects two rows. -/
def Obligations.WordsOfTheTableDecodeToTheirCommand : Prop :=
  ∀ cw : Word,
    (cw = 0x01000000#32 → decode cw = .ok .reset) ∧
    (cw = 0x02000000#32 → decode cw = .ok .rdstat) ∧
    (cw &&& 0xFF000000#32 = 0x10000000#32 → decode cw = .ok (.eCfg (cw.extractLsb' 0 24))) ∧
    (cw = 0x11000000#32 → decode cw = .ok .eStart) ∧
    (cw &&& 0xFFFF0000#32 = 0x12000000#32 → decode cw = .ok (.eSamp (cw.extractLsb' 0 16))) ∧
    (cw &&& 0xFFFFFF00#32 = 0x13000000#32 → decode cw = .ok (.ePcmb (cw.extractLsb' 0 8))) ∧
    (cw = 0x14000000#32 → decode cw = .ok .eEnd) ∧
    (cw = 0x15000000#32 → decode cw = .ok .eRdst) ∧
    (cw = 0x20000000#32 → decode cw = .ok .dStart) ∧
    (cw &&& 0xFFFFFFFE#32 = 0x21000000#32 → decode cw = .ok (.dBit (cw.extractLsb' 0 1))) ∧
    (cw &&& 0xFFFFFF00#32 = 0x22000000#32 → decode cw = .ok (.dByte (cw.extractLsb' 0 8))) ∧
    (cw = 0x23000000#32 → decode cw = .ok .dEnd) ∧
    (cw = 0x24000000#32 → decode cw = .ok .dRdst) ∧
    (∀ r ∈ commandRows, ∀ q ∈ commandRows, cw &&& r.1 = r.2 → cw &&& q.1 = q.2 → r = q)

/-- Every command's word decodes to the command, with every operand at every value (R70, R73). -/
def Obligations.DecodeOfEncodeIsTheCommand : Prop := ∀ i : Instr, decode (encode i) = .ok i

/-- A word that decodes is the word of the command it decodes to: no bit of an encoding is dropped (R70, R78). -/
def Obligations.EncodeOfDecodeIsTheWord : Prop := ∀ (cw : Word) (i : Instr), decode cw = .ok i → encode i = cw

/-- "every 32-bit word is exactly one of the thirteen commands or illegal": the words that decode are those that match a
row (R77). -/
def Obligations.WordsOutsideTheTableDoNotDecode : Prop := ∀ cw : Word, (∃ i, decode cw = .ok i) ↔ legalWord cw

/-- Words written out from the opcode map decode as spec/95_test_vectors.md B10 lists them. -/
def Obligations.WordsOfTheSpecDecode : Prop :=
  decode 0x107FFFFF#32 = .ok (.eCfg 8388607#24) ∧ decode 0x12008000#32 = .ok (.eSamp 0x8000#16) ∧
    decode 0x130000FF#32 = .ok (.ePcmb 0xFF#8) ∧ decode 0x21000001#32 = .ok (.dBit 1#1) ∧
    decode 0x22000005#32 = .ok (.dByte 5#8) ∧ decode 0x02000000#32 = .ok .rdstat ∧
    decode 0x12010000#32 = .error .strayOperandBit ∧ decode 0x00000000#32 = .error .unassignedOpcode

/-- R79: a signed operand in range assembles to its one word, which decodes to a command that reads the operand back;
out of range it is an assembly error. -/
def Obligations.AssembledOperandsAreReadBack : Prop :=
  (∀ n : Int, -8388608 ≤ n → n ≤ 8388607 → ∃ i, assembleLine (.eCfg (.dec n)) = some [i] ∧
      (encode i).toNat = 0x10000000 + (n % 2 ^ 24).toNat ∧
      ∃ f, decode (encode i) = .ok (.eCfg f) ∧ cfgOperand f = n) ∧
  (∀ v : Int, -32768 ≤ v → v ≤ 32767 → ∃ i, assembleLine (.eSamp (.dec v)) = some [i] ∧
      (encode i).toNat = 0x12000000 + (v % 2 ^ 16).toNat ∧
      ∃ f, decode (encode i) = .ok (.eSamp f) ∧ sampleOperand f = v) ∧
  (∀ n : Int, (n < -8388608 ∨ 8388607 < n) → assembleLine (.eCfg (.dec n)) = none) ∧
  (∀ v : Int, (v < -32768 ∨ 32767 < v) → assembleLine (.eSamp (.dec v)) = none)

/-! ## The step -/

/-- A step whose next host action is a word that decodes runs the command on the state without that word. -/
def Obligations.StepRunsTheDecodedCommand : Prop :=
  ∀ (s : State) (cw : Word) (rest : List HostAction) (i : Instr), s.cin = .word cw :: rest → decode cw = .ok i →
    step s = exec i { s with cin := rest }

/-- With no host action the block waits (R251; the model's form of waiting is log entry 3). -/
def Obligations.StepWaitsForTheHost : Prop := ∀ s : State, s.cin = [] → step s = .next s

/-- A word that matches no row sets `ILL`, is answered with code 3, and changes nothing else; `ILL` stays 1 until a
reset (R203). -/
def Obligations.IllegalWordSetsIllAndNothingElse : Prop :=
  (∀ (s : State) (cw : Word) (rest : List HostAction), s.cin = .word cw :: rest → ¬ legalWord cw →
    step s = .next { s with cin := rest, ill := true, out := s.out ++ [.rsp 0x30000000#32] }) ∧
  (∀ s t : State, step s = .next t → s.ill = true → (∀ a ∈ s.cin.head?, isReset a = false) → t.ill = true)

/-- The hardware reset and the word of RESET leave the same registers, those of the reset state; they differ in that the
word is answered (R231). -/
def Obligations.HardwareResetDiffersFromResetOnlyInTheResponse : Prop :=
  ∀ (s : State) (rest : List HostAction),
    (s.cin = .hardwareReset :: rest →
      step s = .next { s with cin := rest, enc := State.reset.enc, dec := State.reset.dec, ill := State.reset.ill }) ∧
    (s.cin = .word 0x01000000#32 :: rest →
      step s = .next { s with cin := rest, enc := State.reset.enc, dec := State.reset.dec, ill := State.reset.ill,
                              out := s.out ++ [.rsp 0#32] })

/-- Every word has a defined outcome: a step always gives a next state, takes one host action if there is one (with none
it waits, the model's choice in log entry 3), and keeps the configuration (R77, R51, R252). -/
def Obligations.EveryStepGivesANextState : Prop :=
  ∀ s : State, ∃ t, step s = .next t ∧ t.cin = s.cin.tail ∧ t.cfg = s.cfg

/-- Every command word, legal or not, gives exactly one response word, after all the events it emits (R54). -/
def Obligations.EveryCommandAnswersOnceAfterItsEvents : Prop :=
  ∀ (s t : State) (cw : Word) (rest : List HostAction), s.cin = .word cw :: rest → step s = .next t →
    ∃ (evs : List PortEvent) (rw : Word), t.out = s.out ++ evs ++ [.rsp rw] ∧ ∀ e ∈ evs, isResponse e = false

/-- The state after reset: every register at the value of R40, and nothing emitted (R230). -/
def Obligations.ResetStateIsAllZero : Prop :=
  State.reset.enc = { codec := { level := 0#8, resp := 0#6, last := false }, hold := 0#8, pend := false, acc := 0#8,
                      nbits := 0#3, cb := 0#23, pos := 0#23, idx := 0, st := .idle, fcode := 0#3 } ∧
    State.reset.dec = { codec := { level := 0#8, resp := 0#6, last := false }, st := .idle, fcode := 0#3 } ∧
    State.reset.ill = false ∧ State.reset.eout = [] ∧ State.reset.dout = []

/-! ## Block commands -/

/-- RESET is legal in every state, brings every register to its reset value and answers OK, keeps the events already
emitted, has the effect of the hardware reset but for the response, and is the only command that clears a FAULT state,
a latched code, `ILL` or `E.cb` (R171). -/
def Obligations.ResetCommandClearsEverythingAndAloneClearsFaults : Prop :=
  (∀ s : State, exec .reset s =
    .next { s with enc := State.reset.enc, dec := State.reset.dec, ill := State.reset.ill,
                   out := s.out ++ [.rsp 0#32] }) ∧
  (∀ s : State, exec .reset s = .next (answered 0#32 (hardwareReset s))) ∧
  (∀ (i : Instr) (s t : State), exec i s = .next t → i ≠ .reset →
    (s.enc.st = .fault → t.enc.st = .fault ∧ t.enc.fcode = s.enc.fcode) ∧
    (s.dec.st = .fault → t.dec.st = .fault ∧ t.dec.fcode = s.dec.fcode) ∧
    (s.ill = true → t.ill = true) ∧ (s.enc.cb ≠ 0#23 → t.enc.cb ≠ 0#23))

/-- RDSTAT answers the STATUS word of R35, field by field, and changes nothing else (R172). -/
def Obligations.RdstatAnswersTheStatusFields : Prop :=
  ∀ s : State, ∃ rw : Word, exec .rdstat s = .next (answered rw s) ∧
    rw.toNat =
      (match s.enc.st with | .idle => 0 | .active => 1 | .fault => 2) + s.enc.fcode.toNat * 2 ^ 2 +
      s.enc.pend.toNat * 2 ^ 5 + s.enc.nbits.toNat * 2 ^ 6 +
      (match s.dec.st with | .idle => 0 | .active => 1 | .fault => 2) * 2 ^ 16 + s.dec.fcode.toNat * 2 ^ 18 +
      s.ill.toNat * 2 ^ 24

/-- E.RDST and D.RDST answer the CSTATE of their side, field by field, and change nothing else (R119, R120, R37). -/
def Obligations.ReadBacksAnswerTheCodecState : Prop :=
  ∀ s : State,
    (∃ rw : Word, exec .eRdst s = .next (answered rw s) ∧
      rw.toNat = s.enc.codec.level.toNat + s.enc.codec.resp.toNat * 2 ^ 8 + s.enc.codec.last.toNat * 2 ^ 14) ∧
    (∃ rw : Word, exec .dRdst s = .next (answered rw s) ∧
      rw.toNat = s.dec.codec.level.toNat + s.dec.codec.resp.toNat * 2 ^ 8 + s.dec.codec.last.toNat * 2 ^ 14)

/-- A RDSTAT answer of 0 is a clean end, and a clean end answers 0 (R251). -/
def Obligations.CleanEndIsAZeroStatus : Prop :=
  ∀ s : State, exec .rdstat s = .next (answered 0#32 s) ↔ s.cleanEnd

/-! ## Encode side -/

/-- E.CFG in every state (R156): refused in FAULT, SeqFault in ACTIVE, ConfigFault for n <= 0 in IDLE, else `E.cb <- n`
and nothing else. -/
def Obligations.EcfgSetsChunkBytesOrFaults : Prop :=
  ∀ (n : BitVec 24) (s : State),
    (s.enc.st = .fault → exec (.eCfg n) s = .next (answered (faultWord s.enc.fcode) s)) ∧
    (s.enc.st = .active → exec (.eCfg n) s = .next (faultedE 2#3 s)) ∧
    (s.enc.st = .idle → n.toInt ≤ 0 → exec (.eCfg n) s = .next (faultedE 1#3 s)) ∧
    (s.enc.st = .idle → 0 < n.toInt → ∃ cb : BitVec 23, (cb.toNat : Int) = n.toInt ∧
      exec (.eCfg n) s = .next (answered 0#32 { s with enc := { s.enc with cb := cb } }))

/-- E.START in every state (R173): refused in FAULT, SeqFault in ACTIVE, ConfigFault when `E.cb = 0`, else a fresh
ACTIVE stream with `E.cb` kept; that the model's `eoutMark` then
stands at the end of the history is no clause of R173 but the model's reading (log entry 20). -/
def Obligations.EstartOpensAFreshStreamOrFaults : Prop :=
  ∀ s : State,
    (s.enc.st = .fault → exec .eStart s = .next (answered (faultWord s.enc.fcode) s)) ∧
    (s.enc.st = .active → exec .eStart s = .next (faultedE 2#3 s)) ∧
    (s.enc.st = .idle → s.enc.cb = 0#23 → exec .eStart s = .next (faultedE 1#3 s)) ∧
    (s.enc.st = .idle → s.enc.cb ≠ 0#23 → 
      exec .eStart s = .next (answered 0#32 { freshE .active s with eoutMark := s.eout.length }))

/-- E.SAMP in every state (R116, R117): refused in FAULT, SeqFault in IDLE and when a byte is pending, IdxOverflow
when the byte it completes would open a chunk whose index does not fit, else the sample is encoded, packed and, when
its byte is complete, placed; nothing else changes. -/
def Obligations.EsampEncodesOneSampleOrFaults : Prop :=
  ∀ (sample : SampleWord) (s : State),
    (s.enc.st = .fault → exec (.eSamp sample) s = .next (answered (faultWord s.enc.fcode) s)) ∧
    (s.enc.st = .idle → exec (.eSamp sample) s = .next (faultedE 2#3 s)) ∧
    (s.enc.st = .active → s.enc.pend = true → exec (.eSamp sample) s = .next (faultedE 2#3 s)) ∧
    (s.enc.st = .active → s.enc.pend = false → s.enc.nbits = 7#3 → noIndexLeft s →
      exec (.eSamp sample) s = .next (faultedE 4#3 s)) ∧
    (s.enc.st = .active → s.enc.pend = false → ¬ (s.enc.nbits = 7#3 ∧ noIndexLeft s) →
      ∃ t, EncPushed s sample.toInt t ∧ exec (.eSamp sample) s = .next (answered 0#32 t))

/-- E.PCMB in every state (R175): refused in FAULT, SeqFault in IDLE, a low byte is held, a high byte completes the
sample 256 * hi + lo and pushes it, or raises IdxOverflow; nothing else changes. -/
def Obligations.EpcmbPairsBytesOrFaults : Prop :=
  ∀ (byte : Byte) (s : State),
    (s.enc.st = .fault → exec (.ePcmb byte) s = .next (answered (faultWord s.enc.fcode) s)) ∧
    (s.enc.st = .idle → exec (.ePcmb byte) s = .next (faultedE 2#3 s)) ∧
    (s.enc.st = .active → s.enc.pend = false →
      exec (.ePcmb byte) s = .next (answered 0#32 { s with enc := { s.enc with hold := byte, pend := true } })) ∧
    (s.enc.st = .active → s.enc.pend = true → s.enc.nbits = 7#3 → noIndexLeft s →
      exec (.ePcmb byte) s = .next (faultedE 4#3 s)) ∧
    (s.enc.st = .active → s.enc.pend = true → ¬ (s.enc.nbits = 7#3 ∧ noIndexLeft s) →
      ∃ t, EncPushed s (byte.toInt * 256 + s.enc.hold.toNat) t ∧
        exec (.ePcmb byte) s = .next (answered 0#32 { t with enc := { t.enc with hold := 0#8, pend := false } }))

/-- E.END in every state (R176): refused in FAULT, SeqFault in IDLE, IdxOverflow when the partial byte would open a
chunk whose index does not fit, else the partial byte goes out, the open chunk is closed and the stream is discarded.
-/
def Obligations.EendFlushesClosesAndDiscardsOrFaults : Prop :=
  ∀ s : State,
    (s.enc.st = .fault → exec .eEnd s = .next (answered (faultWord s.enc.fcode) s)) ∧
    (s.enc.st = .idle → exec .eEnd s = .next (faultedE 2#3 s)) ∧
    (s.enc.st = .active → s.enc.nbits ≠ 0#3 → noIndexLeft s → exec .eEnd s = .next (faultedE 4#3 s)) ∧
    (s.enc.st = .active → ¬ (s.enc.nbits ≠ 0#3 ∧ noIndexLeft s) →
      exec .eEnd s = .next (answered 0#32 (freshE .idle (closed (flushed s)))))

/-- Two low bytes, one effect: E.SAMP on two samples with the same high byte does the same thing (law R114, which the
spec derives from R100 and R55). -/
def Obligations.OnlyTheHighByteOfASampleMatters : Prop :=
  ∀ (hi lo lo' : Byte) (s : State), exec (.eSamp (hi ++ lo)) s = exec (.eSamp (hi ++ lo')) s

/-- A sample sent as its two bytes and the same sample sent whole leave the same machine, but for the number of
responses (R57, which the spec derives from R55, R116 and R175). -/
def Obligations.ByteFormAndSampleFormAgree : Prop :=
  ∀ (lo hi : Byte) (s : State), s.enc.st = .active → s.enc.pend = false → s.enc.hold = 0#8 →
    ¬ (s.enc.nbits = 7#3 ∧ noIndexLeft s) →
    ∃ t u, runCommands [.ePcmb lo, .ePcmb hi] s = some t ∧ runCommands [.eSamp (hi ++ lo)] s = some u ∧
      t.enc = u.enc ∧ t.dec = u.dec ∧ t.ill = u.ill ∧ t.eout = u.eout ∧ t.dout = u.dout

/-- An odd trailing byte is ignored by E.END: what it leaves and emits does not depend on `E.hold` and `E.pend` (R58,
R205). -/
def Obligations.OddTrailingByteLeavesNoTrace : Prop :=
  ∀ (s : State) (b : Byte) (p : Bool), s.enc.st = .active → ¬ (s.enc.nbits ≠ 0#3 ∧ noIndexLeft s) →
    ∃ t, exec .eEnd s = .next t ∧ exec .eEnd { s with enc := { s.enc with hold := b, pend := p } } = .next t ∧
      t.enc.st = .idle

/-! ## Decode side -/

/-- D.START and D.END in every state (R177, R178). -/
def Obligations.DstartAndDendOpenAndDiscardOrFault : Prop :=
  ∀ s : State,
    (s.dec.st = .fault → exec .dStart s = .next (answered (faultWord s.dec.fcode) s) ∧
      exec .dEnd s = .next (answered (faultWord s.dec.fcode) s)) ∧
    (s.dec.st = .active → exec .dStart s = .next (faultedD 2#3 s) ∧
      exec .dEnd s = .next (answered 0#32
        { s with dec := { s.dec with codec := { level := 0#8, resp := 0#6, last := false }, st := .idle } })) ∧
    (s.dec.st = .idle → exec .dEnd s = .next (faultedD 2#3 s) ∧
      exec .dStart s = .next (answered 0#32
        { s with dec := { s.dec with codec := { level := 0#8, resp := 0#6, last := false }, st := .active } }))

/-- D.BIT in every state (R118): refused in FAULT, SeqFault in IDLE, else one decode step and exactly one SAMP of 256
times the new level. -/
def Obligations.DbitDecodesOneBitOrFaults : Prop :=
  ∀ (bit : BitVec 1) (s : State),
    (s.dec.st = .fault → exec (.dBit bit) s = .next (answered (faultWord s.dec.fcode) s)) ∧
    (s.dec.st = .idle → exec (.dBit bit) s = .next (faultedD 2#3 s)) ∧
    (s.dec.st = .active → ∃ (cs' : CodecState) (v : SampleWord),
      CodecAfter s.dec.codec (decide (bit = 1#1)) cs' ∧ v.toInt = cs'.level.toInt * 256 ∧
      exec (.dBit bit) s =
        .next (answered 0#32 { s with dec := { s.dec with codec := cs' }, out := s.out ++ [.dout v] }))

/-- D.BYTE in every state (R136): refused in FAULT, SeqFault in IDLE, else the eight bits of the byte are decoded in
rising bit number, each from the state before it, and exactly eight SAMP go out. -/
def Obligations.DbyteDecodesEightBitsOrFaults : Prop :=
  ∀ (byte : Byte) (s : State),
    (s.dec.st = .fault → exec (.dByte byte) s = .next (answered (faultWord s.dec.fcode) s)) ∧
    (s.dec.st = .idle → exec (.dByte byte) s = .next (faultedD 2#3 s)) ∧
    (s.dec.st = .active → ∃ (cs' : CodecState) (outs : List SampleWord),
      DecodesTo s.dec.codec ((List.range 8).map fun k => byte.getLsbD k) outs cs' ∧ outs.length = 8 ∧
      exec (.dByte byte) s =
        .next (answered 0#32 { s with dec := { s.dec with codec := cs' }, out := s.out ++ outs.map .dout }))

/-- D.BYTE is the eight D.BIT of its bits in its effect on the registers and on DOUT (R136). -/
def Obligations.DbyteIsEightDbits : Prop :=
  ∀ (byte : Byte) (s : State), s.dec.st = .active →
    ∃ t u, exec (.dByte byte) s = .next t ∧
      runCommands ((List.range 8).map fun k => .dBit (byte.extractLsb' k 1)) s = some u ∧
      t.enc = u.enc ∧ t.dec = u.dec ∧ t.ill = u.ill ∧ t.dout = u.dout ∧ t.eout = u.eout

/-! ## Faults -/

/-- A side enters FAULT only by latching a code, which is reported, and nothing else changes: no other register, no
event (R207, R200). -/
def Obligations.FaultEntryChangesNothingButTheLatch : Prop :=
  ∀ (i : Instr) (s t : State), exec i s = .next t →
    (s.enc.st ≠ .fault → t.enc.st = .fault → ∃ c, (c = 1#3 ∨ c = 2#3 ∨ c = 4#3) ∧ t = faultedE c s) ∧
    (s.dec.st ≠ .fault → t.dec.st = .fault → t = faultedD 2#3 s)

/-- A side in FAULT answers every command but its read-back with the latched code and does nothing (R208). -/
def Obligations.SideInFaultOnlyRepeatsItsCode : Prop :=
  ∀ (i : Instr) (s : State),
    (isEncData i = true → s.enc.st = .fault → exec i s = .next (answered (faultWord s.enc.fcode) s)) ∧
    (isDecData i = true → s.dec.st = .fault → exec i s = .next (answered (faultWord s.dec.fcode) s))

/-- SeqFault in exactly the conditions R202 lists, for a side that is not in FAULT. -/
def Obligations.SeqFaultExactlyOutOfSequence : Prop :=
  ∀ (i : Instr) (s : State),
    (s.enc.st ≠ .fault → (exec i s = .next (faultedE 2#3 s) ↔
      (s.enc.st = .idle ∧ ((∃ v, i = .eSamp v) ∨ (∃ b, i = .ePcmb b) ∨ i = .eEnd)) ∨
      (s.enc.st = .active ∧ (i = .eStart ∨ ∃ n, i = .eCfg n)) ∨
      (s.enc.st = .active ∧ s.enc.pend = true ∧ ∃ v, i = .eSamp v))) ∧
    (s.dec.st ≠ .fault → (exec i s = .next (faultedD 2#3 s) ↔
      (s.dec.st = .idle ∧ ((∃ b, i = .dBit b) ∨ (∃ b, i = .dByte b) ∨ i = .dEnd)) ∨
      (s.dec.st = .active ∧ i = .dStart)))

/-- IdxOverflow in exactly the conditions R204 gives, evaluated on the state before the command. -/
def Obligations.IdxOverflowExactlyWhenNoIndexIsLeft : Prop :=
  ∀ (i : Instr) (s : State), s.enc.st ≠ .fault →
    (exec i s = .next (faultedE 4#3 s) ↔
      s.enc.st = .active ∧ noIndexLeft s ∧
        (((∃ v, i = .eSamp v) ∧ s.enc.pend = false ∧ s.enc.nbits = 7#3) ∨
         ((∃ b, i = .ePcmb b) ∧ s.enc.pend = true ∧ s.enc.nbits = 7#3) ∨
         (i = .eEnd ∧ s.enc.nbits ≠ 0#3)))

/-- In a state whose registers meet the invariant no step answers a code other than 0 to 4: "Values 5 to 15 never occur"
(R74). -/
def Obligations.ResponseCodesFiveAndUpNeverOccur : Prop :=
  ∀ s t : State, s.enc.Inv s.cfg → s.dec.Inv → step s = .next t →
    ∃ evs, t.out = s.out ++ evs ∧ ∀ rw, .rsp rw ∈ evs → rw.toNat / 2 ^ 28 ≤ 4

/-- Faults are sticky: a run of any number of steps without a reset that ends with neither side in FAULT and `ILL = 0`
has answered every command with code 0 (R209, R246). -/
def Obligations.RunThatEndsWithoutFaultHadNone : Prop :=
  ∀ (n : Nat) (s t : State), Sys2Proof.core.run n s = .next t → (∀ a ∈ s.cin.take n, isReset a = false) →
    t.enc.st ≠ .fault → t.dec.st ≠ .fault → t.ill = false →
    ∃ evs, t.out = s.out ++ evs ∧ ∀ rw, .rsp rw ∈ evs → rw.toNat / 2 ^ 28 = 0

/-! ## Whole-machine invariants and independence -/

/-- A step without a reset keeps a fault on record, and one that answers a code other than 0 puts one there (R209). -/
def Obligations.FaultAnswersStayOnRecord : Prop :=
  ∀ s t : State, step s = .next t → (∀ a ∈ s.cin.head?, isReset a = false) →
    (faultOnRecord s → faultOnRecord t) ∧
    ∃ evs, t.out = s.out ++ evs ∧ ∀ rw, .rsp rw ∈ evs → rw.toNat / 2 ^ 28 ≠ 0 → faultOnRecord t

/-- The invariant of R39 holds at reset (a law the spec derives; `IDX_W` is at its default there, log entry 1). -/
def Obligations.InvariantHoldsAtReset : Prop := State.reset.Inv

/-- Every step keeps the invariant of R39, from every state that meets it (a law the spec derives from its command
rules): the part that speaks of the registers alone is kept by itself, and with item 8's first half, "no byte has been
emitted in this stream", the whole is kept (where the stream begins is the model's field `eoutMark`, log entry 20). -/
def Obligations.EveryStepKeepsTheInvariant : Prop :=
  (∀ s t : State, s.enc.Inv s.cfg → s.dec.Inv → step s = .next t → t.enc.Inv t.cfg ∧ t.dec.Inv) ∧
  (∀ s t : State, s.Inv → step s = .next t → t.Inv)

/-- Every step keeps the count of the open stream's bytes and closed chunks that `E.pos` and `E.idx` stand for, and it
holds at reset (R29, R30 and law R155, which the spec derives from R154 and R135; where the stream begins is the model's
field `eoutMark`, log entry 20). -/
def Obligations.EveryStepKeepsThePositionCounts : Prop :=
  positionCounts State.reset ∧ ∀ s t : State, s.Inv → positionCounts s → step s = .next t → positionCounts t

/-- In a state whose encode side meets the invariant every EOUT event a step emits has its fields in the ranges of R75: chunks are
numbered from 1, positions are below `E.cb`, lengths are 1 to `E.cb`. -/
def Obligations.EmittedEventsAreInRange : Prop :=
  ∀ s t : State, s.enc.Inv s.cfg → step s = .next t →
    ∃ evs, t.out = s.out ++ evs ∧ ∀ ev, .eout ev ∈ evs → eventInRange s.cfg s.enc.cb.toNat ev

/-- How many events a command that completes emits (R68). -/
def Obligations.EventsPerCommand : Prop :=
  ∀ (i : Instr) (s t : State), exec i s = .next t →
    ∃ evs, t.out = s.out ++ evs ∧
      byteCount (evs.filterMap fun e => match e with | .eout ev => some ev | .dout _ => none | .rsp _ => none) ≤ 1 ∧
      cendCount (evs.filterMap fun e => match e with | .eout ev => some ev | .dout _ => none | .rsp _ => none) ≤ 1 ∧
      (evs.any isEout = true → (∃ v, i = .eSamp v) ∨ (∃ b, i = .ePcmb b) ∨ i = .eEnd) ∧
      (∀ b, i = .dBit b → s.dec.st = .active → evs.countP isDout = 1) ∧
      (∀ b, i = .dByte b → s.dec.st = .active → evs.countP isDout = 8) ∧
      (evs.any isDout = true → (∃ b, i = .dBit b) ∨ (∃ b, i = .dByte b))

/-- No register is shared between the sides (R20): a command of one side leaves the other side's registers, `ILL`, the
pending host actions and the other side's port as they were, and what it does to its own side and puts on the ports is
the same in two states that agree on that side (where its stream's events begin in the history, the model's `eoutMark`,
moves with E.START alone: log entry 20). -/
def Obligations.SidesShareNoRegister : Prop :=
  (∀ (i : Instr) (s s' : State), isEncSide i = true → s.enc = s'.enc → s.cfg = s'.cfg →
    ∃ t t' evs, exec i s = .next t ∧ exec i s' = .next t' ∧ t.enc = t'.enc ∧
      t = { s with enc := t.enc, out := s.out ++ evs, eoutMark := t.eoutMark } ∧
      t' = { s' with enc := t'.enc, out := s'.out ++ evs, eoutMark := t'.eoutMark } ∧
      (i ≠ .eStart → t.eoutMark = s.eoutMark ∧ t'.eoutMark = s'.eoutMark) ∧ evs.any isDout = false) ∧
  (∀ (i : Instr) (s s' : State), isDecSide i = true → s.dec = s'.dec →
    ∃ t t' evs, exec i s = .next t ∧ exec i s' = .next t' ∧ t.dec = t'.dec ∧
      t = { s with dec := t.dec, out := s.out ++ evs } ∧ t' = { s' with dec := t'.dec, out := s'.out ++ evs } ∧
      evs.any isEout = false)

/-- "a command to one side commutes with a command to the other side, apart from the order of their responses" (R18). -/
def Obligations.CommandsOfDifferentSidesCommute : Prop :=
  ∀ (i j : Instr) (s : State), isEncSide i = true → isDecSide j = true →
    ∃ t u ri rj, runCommands [i, j] s = some t ∧ runCommands [j, i] s = some u ∧
      t.enc = u.enc ∧ t.dec = u.dec ∧ t.ill = u.ill ∧ t.cin = u.cin ∧ t.cfg = u.cfg ∧ t.eoutMark = u.eoutMark ∧
      t.eout = u.eout ∧ t.dout = u.dout ∧
      t.responses = s.responses ++ [ri, rj] ∧ u.responses = s.responses ++ [rj, ri]

/-! ## The codec's laws -/

/-- Adapt stays in [0, 63] and moves by at most 1 (law R108, which the spec derives from R103 and R10). -/
def Obligations.AdaptStaysInRange : Prop :=
  ∀ (resp : Int) (bit last : Bool), 0 ≤ resp → resp ≤ 63 →
    0 ≤ adapt resp bit last ∧ adapt resp bit last ≤ 63 ∧
      adapt resp bit last - resp ≤ 1 ∧ resp - adapt resp bit last ≤ 1

/-- The prediction moves toward the target and never passes it, with floored steps (law R109, which the spec derives
from R104 and R9). Where R109 says that a downward move reaches the target "exactly when f = 64", its own definition
gives more cases (level -127 reaches -128 at every response, as spec/95_test_vectors.md B3 has it): the exact
condition is stated instead (log entry 18). -/
def Obligations.PredictionMovesTowardTheTarget : Prop :=
  ∀ level target resp : Int, 0 ≤ resp → resp ≤ 63 →
    (level ≤ target →
      level ≤ predict level target resp ∧ predict level target resp ≤ target ∧
      (predict level target resp = target ↔ resp = 63 ∨ target = level) ∧
      (predict level target resp = level ↔ (target - level) * (resp + 1) < 64)) ∧
    (target < level →
      target ≤ predict level target resp ∧ predict level target resp ≤ level - 1 ∧
      (predict level target resp = target ↔ (level - target) * (63 - resp) < 64))

/-- The registers lose nothing of the integer update rule: the new level, response and last bit are those of R102 to
R105 computed on integers, the response of step 5 being the new one (the spec's own reading D20, log entry 16), and
the level is in [-128, 127] (law R110, which the spec derives from R109 and R24; log entry 8). -/
def Obligations.UpdateIsExactOnTheRegisters : Prop :=
  ∀ (cs : CodecState) (bit : Bool), CodecAfter cs bit (update cs bit) ∧
    -128 ≤ nextLevel cs.level.toInt bit (nextResp cs.resp.toNat bit cs.last) ∧
    nextLevel cs.level.toInt bit (nextResp cs.resp.toNat bit cs.last) ≤ 127

/-- Widths of the intermediate values of the update (law R111, which the spec derives from R104 and R110). -/
def Obligations.IntermediateProductsFitSixteenBits : Prop :=
  ∀ (cs : CodecState) (bit : Bool),
    let d := target bit - sext cs.level
    let p := d * (adapt cs.resp.toNat bit cs.last + 1)
    (-255 ≤ d ∧ d ≤ 255) ∧ (-16320 ≤ p ∧ p ≤ 16320) ∧ (-255 ≤ asr p 6 ∧ asr p 6 ≤ 255)

/-- Stalls and one-way moves (law R115 a, c, d, which the spec derives from R104, R106 and R109; b where the level is
above -128, see log entry 18). -/
def Obligations.LevelStallsAndEscapes : Prop :=
  (∀ level resp : Int, level ≤ 127 → 0 ≤ resp → resp ≤ 63 →
    (level < predict level (target true) resp ↔ 64 ≤ (127 - level) * (resp + 1)) ∧
    predict level (target true) 63 = 127 ∧
    (-128 < level → predict level (target false) resp ≤ level - 1) ∧
    predict level (target false) 63 = -128) ∧
  (∀ (cs : CodecState) (sample : SampleWord),
    (cs.level = 127#8 → ((encStep cs sample.toInt).2 = true ↔ 32512 ≤ sample.toInt)) ∧
    (cs.level.toInt = -128 → (encStep cs sample.toInt).2 = true))

/-- Encoder and decoder run in lockstep (law R112, which the spec derives from R105 to R107): decoding the bits of an
encoding from the same state ends in the same CodecState, with 256 times the encoder's level after every sample as its
outputs. -/
def Obligations.EncoderAndDecoderRunInLockstep : Prop :=
  ∀ (cs : CodecState) (samples : List Int),
    (decSeq cs (encSeq cs samples).2).1 = (encSeq cs samples).1 ∧
    (decSeq cs (encSeq cs samples).2).2.length = samples.length ∧
    ∀ k, k < samples.length →
      ((decSeq cs (encSeq cs samples).2).2[k]?).map BitVec.toInt =
        some ((encSeq cs (samples.take (k + 1))).1.level.toInt * 256)

/-- Buffer-boundary invariance (law R113, which the spec derives from R106): bit k of an encoding is the decision on sample
k in the state after the k samples before it, the state after k + 1 samples is the one that decision leads to, and
encoding the sequence in two parts, the state carried forward, gives the same final state and the same bits. -/
def Obligations.SplittingTheSamplesChangesNothing : Prop :=
  ∀ (cs : CodecState) (samples : List Int),
    (encSeq cs (samples.take 0)).1 = cs ∧ (encSeq cs samples).2.length = samples.length ∧
    (∀ (k : Nat) (v : Int), samples[k]? = some v →
      (encSeq cs samples).2[k]? = some (decides (encSeq cs (samples.take k)).1 v) ∧
      CodecAfter (encSeq cs (samples.take k)).1 (decides (encSeq cs (samples.take k)).1 v)
        (encSeq cs (samples.take (k + 1))).1) ∧
    (∀ x y : List Int, samples = x ++ y →
      encSeq cs samples =
        ((encSeq (encSeq cs x).1 y).1, (encSeq cs x).2 ++ (encSeq (encSeq cs x).1 y).2))

/-! ## Packer, splitter and whole streams -/

/-- Packing in closed form (law R132, which the spec derives from R130 and R131): `ceil(N / 8)` bytes, and bit k of
byte j is decision 8j + k, or 0 past the end. -/
def Obligations.PackInClosedForm : Prop :=
  ∀ d : List Bool, (pack d).length = (d.length + 7) / 8 ∧
    ∀ j k : Nat, k < 8 → j < (pack d).length →
      ((pack d)[j]?).map (fun B => B.getLsbD k) = some ((d[8 * j + k]?).getD false)

/-- Packing and unpacking undo each other, up to the padding of the last byte (law R134, which the spec derives from
R132 and R133). -/
def Obligations.PackAndUnpackRoundTrip : Prop :=
  (∀ d : List Bool, (pack d).flatMap unpack = d ++ List.replicate ((8 - d.length % 8) % 8) false) ∧
  (∀ b : List Byte, pack (b.flatMap unpack) = b)

/-- The packer's invariant (law R135, which the spec derives from R130): after N pushes from (0, 0) the count is N mod
8 and the unused bits are 0. -/
def Obligations.PackerCountsModuloEight : Prop :=
  ∀ d : List Bool,
    let r := d.foldl (fun (p : Byte × BitVec 3) b => ((packPush p.1 p.2 b).1, (packPush p.1 p.2 b).2.1)) (0#8, 0#3)
    r.2.toNat = d.length % 8 ∧ ∀ k, r.2.toNat ≤ k → r.1.getLsbD k = false

/-- Chunk coverage (law R151, which the spec derives from R150; R59): `ceil(L / cb)` chunks, none empty, each of `cb`
bytes but possibly the last, together the whole stream, and byte n is byte n mod cb of chunk floor(n / cb) + 1. -/
def Obligations.ChunksCoverTheStream : Prop :=
  ∀ (bytes : List Byte) (cb : Nat), 0 < cb →
    (split bytes cb).length = chunkCount bytes.length cb ∧ (split bytes cb).flatten = bytes ∧
    (∀ i c, (split bytes cb)[i]? = some c →
      1 ≤ c.length ∧ c.length ≤ cb ∧ (i + 1 < (split bytes cb).length → c.length = cb)) ∧
    (∀ n b, bytes[n]? = some b → ∃ ch, (split bytes cb)[n / cb]? = some ch ∧ ch[n % cb]? = some b)

/-- The sequencer computes Split (law R154, which the spec derives from R150, R152 and R153): placing the bytes one by
one and closing emits, chunk by chunk, the bytes of `Split` and their CEND; after byte number n the index is floor(n /
cb) + 1 and the position (n + 1) mod cb. R154 says so where `ceil(L / cb) < 2^IDX_W`; for longer sequences the statement
rests on the model's choice to hold `E.idx` as a Nat (log entry 9). -/
def Obligations.SequencerComputesSplit : Prop :=
  ∀ (bytes : List Byte) (s : State), s.enc.pos = 0#23 → s.enc.idx = 0 → s.enc.cb ≠ 0#23 →
    (seqClose (bytes.foldl (fun t b => seqByte b t) s)).out =
        s.out ++ (chunkEvents 1 (split bytes s.enc.cb.toNat)).map .eout ∧
    (∀ n, n < bytes.length →
      ((bytes.take (n + 1)).foldl (fun t b => seqByte b t) s).enc.idx = n / s.enc.cb.toNat + 1 ∧
      ((bytes.take (n + 1)).foldl (fun t b => seqByte b t) s).enc.pos.toNat = (n + 1) % s.enc.cb.toNat)

/-- Stream position in terms of the sample count (law R155, which the spec derives from R154 and R135): after E.START
and N samples, `E.nbits = N mod 8`, with M = floor(N / 8) bytes out, `E.pos = M mod cb`, `E.idx = ceil(M / cb)`, and
floor(M / cb) chunks closed. -/
def Obligations.StreamPositionFollowsTheSampleCount : Prop :=
  ∀ (samples : List SampleWord) (s : State), s.enc.st = .idle → s.enc.cb ≠ 0#23 →
    chunkCount (samples.length / 8) s.enc.cb.toNat < 2 ^ s.cfg.idxW →
    ∃ t evs, runCommands (.eStart :: samples.map .eSamp) s = some t ∧
      t.enc.st = .active ∧ t.enc.nbits.toNat = samples.length % 8 ∧
      t.enc.pos.toNat = samples.length / 8 % s.enc.cb.toNat ∧
      t.enc.idx = chunkCount (samples.length / 8) s.enc.cb.toNat ∧
      t.eout = s.eout ++ evs ∧ byteCount evs = samples.length / 8 ∧
      cendCount evs = samples.length / 8 / s.enc.cb.toNat

/-- A whole encode stream computes the document's pipeline (law R179, which the spec derives from R173, R175 and
R176): E.START, any PCM bytes, E.END emit the events of the chunks of `Split` of `Pack` of the decisions on the
assembled samples, answer OK throughout, and leave the side IDLE; so does a stream of E.SAMP on its samples. -/
def Obligations.WholeEncodeStreamIsThePipeline : Prop :=
  (∀ (p : List Byte) (s : State), s.enc.st = .idle → s.enc.cb ≠ 0#23 →
    chunkCount (pack (encSeq CodecState.init (assemblePCM p)).2).length s.enc.cb.toNat < 2 ^ s.cfg.idxW →
    ∃ t, runCommands (.eStart :: p.map .ePcmb ++ [.eEnd]) s = some t ∧
      t.eout = s.eout ++
        chunkEvents 1 (split (pack (encSeq CodecState.init (assemblePCM p)).2) s.enc.cb.toNat) ∧
      t.responses = s.responses ++ List.replicate (p.length + 2) 0#32 ∧ t.enc.st = .idle ∧ t.enc.cb = s.enc.cb) ∧
  (∀ (v : List SampleWord) (s : State), s.enc.st = .idle → s.enc.cb ≠ 0#23 →
    chunkCount (pack (encSeq CodecState.init (v.map BitVec.toInt)).2).length s.enc.cb.toNat < 2 ^ s.cfg.idxW →
    ∃ t, runCommands (.eStart :: v.map .eSamp ++ [.eEnd]) s = some t ∧
      t.eout = s.eout ++
        chunkEvents 1 (split (pack (encSeq CodecState.init (v.map BitVec.toInt)).2) s.enc.cb.toNat) ∧
      t.responses = s.responses ++ List.replicate (v.length + 2) 0#32 ∧ t.enc.st = .idle ∧ t.enc.cb = s.enc.cb)

/-- A whole decode stream (law R181, which the spec derives from R177 and R178): D.START, any bytes, D.END emit the
outputs of decoding the unpacked bits from the initial CodecState, eight a byte, answer OK throughout, and leave the
side IDLE. -/
def Obligations.WholeDecodeStreamIsTheFold : Prop :=
  ∀ (b : List Byte) (s : State), s.dec.st = .idle →
    ∃ t outs cs', runCommands (.dStart :: b.map .dByte ++ [.dEnd]) s = some t ∧
      DecodesTo { level := 0#8, resp := 0#6, last := false } (b.flatMap unpack) outs cs' ∧
      outs.length = 8 * b.length ∧ t.dout = s.dout ++ outs ∧
      t.responses = s.responses ++ List.replicate (b.length + 2) 0#32 ∧ t.dec.st = .idle

/-! ## Event words -/

/-- The EOUT event word (R75): its fields read back from its bits, for an index the counter holds. -/
def Obligations.EoutWordHoldsItsFields : Prop :=
  ∀ (c : Config) (idx : Nat) (pl : BitVec 23) (data : Byte), idx < 2 ^ c.idxW →
    (let w := (eoutWord c (.byte idx pl data)).toNat
     w / 2 ^ (31 + c.idxW) = 0 ∧ w / 2 ^ 31 % 2 ^ c.idxW = idx ∧ w / 2 ^ 8 % 2 ^ 23 = pl.toNat ∧ w % 2 ^ 8 = data.toNat) ∧
    (let w := (eoutWord c (.cend idx pl)).toNat
     w / 2 ^ (31 + c.idxW) = 1 ∧ w / 2 ^ 31 % 2 ^ c.idxW = idx ∧ w / 2 ^ 8 % 2 ^ 23 = pl.toNat ∧ w % 2 ^ 8 = 0)

/-- A SAMP word is 256 times the level, fits 16 bits, and its low 8 bits are 0 (R53, R76, R107). -/
def Obligations.SampWordIsTheLevelShiftedUp : Prop :=
  ∀ cs : CodecState, (reconstruct cs).toInt = cs.level.toInt * 256 ∧
    (reconstruct cs).extractLsb' 0 8 = 0#8 ∧ (reconstruct cs).extractLsb' 8 8 = cs.level ∧
    -32768 ≤ cs.level.toInt * 256 ∧ cs.level.toInt * 256 ≤ 32512
end

