-- ==== Sys2Proof/Laws/Codec.lean ====
section
/-!
SUPPORT. The codec's notation brought down to the standard library's arithmetic: sign extension is `BitVec.toInt`, the
arithmetic right shift is floor division, and a number in a register's range survives being narrowed to it.
-/

namespace Sys2Proof.Machine

/-- `sext_N` is the two's-complement reading. -/
@[simp] theorem sext_eq_toInt {n : Nat} (v : BitVec n) : sext v = v.toInt := by
  rw [sext, BitVec.toInt_eq_msb_cond]
  rfl

/-- `asr` is division by a power of two that rounds down. -/
theorem asr_eq_ediv (v : Int) (n : Nat) : asr v n = v / 2 ^ n := by
  rw [asr, Int.fdiv_eq_ediv_of_nonneg _ (by positivity)]

/-- `asr` is the floor of the rational quotient (spec/00_scope.md R9). -/
theorem asr_eq_floor (v : Int) (n : Nat) : asr v n = ⌊(v : ℚ) / 2 ^ n⌋ := by
  rw [asr_eq_ediv]
  have := Rat.floor_intCast_div_natCast v (2 ^ n)
  push_cast at this
  exact this.symm

theorem clamp_le {x lo hi : Int} (h : lo ≤ hi) : clamp x lo hi ≤ hi := by unfold clamp; split_ifs <;> omega

theorem le_clamp {x lo hi : Int} (h : lo ≤ hi) : lo ≤ clamp x lo hi := by unfold clamp; split_ifs <;> omega

/-- `sext_N(tc_N(i)) = i` for i in intN (spec/00_scope.md R11), at the width of the level register. -/
theorem toInt_tc_eight {i : Int} (hlo : -128 ≤ i) (hhi : i ≤ 127) : (tc 8 i).toInt = i := by
  rw [tc, BitVec.toInt_ofInt]
  exact Int.bmod_eq_of_le (by norm_num; omega) (by norm_num; omega)

/-- A number in [0, 63] survives the response register. -/
theorem toNat_tc_six {i : Int} (hlo : 0 ≤ i) (hhi : i ≤ 63) : ((tc 6 i).toNat : Int) = i := by
  rw [tc, BitVec.toNat_ofInt]
  have h : i % (2 ^ 6 : Nat) = i := Int.emod_eq_of_lt hlo (by norm_num; omega)
  rw [h]
  exact Int.toNat_of_nonneg hlo

@[simp] theorem unpack_length (b : Byte) : (unpack b).length = 8 := rfl

theorem encSeq_nil (cs : CodecState) : encSeq cs [] = (cs, []) := rfl

theorem decSeq_nil (cs : CodecState) : decSeq cs [] = (cs, []) := rfl

/-- A decision sequence is as long as the sample sequence. -/
theorem encSeq_length (cs : CodecState) (ss : List Int) : (encSeq cs ss).2.length = ss.length := by
  induction ss generalizing cs with
  | nil => rfl
  | cons s ss ih => simp [encSeq, ih]

end Sys2Proof.Machine
end

