-- ==== Sys2Proof/Laws/State.lean ====
section
/-!
SUPPORT. What each named operation does to each field of State, one lemma per field per operation, all true by definition,
and what the ports do to the EOUT history.
A proof about an operation cites these and unfolds no record update.
-/

namespace Sys2Proof.Machine

@[simp] theorem emitEout_cfg (ev : EoutEvent) (s : State) : (emitEout ev s).cfg = s.cfg := rfl
@[simp] theorem emitEout_enc (ev : EoutEvent) (s : State) : (emitEout ev s).enc = s.enc := rfl
@[simp] theorem emitEout_dec (ev : EoutEvent) (s : State) : (emitEout ev s).dec = s.dec := rfl
@[simp] theorem emitEout_ill (ev : EoutEvent) (s : State) : (emitEout ev s).ill = s.ill := rfl
@[simp] theorem emitEout_cin (ev : EoutEvent) (s : State) : (emitEout ev s).cin = s.cin := rfl
@[simp] theorem emitEout_out (ev : EoutEvent) (s : State) : (emitEout ev s).out = s.out ++ [.eout ev] := rfl
@[simp] theorem emitEout_eoutMark (ev : EoutEvent) (s : State) : (emitEout ev s).eoutMark = s.eoutMark := rfl

@[simp] theorem emitDout_cfg (v : SampleWord) (s : State) : (emitDout v s).cfg = s.cfg := rfl
@[simp] theorem emitDout_enc (v : SampleWord) (s : State) : (emitDout v s).enc = s.enc := rfl
@[simp] theorem emitDout_dec (v : SampleWord) (s : State) : (emitDout v s).dec = s.dec := rfl
@[simp] theorem emitDout_ill (v : SampleWord) (s : State) : (emitDout v s).ill = s.ill := rfl
@[simp] theorem emitDout_cin (v : SampleWord) (s : State) : (emitDout v s).cin = s.cin := rfl
@[simp] theorem emitDout_out (v : SampleWord) (s : State) : (emitDout v s).out = s.out ++ [.dout v] := rfl
@[simp] theorem emitDout_eoutMark (v : SampleWord) (s : State) : (emitDout v s).eoutMark = s.eoutMark := rfl

@[simp] theorem respond_cfg (c : BitVec 4) (d : BitVec 28) (s : State) : (respond c d s).cfg = s.cfg := rfl
@[simp] theorem respond_enc (c : BitVec 4) (d : BitVec 28) (s : State) : (respond c d s).enc = s.enc := rfl
@[simp] theorem respond_dec (c : BitVec 4) (d : BitVec 28) (s : State) : (respond c d s).dec = s.dec := rfl
@[simp] theorem respond_ill (c : BitVec 4) (d : BitVec 28) (s : State) : (respond c d s).ill = s.ill := rfl
@[simp] theorem respond_cin (c : BitVec 4) (d : BitVec 28) (s : State) : (respond c d s).cin = s.cin := rfl
@[simp] theorem respond_out (c : BitVec 4) (d : BitVec 28) (s : State) :
    (respond c d s).out = s.out ++ [.rsp (responseWord c d)] := rfl
@[simp] theorem respond_eoutMark (c : BitVec 4) (d : BitVec 28) (s : State) :
    (respond c d s).eoutMark = s.eoutMark := rfl

@[simp] theorem respondOk_cfg (d : BitVec 28) (s : State) : (respondOk d s).cfg = s.cfg := rfl
@[simp] theorem respondOk_enc (d : BitVec 28) (s : State) : (respondOk d s).enc = s.enc := rfl
@[simp] theorem respondOk_dec (d : BitVec 28) (s : State) : (respondOk d s).dec = s.dec := rfl
@[simp] theorem respondOk_ill (d : BitVec 28) (s : State) : (respondOk d s).ill = s.ill := rfl
@[simp] theorem respondOk_cin (d : BitVec 28) (s : State) : (respondOk d s).cin = s.cin := rfl
@[simp] theorem respondOk_out (d : BitVec 28) (s : State) :
    (respondOk d s).out = s.out ++ [.rsp (responseWord 0#4 d)] := rfl
@[simp] theorem respondOk_eoutMark (d : BitVec 28) (s : State) : (respondOk d s).eoutMark = s.eoutMark := rfl

@[simp] theorem respondFault_cfg (c : BitVec 3) (s : State) : (respondFault c s).cfg = s.cfg := rfl
@[simp] theorem respondFault_enc (c : BitVec 3) (s : State) : (respondFault c s).enc = s.enc := rfl
@[simp] theorem respondFault_dec (c : BitVec 3) (s : State) : (respondFault c s).dec = s.dec := rfl
@[simp] theorem respondFault_ill (c : BitVec 3) (s : State) : (respondFault c s).ill = s.ill := rfl
@[simp] theorem respondFault_cin (c : BitVec 3) (s : State) : (respondFault c s).cin = s.cin := rfl
@[simp] theorem respondFault_out (c : BitVec 3) (s : State) :
    (respondFault c s).out = s.out ++ [.rsp (responseWord (c.setWidth 4) 0#28)] := rfl
@[simp] theorem respondFault_eoutMark (c : BitVec 3) (s : State) : (respondFault c s).eoutMark = s.eoutMark := rfl

@[simp] theorem presentAction_cfg (a : HostAction) (s : State) : (presentAction a s).cfg = s.cfg := rfl
@[simp] theorem presentAction_enc (a : HostAction) (s : State) : (presentAction a s).enc = s.enc := rfl
@[simp] theorem presentAction_dec (a : HostAction) (s : State) : (presentAction a s).dec = s.dec := rfl
@[simp] theorem presentAction_ill (a : HostAction) (s : State) : (presentAction a s).ill = s.ill := rfl
@[simp] theorem presentAction_cin (a : HostAction) (s : State) : (presentAction a s).cin = a :: s.cin := rfl
@[simp] theorem presentAction_out (a : HostAction) (s : State) : (presentAction a s).out = s.out := rfl
@[simp] theorem presentAction_eoutMark (a : HostAction) (s : State) : (presentAction a s).eoutMark = s.eoutMark := rfl

@[simp] theorem markStream_cfg (s : State) : (markStream s).cfg = s.cfg := rfl
@[simp] theorem markStream_enc (s : State) : (markStream s).enc = s.enc := rfl
@[simp] theorem markStream_dec (s : State) : (markStream s).dec = s.dec := rfl
@[simp] theorem markStream_ill (s : State) : (markStream s).ill = s.ill := rfl
@[simp] theorem markStream_cin (s : State) : (markStream s).cin = s.cin := rfl
@[simp] theorem markStream_out (s : State) : (markStream s).out = s.out := rfl
@[simp] theorem markStream_eoutMark (s : State) : (markStream s).eoutMark = s.eout.length := rfl

@[simp] theorem setEncCodec_cfg (cs : CodecState) (s : State) : (setEncCodec cs s).cfg = s.cfg := rfl
@[simp] theorem setEncCodec_enc (cs : CodecState) (s : State) :
    (setEncCodec cs s).enc = { s.enc with codec := cs } := rfl
@[simp] theorem setEncCodec_dec (cs : CodecState) (s : State) : (setEncCodec cs s).dec = s.dec := rfl
@[simp] theorem setEncCodec_ill (cs : CodecState) (s : State) : (setEncCodec cs s).ill = s.ill := rfl
@[simp] theorem setEncCodec_cin (cs : CodecState) (s : State) : (setEncCodec cs s).cin = s.cin := rfl
@[simp] theorem setEncCodec_out (cs : CodecState) (s : State) : (setEncCodec cs s).out = s.out := rfl
@[simp] theorem setEncCodec_eoutMark (cs : CodecState) (s : State) : (setEncCodec cs s).eoutMark = s.eoutMark := rfl

@[simp] theorem setPending_cfg (b : Byte) (p : Bool) (s : State) : (setPending b p s).cfg = s.cfg := rfl
@[simp] theorem setPending_enc (b : Byte) (p : Bool) (s : State) :
    (setPending b p s).enc = { s.enc with hold := b, pend := p } := rfl
@[simp] theorem setPending_dec (b : Byte) (p : Bool) (s : State) : (setPending b p s).dec = s.dec := rfl
@[simp] theorem setPending_ill (b : Byte) (p : Bool) (s : State) : (setPending b p s).ill = s.ill := rfl
@[simp] theorem setPending_cin (b : Byte) (p : Bool) (s : State) : (setPending b p s).cin = s.cin := rfl
@[simp] theorem setPending_out (b : Byte) (p : Bool) (s : State) : (setPending b p s).out = s.out := rfl
@[simp] theorem setPending_eoutMark (b : Byte) (p : Bool) (s : State) : (setPending b p s).eoutMark = s.eoutMark := rfl

@[simp] theorem setPacker_cfg (acc : Byte) (n : BitVec 3) (s : State) : (setPacker acc n s).cfg = s.cfg := rfl
@[simp] theorem setPacker_enc (acc : Byte) (n : BitVec 3) (s : State) :
    (setPacker acc n s).enc = { s.enc with acc := acc, nbits := n } := rfl
@[simp] theorem setPacker_dec (acc : Byte) (n : BitVec 3) (s : State) : (setPacker acc n s).dec = s.dec := rfl
@[simp] theorem setPacker_ill (acc : Byte) (n : BitVec 3) (s : State) : (setPacker acc n s).ill = s.ill := rfl
@[simp] theorem setPacker_cin (acc : Byte) (n : BitVec 3) (s : State) : (setPacker acc n s).cin = s.cin := rfl
@[simp] theorem setPacker_out (acc : Byte) (n : BitVec 3) (s : State) : (setPacker acc n s).out = s.out := rfl
@[simp] theorem setPacker_eoutMark (acc : Byte) (n : BitVec 3) (s : State) :
    (setPacker acc n s).eoutMark = s.eoutMark := rfl

@[simp] theorem setChunkBytes_cfg (cb : BitVec 23) (s : State) : (setChunkBytes cb s).cfg = s.cfg := rfl
@[simp] theorem setChunkBytes_enc (cb : BitVec 23) (s : State) :
    (setChunkBytes cb s).enc = { s.enc with cb := cb } := rfl
@[simp] theorem setChunkBytes_dec (cb : BitVec 23) (s : State) : (setChunkBytes cb s).dec = s.dec := rfl
@[simp] theorem setChunkBytes_ill (cb : BitVec 23) (s : State) : (setChunkBytes cb s).ill = s.ill := rfl
@[simp] theorem setChunkBytes_cin (cb : BitVec 23) (s : State) : (setChunkBytes cb s).cin = s.cin := rfl
@[simp] theorem setChunkBytes_out (cb : BitVec 23) (s : State) : (setChunkBytes cb s).out = s.out := rfl
@[simp] theorem setChunkBytes_eoutMark (cb : BitVec 23) (s : State) : (setChunkBytes cb s).eoutMark = s.eoutMark := rfl

@[simp] theorem setPos_cfg (pos : BitVec 23) (s : State) : (setPos pos s).cfg = s.cfg := rfl
@[simp] theorem setPos_enc (pos : BitVec 23) (s : State) : (setPos pos s).enc = { s.enc with pos := pos } := rfl
@[simp] theorem setPos_dec (pos : BitVec 23) (s : State) : (setPos pos s).dec = s.dec := rfl
@[simp] theorem setPos_ill (pos : BitVec 23) (s : State) : (setPos pos s).ill = s.ill := rfl
@[simp] theorem setPos_cin (pos : BitVec 23) (s : State) : (setPos pos s).cin = s.cin := rfl
@[simp] theorem setPos_out (pos : BitVec 23) (s : State) : (setPos pos s).out = s.out := rfl
@[simp] theorem setPos_eoutMark (pos : BitVec 23) (s : State) : (setPos pos s).eoutMark = s.eoutMark := rfl

@[simp] theorem setIdx_cfg (idx : Nat) (s : State) : (setIdx idx s).cfg = s.cfg := rfl
@[simp] theorem setIdx_enc (idx : Nat) (s : State) : (setIdx idx s).enc = { s.enc with idx := idx } := rfl
@[simp] theorem setIdx_dec (idx : Nat) (s : State) : (setIdx idx s).dec = s.dec := rfl
@[simp] theorem setIdx_ill (idx : Nat) (s : State) : (setIdx idx s).ill = s.ill := rfl
@[simp] theorem setIdx_cin (idx : Nat) (s : State) : (setIdx idx s).cin = s.cin := rfl
@[simp] theorem setIdx_out (idx : Nat) (s : State) : (setIdx idx s).out = s.out := rfl
@[simp] theorem setIdx_eoutMark (idx : Nat) (s : State) : (setIdx idx s).eoutMark = s.eoutMark := rfl

@[simp] theorem setEncSt_cfg (st : StreamState) (s : State) : (setEncSt st s).cfg = s.cfg := rfl
@[simp] theorem setEncSt_enc (st : StreamState) (s : State) : (setEncSt st s).enc = { s.enc with st := st } := rfl
@[simp] theorem setEncSt_dec (st : StreamState) (s : State) : (setEncSt st s).dec = s.dec := rfl
@[simp] theorem setEncSt_ill (st : StreamState) (s : State) : (setEncSt st s).ill = s.ill := rfl
@[simp] theorem setEncSt_cin (st : StreamState) (s : State) : (setEncSt st s).cin = s.cin := rfl
@[simp] theorem setEncSt_out (st : StreamState) (s : State) : (setEncSt st s).out = s.out := rfl
@[simp] theorem setEncSt_eoutMark (st : StreamState) (s : State) : (setEncSt st s).eoutMark = s.eoutMark := rfl

@[simp] theorem setDecCodec_cfg (cs : CodecState) (s : State) : (setDecCodec cs s).cfg = s.cfg := rfl
@[simp] theorem setDecCodec_enc (cs : CodecState) (s : State) : (setDecCodec cs s).enc = s.enc := rfl
@[simp] theorem setDecCodec_dec (cs : CodecState) (s : State) :
    (setDecCodec cs s).dec = { s.dec with codec := cs } := rfl
@[simp] theorem setDecCodec_ill (cs : CodecState) (s : State) : (setDecCodec cs s).ill = s.ill := rfl
@[simp] theorem setDecCodec_cin (cs : CodecState) (s : State) : (setDecCodec cs s).cin = s.cin := rfl
@[simp] theorem setDecCodec_out (cs : CodecState) (s : State) : (setDecCodec cs s).out = s.out := rfl
@[simp] theorem setDecCodec_eoutMark (cs : CodecState) (s : State) : (setDecCodec cs s).eoutMark = s.eoutMark := rfl

@[simp] theorem setDecSt_cfg (st : StreamState) (s : State) : (setDecSt st s).cfg = s.cfg := rfl
@[simp] theorem setDecSt_enc (st : StreamState) (s : State) : (setDecSt st s).enc = s.enc := rfl
@[simp] theorem setDecSt_dec (st : StreamState) (s : State) : (setDecSt st s).dec = { s.dec with st := st } := rfl
@[simp] theorem setDecSt_ill (st : StreamState) (s : State) : (setDecSt st s).ill = s.ill := rfl
@[simp] theorem setDecSt_cin (st : StreamState) (s : State) : (setDecSt st s).cin = s.cin := rfl
@[simp] theorem setDecSt_out (st : StreamState) (s : State) : (setDecSt st s).out = s.out := rfl
@[simp] theorem setDecSt_eoutMark (st : StreamState) (s : State) : (setDecSt st s).eoutMark = s.eoutMark := rfl

@[simp] theorem clearEncStream_cfg (s : State) : (clearEncStream s).cfg = s.cfg := rfl
@[simp] theorem clearEncStream_enc (s : State) :
    (clearEncStream s).enc = { s.enc with codec := CodecState.init, hold := 0#8, pend := false, acc := 0#8, nbits := 0#3, pos := 0#23, idx := 0 } := rfl
@[simp] theorem clearEncStream_dec (s : State) : (clearEncStream s).dec = s.dec := rfl
@[simp] theorem clearEncStream_ill (s : State) : (clearEncStream s).ill = s.ill := rfl
@[simp] theorem clearEncStream_cin (s : State) : (clearEncStream s).cin = s.cin := rfl
@[simp] theorem clearEncStream_out (s : State) : (clearEncStream s).out = s.out := rfl
@[simp] theorem clearEncStream_eoutMark (s : State) : (clearEncStream s).eoutMark = s.eoutMark := rfl

@[simp] theorem raiseEnc_cfg (f : FaultKind) (s : State) : (raiseEnc f s).cfg = s.cfg := rfl
@[simp] theorem raiseEnc_enc (f : FaultKind) (s : State) :
    (raiseEnc f s).enc = { s.enc with st := .fault, fcode := faultCode f } := rfl
@[simp] theorem raiseEnc_dec (f : FaultKind) (s : State) : (raiseEnc f s).dec = s.dec := rfl
@[simp] theorem raiseEnc_ill (f : FaultKind) (s : State) : (raiseEnc f s).ill = s.ill := rfl
@[simp] theorem raiseEnc_cin (f : FaultKind) (s : State) : (raiseEnc f s).cin = s.cin := rfl
@[simp] theorem raiseEnc_out (f : FaultKind) (s : State) :
    (raiseEnc f s).out = s.out ++ [.rsp (responseWord ((faultCode f).setWidth 4) 0#28)] := rfl
@[simp] theorem raiseEnc_eoutMark (f : FaultKind) (s : State) : (raiseEnc f s).eoutMark = s.eoutMark := rfl

@[simp] theorem raiseDec_cfg (f : FaultKind) (s : State) : (raiseDec f s).cfg = s.cfg := rfl
@[simp] theorem raiseDec_enc (f : FaultKind) (s : State) : (raiseDec f s).enc = s.enc := rfl
@[simp] theorem raiseDec_dec (f : FaultKind) (s : State) :
    (raiseDec f s).dec = { s.dec with st := .fault, fcode := faultCode f } := rfl
@[simp] theorem raiseDec_ill (f : FaultKind) (s : State) : (raiseDec f s).ill = s.ill := rfl
@[simp] theorem raiseDec_cin (f : FaultKind) (s : State) : (raiseDec f s).cin = s.cin := rfl
@[simp] theorem raiseDec_out (f : FaultKind) (s : State) :
    (raiseDec f s).out = s.out ++ [.rsp (responseWord ((faultCode f).setWidth 4) 0#28)] := rfl
@[simp] theorem raiseDec_eoutMark (f : FaultKind) (s : State) : (raiseDec f s).eoutMark = s.eoutMark := rfl

@[simp] theorem refuseEnc_cfg (s : State) : (refuseEnc s).cfg = s.cfg := rfl
@[simp] theorem refuseEnc_enc (s : State) : (refuseEnc s).enc = s.enc := rfl
@[simp] theorem refuseEnc_dec (s : State) : (refuseEnc s).dec = s.dec := rfl
@[simp] theorem refuseEnc_ill (s : State) : (refuseEnc s).ill = s.ill := rfl
@[simp] theorem refuseEnc_cin (s : State) : (refuseEnc s).cin = s.cin := rfl
@[simp] theorem refuseEnc_out (s : State) :
    (refuseEnc s).out = s.out ++ [.rsp (responseWord (s.enc.fcode.setWidth 4) 0#28)] := rfl
@[simp] theorem refuseEnc_eoutMark (s : State) : (refuseEnc s).eoutMark = s.eoutMark := rfl

@[simp] theorem refuseDec_cfg (s : State) : (refuseDec s).cfg = s.cfg := rfl
@[simp] theorem refuseDec_enc (s : State) : (refuseDec s).enc = s.enc := rfl
@[simp] theorem refuseDec_dec (s : State) : (refuseDec s).dec = s.dec := rfl
@[simp] theorem refuseDec_ill (s : State) : (refuseDec s).ill = s.ill := rfl
@[simp] theorem refuseDec_cin (s : State) : (refuseDec s).cin = s.cin := rfl
@[simp] theorem refuseDec_out (s : State) :
    (refuseDec s).out = s.out ++ [.rsp (responseWord (s.dec.fcode.setWidth 4) 0#28)] := rfl
@[simp] theorem refuseDec_eoutMark (s : State) : (refuseDec s).eoutMark = s.eoutMark := rfl

@[simp] theorem raiseIllegal_cfg (s : State) : (raiseIllegal s).cfg = s.cfg := rfl
@[simp] theorem raiseIllegal_enc (s : State) : (raiseIllegal s).enc = s.enc := rfl
@[simp] theorem raiseIllegal_dec (s : State) : (raiseIllegal s).dec = s.dec := rfl
@[simp] theorem raiseIllegal_ill (s : State) : (raiseIllegal s).ill = true := rfl
@[simp] theorem raiseIllegal_cin (s : State) : (raiseIllegal s).cin = s.cin := rfl
@[simp] theorem raiseIllegal_out (s : State) : (raiseIllegal s).out = s.out ++ [.rsp (responseWord 3#4 0#28)] := rfl
@[simp] theorem raiseIllegal_eoutMark (s : State) : (raiseIllegal s).eoutMark = s.eoutMark := rfl

@[simp] theorem resetRegisters_cfg (s : State) : (resetRegisters s).cfg = s.cfg := rfl
@[simp] theorem resetRegisters_enc (s : State) : (resetRegisters s).enc = EncRegs.reset := rfl
@[simp] theorem resetRegisters_dec (s : State) : (resetRegisters s).dec = DecRegs.reset := rfl
@[simp] theorem resetRegisters_ill (s : State) : (resetRegisters s).ill = false := rfl
@[simp] theorem resetRegisters_cin (s : State) : (resetRegisters s).cin = s.cin := rfl
@[simp] theorem resetRegisters_out (s : State) : (resetRegisters s).out = s.out := rfl
@[simp] theorem resetRegisters_eoutMark (s : State) : (resetRegisters s).eoutMark = s.eoutMark := rfl

@[simp] theorem hardwareReset_cfg (s : State) : (hardwareReset s).cfg = s.cfg := rfl
@[simp] theorem hardwareReset_enc (s : State) : (hardwareReset s).enc = EncRegs.reset := rfl
@[simp] theorem hardwareReset_dec (s : State) : (hardwareReset s).dec = DecRegs.reset := rfl
@[simp] theorem hardwareReset_ill (s : State) : (hardwareReset s).ill = false := rfl
@[simp] theorem hardwareReset_cin (s : State) : (hardwareReset s).cin = s.cin := rfl
@[simp] theorem hardwareReset_out (s : State) : (hardwareReset s).out = s.out := rfl
@[simp] theorem hardwareReset_eoutMark (s : State) : (hardwareReset s).eoutMark = s.eoutMark := rfl

@[simp] theorem decPush_cfg (b : Bool) (s : State) : (decPush b s).cfg = s.cfg := rfl
@[simp] theorem decPush_enc (b : Bool) (s : State) : (decPush b s).enc = s.enc := rfl
@[simp] theorem decPush_dec (b : Bool) (s : State) :
    (decPush b s).dec = { s.dec with codec := update s.dec.codec b } := rfl
@[simp] theorem decPush_ill (b : Bool) (s : State) : (decPush b s).ill = s.ill := rfl
@[simp] theorem decPush_cin (b : Bool) (s : State) : (decPush b s).cin = s.cin := rfl
@[simp] theorem decPush_out (b : Bool) (s : State) :
    (decPush b s).out = s.out ++ [.dout (reconstruct (update s.dec.codec b))] := rfl
@[simp] theorem decPush_eoutMark (b : Bool) (s : State) : (decPush b s).eoutMark = s.eoutMark := rfl

/-! ### The EOUT history -/

@[simp] theorem emitEout_eout (ev : EoutEvent) (s : State) : (emitEout ev s).eout = s.eout ++ [ev] := by
  simp [State.eout]

@[simp] theorem emitDout_eout (v : SampleWord) (s : State) : (emitDout v s).eout = s.eout := by simp [State.eout]

@[simp] theorem respond_eout (c : BitVec 4) (d : BitVec 28) (s : State) : (respond c d s).eout = s.eout := by
  simp [State.eout]

/-- A stream that has just been opened has emitted nothing. -/
@[simp] theorem markStream_streamEvents (s : State) : (markStream s).streamEvents = [] :=
  List.drop_length

/-- An event that goes out joins those of the open stream. -/
theorem emitEout_streamEvents {s : State} (ev : EoutEvent) (h : s.eoutMark ≤ s.eout.length) :
    (emitEout ev s).streamEvents = s.streamEvents ++ [ev] := by
  simp [State.streamEvents, List.drop_append_of_le_length h]

@[simp] theorem respond_streamEvents (c : BitVec 4) (d : BitVec 28) (s : State) :
    (respond c d s).streamEvents = s.streamEvents := by simp [State.streamEvents]

end Sys2Proof.Machine
end

