-- ==== Sys2Proof/Laws/Ops.lean ====
section
/-!
SUPPORT. What each shared operation can do, said once: the frames of a command, the packer, the sequencer, the encode push
and the step. Proofs about commands cite these instead of unfolding the operations.
-/

namespace Sys2Proof.Machine

/-! ### The frames of a command -/

/-- Every outcome of an E command: refused in FAULT, out of sequence, completed, or a fault of its body. -/
theorem encCommand_cases {need : StreamState} {body : Except FaultKind State} {s t : State}
    (h : encCommand need body s = .next t) :
    (s.enc.st = .fault ∧ t = refuseEnc s) ∨
    (s.enc.st ≠ .fault ∧ s.enc.st ≠ need ∧ t = raiseEnc .seqFault s) ∨
    (s.enc.st ≠ .fault ∧ s.enc.st = need ∧ ∃ s', body = .ok s' ∧ t = respondOk 0#28 s') ∨
    (s.enc.st ≠ .fault ∧ s.enc.st = need ∧ ∃ f, body = .error f ∧ t = raiseEnc f s) := by
  unfold encCommand at h
  split at h
  · exact .inl ⟨‹_›, by simpa using h.symm⟩
  · split at h
    · exact .inr (.inl ⟨‹_›, ‹_›, by simpa using h.symm⟩)
    · have hn : s.enc.st = need := by simpa using ‹¬ s.enc.st ≠ need›
      cases body with
      | ok s' => exact .inr (.inr (.inl ⟨‹_›, hn, s', rfl, by simpa using h.symm⟩))
      | error f => exact .inr (.inr (.inr ⟨‹_›, hn, f, rfl, by simpa using h.symm⟩))

theorem encCommand_fault {need : StreamState} {body : Except FaultKind State} {s : State} (h : s.enc.st = .fault) :
    encCommand need body s = .next (refuseEnc s) := by simp [encCommand, h]

theorem encCommand_outOfSequence {need : StreamState} {body : Except FaultKind State} {s : State}
    (hf : s.enc.st ≠ .fault) (hn : s.enc.st ≠ need) : encCommand need body s = .next (raiseEnc .seqFault s) := by
  simp [encCommand, hf, hn]

theorem encCommand_ok {need : StreamState} {s s' : State} (hf : s.enc.st ≠ .fault) (hn : s.enc.st = need) :
    encCommand need (.ok s') s = .next (respondOk 0#28 s') := by
  subst hn
  simp [encCommand, hf]

theorem encCommand_error {need : StreamState} {f : FaultKind} {s : State} (hf : s.enc.st ≠ .fault)
    (hn : s.enc.st = need) : encCommand need (.error f) s = .next (raiseEnc f s) := by
  subst hn
  simp [encCommand, hf]

/-- Every outcome of a D command: refused in FAULT, out of sequence, or completed. -/
theorem decCommand_cases {need : StreamState} {body s t : State} (h : decCommand need body s = .next t) :
    (s.dec.st = .fault ∧ t = refuseDec s) ∨
    (s.dec.st ≠ .fault ∧ s.dec.st ≠ need ∧ t = raiseDec .seqFault s) ∨
    (s.dec.st ≠ .fault ∧ s.dec.st = need ∧ t = respondOk 0#28 body) := by
  unfold decCommand at h
  split at h
  · exact .inl ⟨‹_›, by simpa using h.symm⟩
  · split at h
    · exact .inr (.inl ⟨‹_›, ‹_›, by simpa using h.symm⟩)
    · exact .inr (.inr ⟨‹_›, by simpa using ‹¬ s.dec.st ≠ need›, by simpa using h.symm⟩)

theorem decCommand_fault {need : StreamState} {body s : State} (h : s.dec.st = .fault) :
    decCommand need body s = .next (refuseDec s) := by simp [decCommand, h]

theorem decCommand_outOfSequence {need : StreamState} {body s : State} (hf : s.dec.st ≠ .fault)
    (hn : s.dec.st ≠ need) : decCommand need body s = .next (raiseDec .seqFault s) := by
  simp [decCommand, hf, hn]

theorem decCommand_ok {need : StreamState} {body s : State} (hf : s.dec.st ≠ .fault) (hn : s.dec.st = need) :
    decCommand need body s = .next (respondOk 0#28 body) := by
  subst hn
  simp [decCommand, hf]

/-! ### The packer -/

theorem packPush_full (acc : Byte) (bit : Bool) :
    packPush acc 7#3 bit = (0#8, 0#3, some (acc ||| (bitByte bit <<< 7))) := by simp [packPush]

theorem packPush_partial {n : BitVec 3} (acc : Byte) (bit : Bool) (h : n ≠ 7#3) :
    packPush acc n bit = (acc ||| (bitByte bit <<< n.toNat), n + 1#3, none) := by simp [packPush, h]

@[simp] theorem packFlush_empty (acc : Byte) : packFlush acc 0#3 = none := by simp [packFlush]

theorem packFlush_some {n : BitVec 3} (acc : Byte) (h : n ≠ 0#3) : packFlush acc n = some acc := by simp [packFlush, h]

/-! ### The sequencer -/

theorem openChunk_of_closed {s : State} (h : s.enc.pos = 0#23) : openChunk s = setIdx (s.enc.idx + 1) s := by
  simp [openChunk, h]

theorem openChunk_of_open {s : State} (h : s.enc.pos ≠ 0#23) : openChunk s = s := by simp [openChunk, h]

theorem closeIfFull_of_full {s : State} (h : s.enc.pos = s.enc.cb) :
    closeIfFull s = setPos 0#23 (emitEout (.cend s.enc.idx s.enc.cb) s) := by simp [closeIfFull, h]

theorem closeIfFull_of_room {s : State} (h : s.enc.pos ≠ s.enc.cb) : closeIfFull s = s := by simp [closeIfFull, h]

theorem seqClose_of_closed {s : State} (h : s.enc.pos = 0#23) : seqClose s = s := by simp [seqClose, h]

theorem seqClose_of_open {s : State} (h : s.enc.pos ≠ 0#23) :
    seqClose s = setPos 0#23 (emitEout (.cend s.enc.idx s.enc.pos) s) := by simp [seqClose, h]

@[simp] theorem seqOption_none (s : State) : seqOption none s = s := rfl

@[simp] theorem seqOption_some (b : Byte) (s : State) : seqOption (some b) s = seqByte b s := rfl

/-! ### The encode push -/

theorem indexExhausted_iff (s : State) :
    indexExhausted s = true ↔ s.enc.pos = 0#23 ∧ s.enc.idx = s.cfg.maxIdx := by
  simp [indexExhausted]

/-- EncPush raises IdxOverflow exactly on the condition it checks first, and nothing else. -/
theorem encPush_error_iff {sample : Int} {s : State} {f : FaultKind} :
    encPush sample s = .error f ↔ f = .idxOverflow ∧ s.enc.nbits = 7#3 ∧ indexExhausted s = true := by
  by_cases h : (s.enc.nbits == 7#3 && indexExhausted s) = true
  · simp only [encPush, h, if_true]
    simp only [Bool.and_eq_true, beq_iff_eq] at h
    simp [h.1, h.2, eq_comm]
  · simp only [encPush, h]
    simp only [Bool.and_eq_true, beq_iff_eq] at h
    simp [h]

/-- EncPush that completes: Q, then BP, then CS when a byte is complete. -/
theorem encPush_ok {sample : Int} {s : State} (h : ¬ (s.enc.nbits = 7#3 ∧ indexExhausted s = true)) :
    encPush sample s =
      .ok (seqOption (packPush s.enc.acc s.enc.nbits (encStep s.enc.codec sample).2).2.2
        (setPacker (packPush s.enc.acc s.enc.nbits (encStep s.enc.codec sample).2).1
          (packPush s.enc.acc s.enc.nbits (encStep s.enc.codec sample).2).2.1
          (setEncCodec (encStep s.enc.codec sample).1 s))) := by
  have h' : ¬ (s.enc.nbits == 7#3 && indexExhausted s) = true := by simpa using h
  simp [encPush, h']

/-! ### The step -/

theorem takeAction_nil {s : State} (h : s.cin = []) : takeAction s = none := by simp [takeAction, h]

theorem takeAction_cons {s : State} {a : HostAction} {rest : List HostAction} (h : s.cin = a :: rest) :
    takeAction s = some (a, { s with cin := rest }) := by simp [takeAction, h]

/-- Every outcome of a step: the block waits, is reset by the pin, runs a command, or rejects a word. -/
theorem step_cases {s t : State} (h : step s = .next t) :
    (s.cin = [] ∧ t = s) ∨
    (∃ rest, s.cin = .hardwareReset :: rest ∧ t = hardwareReset { s with cin := rest }) ∨
    (∃ cw rest i, s.cin = .word cw :: rest ∧ decode cw = .ok i ∧ exec i { s with cin := rest } = .next t) ∨
    (∃ cw rest e, s.cin = .word cw :: rest ∧ decode cw = .error e ∧ t = raiseIllegal { s with cin := rest }) := by
  rcases hc : s.cin with _ | ⟨a, rest⟩
  · rw [step, takeAction_nil hc] at h
    exact .inl ⟨rfl, by simpa using h.symm⟩
  · rw [step, takeAction_cons hc] at h
    cases a with
    | hardwareReset => exact .inr (.inl ⟨rest, rfl, by simpa using h.symm⟩)
    | word cw =>
      cases hd : decode cw with
      | ok i =>
        simp only [hd] at h
        exact .inr (.inr (.inl ⟨cw, rest, i, rfl, hd, h⟩))
      | error e =>
        simp only [hd] at h
        exact .inr (.inr (.inr ⟨cw, rest, e, rfl, hd, by simpa using h.symm⟩))

end Sys2Proof.Machine
end

