-- ==== Sys2Proof/Laws/PerInstr.lean ====
section
/-!
SUPPORT. Per-instruction statements (LAWS.json): the word of every command carries the command's opcode in bits 31:24 and
its immediate in bits 23:0 (spec/30_encoding.md R70), so the bits above the operand's format are 0.
-/

namespace Sys2Proof.Laws.EncodeFits

/-- `op = cw[31:24]` and `imm = cw[23:0]` of the command's word. -/
def Statement (i : Instr) : Prop := field (encode i) 24 8 = opcode i ∧ field (encode i) 0 24 = immediate i

/-- The bits of a command word put together from its two fields. -/
theorem getLsbD_word (op : BitVec 8) (imm : BitVec 24) (k : Nat) :
    BitVec.getLsbD (w := 32) (op ++ imm) k = if k < 24 then imm.getLsbD k else op.getLsbD (k - 24) := by
  rw [show BitVec.getLsbD (w := 32) (op ++ imm) k = BitVec.getLsbD (w := 8 + 24) (op ++ imm) k from rfl,
    BitVec.getLsbD_append]

/-- The two fields of a word put together from them. -/
theorem fields_of_append (op : BitVec 8) (imm : BitVec 24) :
    field (op ++ imm) 24 8 = op ∧ field (op ++ imm) 0 24 = imm := by
  constructor <;> apply BitVec.eq_of_getLsbD_eq <;> intro k hk <;>
    rw [field, BitVec.getLsbD_extractLsb', getLsbD_word] <;> simp [hk]

theorem reset : Statement .reset := fields_of_append _ _
theorem rdstat : Statement .rdstat := fields_of_append _ _
theorem eCfg (n : BitVec 24) : Statement (.eCfg n) := fields_of_append _ _
theorem eStart : Statement .eStart := fields_of_append _ _
theorem eSamp (sample : SampleWord) : Statement (.eSamp sample) := fields_of_append _ _
theorem ePcmb (byte : Byte) : Statement (.ePcmb byte) := fields_of_append _ _
theorem eEnd : Statement .eEnd := fields_of_append _ _
theorem eRdst : Statement .eRdst := fields_of_append _ _
theorem dStart : Statement .dStart := fields_of_append _ _
theorem dBit (bit : BitVec 1) : Statement (.dBit bit) := fields_of_append _ _
theorem dByte (byte : Byte) : Statement (.dByte byte) := fields_of_append _ _
theorem dEnd : Statement .dEnd := fields_of_append _ _
theorem dRdst : Statement .dRdst := fields_of_append _ _

end Sys2Proof.Laws.EncodeFits
end

