-- ==== Sys2Proof/Tests/Slice0.lean ====
section
/-!
SUPPORT. The model's own tests: words written out from the opcode map, the well-formedness smoke test, one or two vectors of
spec/95_test_vectors.md per command, and for each statement with hypotheses a witness that meets them.
-/

namespace Sys2Proof.Tests

open Sys2Proof Sys2Proof.Machine Sys2Proof.Claims

/-- The next state of an outcome, if it has one. -/
def nextOf (r : Result) : Option State :=
  match r with
  | .next t => some t
  | .fault _ => none
  | .refused _ => none

/-! ### States -/

/-- Reset, then `E.CFG cb`. -/
def sIdle (cb : BitVec 23) : State := { State.reset with enc := { EncRegs.reset with cb := cb } }

/-- A fresh encode stream and a fresh decode stream. -/
def sAct (cb : BitVec 23) : State :=
  { State.reset with enc := { EncRegs.reset with cb := cb, st := .active }, dec := { DecRegs.reset with st := .active } }

/-- `sAct` with the low byte 0xFF pending. -/
def sPend : State := { sAct 10#23 with enc := { (sAct 10#23).enc with hold := 0xFF#8, pend := true } }

/-- The state of spec/95_test_vectors.md B11 item 12, before the 32nd sample: `IDX_W = 2` and no index left. -/
def sFull : State :=
  { sAct 1#23 with
    cfg := { idxW := 2 }
    enc := { codec := { level := 1#8, resp := 0#6, last := true }, hold := 0#8, pend := false, acc := 0x5A#8, nbits := 7#3,
             cb := 1#23, pos := 0#23, idx := 3, st := .active, fcode := 0#3 } }

/-- `sFull` with a low byte pending. -/
def sFullPend : State := { sFull with enc := { sFull.enc with hold := 1#8, pend := true } }

/-- Seven decisions packed, one byte of chunk 1 out, `chunkBytes = 2`. -/
def sSeven : State :=
  { sAct 2#23 with enc := { (sAct 2#23).enc with acc := 0x2D#8, nbits := 7#3, pos := 1#23, idx := 1 },
                   out := [.eout (.byte 1 0#23 0#8)] }

/-- Three zero samples encoded, as before the E.END of program C1. -/
def sThree : State :=
  { sAct 10#23 with
    enc := { (sAct 10#23).enc with codec := { level := 0#8, resp := 0#6, last := true }, acc := 5#8, nbits := 3#3 } }

/-- Both sides in FAULT: E with ConfigFault, D with SeqFault, and `ILL` set. -/
def sFault : State :=
  { State.reset with enc := { EncRegs.reset with cb := 5#23, st := .fault, fcode := 1#3 },
                     dec := { DecRegs.reset with st := .fault, fcode := 2#3 }, ill := true }

/-- `s` with the host actions `as` presented. -/
def present (as : List HostAction) (s : State) : State := { s with cin := as }

/-! ### Decoding, on words written out from R73 and from spec/95_test_vectors.md B10 -/

theorem test_decode_block : decode 0x01000000#32 = .ok .reset ∧ decode 0x02000000#32 = .ok .rdstat := ⟨rfl, rfl⟩

theorem test_decode_encode_side :
    decode 0x1000000A#32 = .ok (.eCfg 10#24) ∧ decode 0x11000000#32 = .ok .eStart ∧
      decode 0x12007FFF#32 = .ok (.eSamp 0x7FFF#16) ∧ decode 0x130000FF#32 = .ok (.ePcmb 0xFF#8) ∧
      decode 0x14000000#32 = .ok .eEnd ∧ decode 0x15000000#32 = .ok .eRdst := ⟨rfl, rfl, rfl, rfl, rfl, rfl⟩

theorem test_decode_decode_side :
    decode 0x20000000#32 = .ok .dStart ∧ decode 0x21000001#32 = .ok (.dBit 1#1) ∧
      decode 0x22000005#32 = .ok (.dByte 5#8) ∧ decode 0x23000000#32 = .ok .dEnd ∧
      decode 0x24000000#32 = .ok .dRdst := ⟨rfl, rfl, rfl, rfl, rfl⟩

theorem test_decode_illegal :
    decode 0x00000000#32 = .error .unassignedOpcode ∧ decode 0x12010000#32 = .error .strayOperandBit ∧
      decode 0x13000100#32 = .error .strayOperandBit ∧ decode 0x21000002#32 = .error .strayOperandBit ∧
      decode 0x01000001#32 = .error .strayOperandBit ∧ decode 0x16000000#32 = .error .unassignedOpcode ∧
      decode 0x25000000#32 = .error .unassignedOpcode ∧ decode 0xFF000000#32 = .error .unassignedOpcode :=
  ⟨rfl, rfl, rfl, rfl, rfl, rfl, rfl, rfl⟩

theorem test_encode_words :
    encode (.eCfg 10#24) = 0x1000000A#32 ∧ encode (.eSamp 0xFFFF#16) = 0x1200FFFF#32 ∧
      encode (.dBit 1#1) = 0x21000001#32 ∧ encode (.dByte 0x5B#8) = 0x2200005B#32 ∧ encode .dEnd = 0x23000000#32 := by
  decide

theorem test_decodeTableWord :
    decodeTableWord 32 0x130000FF = some (.ePcmb 0xFF#8) ∧ decodeTableWord 32 0x25000000 = none := ⟨rfl, rfl⟩

/-! ### Well-formedness: one ill-formed line per check of R79 and R80 -/

theorem test_wellFormed_refuses :
    AsmLine.wellFormed (.eCfg (.dec 8388608)) = false ∧ AsmLine.wellFormed (.eCfg (.dec (-8388609))) = false ∧
      AsmLine.wellFormed (.eSamp (.dec 32768)) = false ∧ AsmLine.wellFormed (.eSamp (.hex 0x10000)) = false ∧
      AsmLine.wellFormed (.ePcmb (.dec 256)) = false ∧ AsmLine.wellFormed (.ePcmb (.dec (-1))) = false ∧
      AsmLine.wellFormed (.dBit (.dec 2)) = false ∧ AsmLine.wellFormed (.dByte (.hex 0x100)) = false := by decide

theorem test_wellFormed_refuses_pseudos :
    AsmLine.wellFormed (.ePcmw (.dec 40000)) = false ∧ AsmLine.wellFormed (.eBuf []) = false ∧
      AsmLine.wellFormed (.eBuf [.dec 1, .dec 256]) = false ∧ AsmLine.wellFormed (.dBits [.dec 2]) = false ∧
      AsmLine.wellFormed (.dBuf [.hex 0x100]) = false ∧
      AsmProgram.wellFormed (.rep 2 (.line (.dBit (.dec 2)) .done) .done) = false := by decide

theorem test_assembler_text :
    parseLine "E.CFG 10 ; ten".toList = some (.eCfg (.dec 10)) ∧
      parseLine "E.SAMP -3".toList = some (.eSamp (.dec (-3))) ∧
      parseLine "E.SAMP 0xFFFF".toList = some (.eSamp (.hex 0xFFFF)) ∧ parseLine "D.END".toList = some .dEnd ∧
      parseLine "d.end".toList = none ∧ parseLine "RESET 1".toList = none := by decide

theorem test_assembler_pseudos :
    assembleLine (.ePcmw (.hex 0x1234)) = some [.ePcmb 0x34#8, .ePcmb 0x12#8] ∧
      assembleLine (.eSamp (.dec (-1))) = some [.eSamp 0xFFFF#16] ∧ assembleLine (.dBit (.dec 2)) = none ∧
      assembleProgram (.line (.eCfg (.dec 10)) (.rep 2 (.line .rdstat .done) .done)) =
        some [0x1000000A#32, 0x02000000#32, 0x02000000#32] := by decide

/-! ### The pure functions (spec/95_test_vectors.md A1, B1 to B4, B6 to B9) -/

theorem test_reduce_floors :
    [255, 256, -1, -256, -257, 32767, -32768].map reduce = [0, 1, -1, -1, -2, 127, -128] := by decide

theorem test_predict_floors :
    predict 1 (-128) 0 = -2 ∧ predict (-2) 127 0 = 0 ∧ predict 126 127 62 = 126 ∧ predict (-127) (-128) 0 = -128 ∧
      predict 50 (-128) 10 = 19 := by decide

theorem test_update_uses_new_response :
    update { level := 0#8, resp := 0#6, last := true } true = { level := 3#8, resp := 1#6, last := true } := by decide

theorem test_encSeq_zero_samples_cycle :
    encSeq CodecState.init [0, 0, 0, 0, 0] = (CodecState.init, [true, false, true, true, false]) := by decide

theorem test_pack_unpack :
    packPush 0x2D#8 7#3 true = (0#8, 0#3, some 0xAD#8) ∧ packFlush 0#8 5#3 = some 0#8 ∧
      pack [true, true, true, true, true, true, true, true, true] = [0xFF#8, 0x01#8] ∧
      unpack 0xAD#8 = [true, false, true, true, false, true, false, true] := by decide

theorem test_split_scenario :
    (split (List.replicate 25 0#8) 10).map List.length = [10, 10, 5] ∧ split [] 10 = [] ∧
      (split (List.replicate 20 0#8) 10).map List.length = [10, 10] := by decide

theorem test_assemblePCM :
    assemblePCM [0x34#8, 0x12#8, 0x56#8] = [4660] ∧ assemblePCM [0#8, 0x80#8] = [-32768] ∧ assemblePCM [0x7F#8] = [] := by
  decide

theorem test_eoutWord :
    eoutWord { idxW := 32 } (.byte 1 0#23 5#8) = 0x0000000080000005#64 ∧
      eoutWord { idxW := 32 } (.cend 1 1#23) = 0x8000000080000100#64 := by decide

/-! ### Commands: at most two vectors each -/

/-- From spec/43_stream.md R171. -/
theorem test_reset : nextOf (exec .reset sFault) = some { State.reset with out := [.rsp 0#32] } := by decide

/-- From spec/43_stream.md R172 and B11 item 12. -/
theorem test_rdstat :
    (nextOf (exec .rdstat sThree)).map State.responses = some [0x000100C1#32] ∧
      (nextOf (exec .rdstat { sFull with enc := { sFull.enc with st := .fault, fcode := 4#3 },
                                         dec := DecRegs.reset })).map State.responses = some [0x000001D2#32] := by decide

/-- From spec/42_chunk.md R156. -/
theorem test_eCfg :
    (nextOf (exec (.eCfg 10#24) State.reset)).map (fun t => (t.enc.cb, t.responses)) = some (10#23, [0#32]) ∧
      (nextOf (exec (.eCfg 0#24) (sIdle 10#23))).map (fun t => (t.enc.cb, t.enc.fcode, t.responses)) =
        some (10#23, 1#3, [0x10000000#32]) := by decide

/-- From spec/43_stream.md R173. -/
theorem test_eStart :
    (nextOf (exec .eStart State.reset)).map State.responses = some [0x10000000#32] ∧
      (nextOf (exec .eStart (sIdle 10#23))).map (fun t => (t.enc.st, t.responses)) = some (.active, [0#32]) ∧
      (nextOf (exec .eStart { sIdle 10#23 with out := sSeven.out })).map State.streamEvents = some [] := by decide

/-- From spec/40_codec.md R116, and B7 on a byte that fills its chunk. -/
theorem test_eSamp :
    (nextOf (exec (.eSamp 0#16) (sAct 10#23))).map (fun t => (t.enc.codec, t.enc.acc, t.enc.nbits)) =
        some ({ level := 1#8, resp := 0#6, last := true }, 1#8, 1#3) ∧
      (nextOf (exec (.eSamp 0#16) sSeven)).map (fun t => (t.eout, t.enc.pos, t.enc.idx, t.enc.nbits)) =
        some ([.byte 1 0#23 0#8, .byte 1 1#23 0xAD#8, .cend 1 2#23], 0#23, 1, 0#3) := by decide

/-- From B11 item 12: the fault leaves everything but the latch. -/
theorem test_eSamp_idxOverflow :
    nextOf (exec (.eSamp 0#16) sFull) =
      some { sFull with enc := { sFull.enc with st := .fault, fcode := 4#3 }, out := [.rsp 0x40000000#32] } := by decide

/-- From spec/43_stream.md R175. -/
theorem test_ePcmb :
    (nextOf (exec (.ePcmb 0xFF#8) (sAct 10#23))).map (fun t => (t.enc.hold, t.enc.pend, t.enc.codec)) =
        some (0xFF#8, true, CodecState.init) ∧
      (nextOf (exec (.ePcmb 0xFF#8) sPend)).map (fun t => (t.enc.codec, t.enc.acc, t.enc.nbits, t.enc.pend)) =
        some ({ level := 0xFC#8, resp := 1#6, last := false }, 0#8, 1#3, false) := by decide

/-- From spec/43_stream.md R176 and program C1. -/
theorem test_eEnd :
    (nextOf (exec .eEnd sThree)).map (fun t => (t.eout, t.responses, t.enc)) =
      some ([.byte 1 0#23 5#8, .cend 1 1#23], [0#32], { EncRegs.reset with cb := 10#23 }) := by decide

/-- From spec/40_codec.md R119. -/
theorem test_eRdst :
    (nextOf (exec .eRdst { sThree with enc := { sThree.enc with codec := { level := 0xFE#8, resp := 0#6, last := false } }
                         })).map State.responses = some [0x000000FE#32] ∧
      (nextOf (exec .eRdst sThree)).map State.responses = some [0x00004000#32] := by decide

/-- From spec/43_stream.md R177 and B11 item 8. -/
theorem test_dStart :
    (nextOf (exec .dStart State.reset)).map (fun t => (t.dec.st, t.responses)) = some (.active, [0#32]) ∧
      (nextOf (exec .dStart (sAct 1#23))).map (fun t => (t.dec.st, t.dec.fcode, t.responses)) =
        some (.fault, 2#3, [0x20000000#32]) := by decide

/-- From spec/40_codec.md R118. -/
theorem test_dBit :
    (nextOf (exec (.dBit 1#1) (sAct 1#23))).map (fun t => (t.dout, t.dec.codec)) =
        some ([0x0100#16], { level := 1#8, resp := 0#6, last := true }) ∧
      (nextOf (exec (.dBit 0#1)
        { sAct 1#23 with dec := { codec := { level := 1#8, resp := 0#6, last := true }, st := .active, fcode := 0#3 }
        })).map State.dout = some [0xFE00#16] := by decide

/-- From spec/41_bitpack.md R136. -/
theorem test_dByte :
    (nextOf (exec (.dByte 5#8) (sAct 1#23))).map (fun t => (t.dout.map BitVec.toInt, t.dec.codec)) =
      some ([256, -512, 0, -512, -1536, -3072, -5120, -7424], { level := 0xE3#8, resp := 4#6, last := false }) := by decide

/-- From spec/43_stream.md R178. -/
theorem test_dEnd :
    (nextOf (exec .dEnd (sAct 1#23))).map (fun t => (t.dec, t.responses)) = some (DecRegs.reset, [0#32]) ∧
      (nextOf (exec .dEnd State.reset)).map (fun t => (t.dec.fcode, t.responses)) = some (2#3, [0x20000000#32]) := by decide

/-- From program C4. -/
theorem test_dRdst :
    (nextOf (exec .dRdst { sAct 1#23 with
        dec := { codec := { level := 0xFD#8, resp := 9#6, last := false }, st := .active, fcode := 0#3 }
      })).map State.responses = some [0x000009FD#32] := by decide

/-- From B11 item 9. -/
theorem test_step_illegal_word :
    nextOf (step (present [.word 0xFF000000#32] (sAct 3#23))) =
      some { sAct 3#23 with ill := true, out := [.rsp 0x30000000#32] } := by decide

/-- The word that withFetchWord places is the next one taken. -/
theorem test_withFetchWord :
    nextOf (step (State.reset.withFetchWord 32 0x11000000)) = nextOf (exec .eStart State.reset) := by decide

/-! ### Witnesses: states and operands that meet the hypotheses of each statement -/

theorem witness_WordsOfTheTableDecodeToTheirCommand :
    0x10800000#32 &&& 0xFF000000#32 = 0x10000000#32 ∧ 0x12008000#32 &&& 0xFFFF0000#32 = 0x12000000#32 ∧
      0x130000FF#32 &&& 0xFFFFFF00#32 = 0x13000000#32 ∧ 0x21000001#32 &&& 0xFFFFFFFE#32 = 0x21000000#32 ∧
      0x22000000#32 &&& 0xFFFFFF00#32 = 0x22000000#32 ∧
      (0xFFFFFFFF#32, 0x24000000#32) ∈ commandRows ∧ 0x24000000#32 &&& 0xFFFFFFFF#32 = 0x24000000#32 := by decide

theorem witness_EncodeOfDecodeIsTheWord : decode 0x10FFFFFF#32 = .ok (.eCfg 0xFFFFFF#24) := rfl

theorem witness_WordsOutsideTheTableDoNotDecode :
    legalWord 0x22000005#32 ∧ ¬ legalWord 0x22000100#32 ∧ ¬ legalWord 0#32 := by decide

theorem witness_AssembledOperandsAreReadBack :
    ((-8388608 : Int) ≤ -8388608 ∧ (-8388608 : Int) ≤ 8388607) ∧ ((-32768 : Int) ≤ 32767 ∧ (32767 : Int) ≤ 32767) ∧
      (8388607 : Int) < 8388608 ∧ (-32769 : Int) < -32768 := by decide

theorem witness_StepRunsTheDecodedCommand :
    (present [.word 0x1000000A#32, .hardwareReset] State.reset).cin = .word 0x1000000A#32 :: [.hardwareReset] ∧
      decode 0x1000000A#32 = .ok (.eCfg 10#24) := ⟨rfl, rfl⟩

theorem witness_StepWaitsForTheHost : sThree.cin = [] := rfl

theorem witness_IllegalWordSetsIllAndNothingElse_word :
    (present [.word 0x12010000#32] sThree).cin = .word 0x12010000#32 :: [] ∧ ¬ legalWord 0x12010000#32 :=
  ⟨rfl, by decide⟩

theorem witness_IllegalWordSetsIllAndNothingElse_sticky :
    step (present [.word 0x02000000#32] sFault) = .next { sFault with out := [.rsp 0x010A0006#32] } ∧
      (present [.word 0x02000000#32] sFault).ill = true ∧
      (∀ a ∈ (present [.word 0x02000000#32] sFault).cin.head?, isReset a = false) :=
  ⟨rfl, rfl, by decide⟩

theorem witness_HardwareResetDiffersFromResetOnlyInTheResponse :
    (present [.hardwareReset] sFault).cin = .hardwareReset :: [] ∧
      (present [.word 0x01000000#32] sFault).cin = .word 0x01000000#32 :: [] := ⟨rfl, rfl⟩

theorem witness_EveryCommandAnswersOnceAfterItsEvents :
    (present [.word 0x14000000#32] sThree).cin = .word 0x14000000#32 :: [] ∧
      step (present [.word 0x14000000#32] sThree) =
        .next { sThree with enc := { EncRegs.reset with cb := 10#23 },
                            out := [.eout (.byte 1 0#23 5#8), .eout (.cend 1 1#23), .rsp 0#32] } := ⟨rfl, rfl⟩

theorem witness_ResetCommandClearsEverythingAndAloneClearsFaults :
    exec .eEnd sFault = .next { sFault with out := [.rsp 0x10000000#32] } ∧ Instr.eEnd ≠ .reset ∧
      sFault.enc.st = .fault ∧ sFault.dec.st = .fault ∧ sFault.ill = true ∧ sFault.enc.cb ≠ 0#23 :=
  ⟨rfl, by decide, rfl, rfl, rfl, by decide⟩

theorem witness_EcfgSetsChunkBytesOrFaults :
    sFault.enc.st = .fault ∧ sThree.enc.st = .active ∧ (State.reset.enc.st = .idle ∧ (0#24).toInt ≤ 0) ∧
      (State.reset.enc.st = .idle ∧ 0 < (1#24).toInt) := by decide

theorem witness_EstartOpensAFreshStreamOrFaults :
    sFault.enc.st = .fault ∧ sThree.enc.st = .active ∧ (State.reset.enc.st = .idle ∧ State.reset.enc.cb = 0#23) ∧
      ((sIdle 1#23).enc.st = .idle ∧ (sIdle 1#23).enc.cb ≠ 0#23) := by decide

theorem witness_EsampEncodesOneSampleOrFaults :
    sFault.enc.st = .fault ∧ State.reset.enc.st = .idle ∧ (sPend.enc.st = .active ∧ sPend.enc.pend = true) ∧
      (sFull.enc.st = .active ∧ sFull.enc.pend = false ∧ sFull.enc.nbits = 7#3 ∧ noIndexLeft sFull) ∧
      (sSeven.enc.st = .active ∧ sSeven.enc.pend = false ∧ ¬ (sSeven.enc.nbits = 7#3 ∧ noIndexLeft sSeven)) := by decide

theorem witness_EpcmbPairsBytesOrFaults :
    sFault.enc.st = .fault ∧ State.reset.enc.st = .idle ∧ (sThree.enc.st = .active ∧ sThree.enc.pend = false) ∧
      (sFullPend.enc.st = .active ∧ sFullPend.enc.pend = true ∧ sFullPend.enc.nbits = 7#3 ∧ noIndexLeft sFullPend) ∧
      (sPend.enc.st = .active ∧ sPend.enc.pend = true ∧ ¬ (sPend.enc.nbits = 7#3 ∧ noIndexLeft sPend)) := by decide

theorem witness_EendFlushesClosesAndDiscardsOrFaults :
    sFault.enc.st = .fault ∧ State.reset.enc.st = .idle ∧
      (sFull.enc.st = .active ∧ sFull.enc.nbits ≠ 0#3 ∧ noIndexLeft sFull) ∧
      (sThree.enc.st = .active ∧ ¬ (sThree.enc.nbits ≠ 0#3 ∧ noIndexLeft sThree)) := by decide

theorem witness_ByteFormAndSampleFormAgree :
    sSeven.enc.st = .active ∧ sSeven.enc.pend = false ∧ sSeven.enc.hold = 0#8 ∧
      ¬ (sSeven.enc.nbits = 7#3 ∧ noIndexLeft sSeven) := by decide

theorem witness_OddTrailingByteLeavesNoTrace :
    sPend.enc.st = .active ∧ ¬ (sPend.enc.nbits ≠ 0#3 ∧ noIndexLeft sPend) := by decide

/-- For DstartAndDendOpenAndDiscardOrFault, DbitDecodesOneBitOrFaults, DbyteDecodesEightBitsOrFaults, DbyteIsEightDbits and
WholeDecodeStreamIsTheFold: the three states of the D side. -/
theorem witness_DecodeSideStates :
    sFault.dec.st = .fault ∧ sThree.dec.st = .active ∧ State.reset.dec.st = .idle := by decide

theorem witness_FaultEntryChangesNothingButTheLatch :
    exec .eStart State.reset =
        .next { State.reset with enc := { EncRegs.reset with st := .fault, fcode := 1#3 }, out := [.rsp 0x10000000#32] } ∧
      State.reset.enc.st ≠ .fault ∧
      exec .dEnd State.reset =
        .next { State.reset with dec := { DecRegs.reset with st := .fault, fcode := 2#3 }, out := [.rsp 0x20000000#32] } ∧
      State.reset.dec.st ≠ .fault := ⟨rfl, by decide, rfl, by decide⟩

theorem witness_SideInFaultOnlyRepeatsItsCode :
    (isEncData .eEnd = true ∧ sFault.enc.st = .fault) ∧ (isDecData (.dByte 0#8) = true ∧ sFault.dec.st = .fault) := by decide

/-- For SeqFaultExactlyOutOfSequence and IdxOverflowExactlyWhenNoIndexIsLeft, on either side of their equivalences. -/
theorem witness_SidesNotInFault :
    State.reset.enc.st ≠ .fault ∧ State.reset.dec.st ≠ .fault ∧ sPend.enc.st ≠ .fault ∧ sPend.dec.st ≠ .fault ∧
      sFull.enc.st ≠ .fault := by decide

/-- An ACTIVE stream in the middle of a chunk meets the invariant. -/
theorem sSeven_inv : sSeven.Inv :=
  ⟨⟨by decide, by decide, by decide, by decide, by decide, by decide, by decide, by decide⟩,
   ⟨by decide, by decide, by decide⟩, by decide, by decide⟩

theorem sSeven_present_inv (as : List HostAction) : (present as sSeven).Inv :=
  ⟨sSeven_inv.enc, sSeven_inv.dec, sSeven_inv.mark_within, sSeven_inv.no_byte_yet⟩

/-- A stream opened after another one whose events stand in the history, with no byte of its own, meets the invariant. -/
theorem second_stream_inv :
    ({ sAct 2#23 with out := [.eout (.byte 1 0#23 0#8), .eout (.cend 1 1#23), .rsp 0#32], eoutMark := 2 } : State).Inv :=
  ⟨⟨by decide, by decide, by decide, by decide, by decide, by decide, by decide, by decide⟩,
   ⟨by decide, by decide, by decide⟩, by decide, by decide⟩

/-- For EveryStepKeepsTheInvariant, EveryStepKeepsThePositionCounts, EmittedEventsAreInRange and
ResponseCodesFiveAndUpNeverOccur: a step that completes a byte and fills its chunk. -/
theorem witness_InvariantAndStep :
    (present [.word 0x12000000#32] sSeven).Inv ∧ positionCounts (present [.word 0x12000000#32] sSeven) ∧
      step (present [.word 0x12000000#32] sSeven) =
        .next { sSeven with
          enc := { sSeven.enc with
            codec := { level := 1#8, resp := 0#6, last := true }, acc := 0#8, nbits := 0#3, pos := 0#23 }
          out := [.eout (.byte 1 0#23 0#8), .eout (.byte 1 1#23 0xAD#8), .eout (.cend 1 2#23), .rsp 0#32] } :=
  ⟨sSeven_present_inv _, by unfold positionCounts; decide, rfl⟩

/-- A step that answers code 2 with nothing on record before it, and one that keeps what is on record. -/
theorem witness_FaultAnswersStayOnRecord :
    (step (present [.word 0x23000000#32] State.reset) =
        .next { State.reset with dec := { DecRegs.reset with st := .fault, fcode := 2#3 }, out := [.rsp 0x20000000#32] } ∧
      (∀ a ∈ (present [.word 0x23000000#32] State.reset).cin.head?, isReset a = false)) ∧
    (faultOnRecord (present [.word 0x02000000#32] sFault) ∧
      step (present [.word 0x02000000#32] sFault) = .next { sFault with out := [.rsp 0x010A0006#32] }) :=
  ⟨⟨rfl, by decide⟩, .inl rfl, rfl⟩

/-- Two steps from reset, the second of them in an open stream. -/
theorem witness_RunThatEndsWithoutFaultHadNone :
    Sys2Proof.core.run 2 (present [.word 0x10000001#32, .word 0x11000000#32] State.reset) =
        .next { sIdle 1#23 with enc := { (sIdle 1#23).enc with st := .active }, out := [.rsp 0#32, .rsp 0#32] } ∧
      (∀ a ∈ (present [.word 0x10000001#32, .word 0x11000000#32] State.reset).cin.take 2, isReset a = false) :=
  ⟨rfl, by decide⟩

theorem witness_EventsPerCommand :
    exec (.dBit 1#1) (sAct 1#23) =
        .next { sAct 1#23 with dec := { codec := { level := 1#8, resp := 0#6, last := true }, st := .active, fcode := 0#3 },
                               out := [.dout 0x0100#16, .rsp 0#32] } ∧
      (sAct 1#23).dec.st = .active ∧ nextOf (exec (.dByte 5#8) (sAct 1#23)) ≠ none := ⟨rfl, rfl, by decide⟩

/-- For SidesShareNoRegister and CommandsOfDifferentSidesCommute: two states that agree on one side and differ on the
other. -/
theorem witness_SidesShareNoRegister :
    (isEncSide .eEnd = true ∧ sThree.enc = { sThree with dec := sFault.dec, ill := true }.enc ∧
      sThree.cfg = { sThree with dec := sFault.dec, ill := true }.cfg) ∧
    (isDecSide .dRdst = true ∧ sThree.dec = { sThree with enc := sFault.enc }.dec) := by decide

theorem witness_AdaptStaysInRange : (0 : Int) ≤ 63 ∧ (63 : Int) ≤ 63 := by decide

/-- A level below, at and above the target, at both ends of the response. -/
theorem witness_PredictionMovesTowardTheTarget :
    ((0 : Int) ≤ 0 ∧ (0 : Int) ≤ 63 ∧ (127 : Int) ≤ 127) ∧ ((0 : Int) ≤ 63 ∧ (63 : Int) ≤ 63 ∧ (-128 : Int) < -127) := by
  decide

theorem witness_LevelStallsAndEscapes :
    ((64 : Int) ≤ 127 ∧ (0 : Int) ≤ 0 ∧ (0 : Int) ≤ 63 ∧ (-128 : Int) < 64) ∧
      ({ level := 127#8, resp := 0#6, last := false } : CodecState).level = 127#8 ∧
      ({ level := 0x80#8, resp := 0#6, last := false } : CodecState).level.toInt = -128 := by decide

theorem witness_EncoderAndDecoderRunInLockstep : 1 < ([0, -1] : List Int).length := by decide

/-- The first and the last sample, and a split between them. -/
theorem witness_SplittingTheSamplesChangesNothing :
    ([0, -1] : List Int)[0]? = some 0 ∧ ([0, -1] : List Int)[1]? = some (-1) ∧ ([0, -1] : List Int) = [0] ++ [-1] := by decide

theorem witness_PackInClosedForm : 7 < 8 ∧ 1 < (pack (List.replicate 9 true)).length := by decide

theorem witness_PackerCountsModuloEight : (packPush 0#8 0#3 true).2.1.toNat ≤ 1 := by decide

theorem witness_ChunksCoverTheStream :
    0 < 2 ∧ (split [1#8, 2#8, 3#8] 2)[1]? = some [3#8] ∧ 0 + 1 < (split [1#8, 2#8, 3#8] 2).length ∧
      ([1#8, 2#8, 3#8] : List Byte)[2]? = some 3#8 := by decide

theorem witness_SequencerComputesSplit :
    (sAct 2#23).enc.pos = 0#23 ∧ (sAct 2#23).enc.idx = 0 ∧ (sAct 2#23).enc.cb ≠ 0#23 ∧
      2 < ([1#8, 2#8, 3#8] : List Byte).length := by decide

/-- For StreamPositionFollowsTheSampleCount and WholeEncodeStreamIsThePipeline: with `IDX_W = 2` and `chunkBytes = 1`, a
stream of three chunks is the longest that has its indices. -/
theorem witness_WholeEncodeStream :
    (sIdle 1#23).enc.st = .idle ∧ (sIdle 1#23).enc.cb ≠ 0#23 ∧
      chunkCount ((List.replicate 24 (0#16 : SampleWord)).length / 8) (sIdle 1#23).enc.cb.toNat <
        2 ^ ({ sIdle 1#23 with cfg := { idxW := 2 } } : State).cfg.idxW ∧
      chunkCount (pack (encSeq CodecState.init (assemblePCM [0#8, 0#8, 0x7F#8])).2).length (sIdle 1#23).enc.cb.toNat <
        2 ^ (sIdle 1#23).cfg.idxW ∧
      chunkCount (pack (encSeq CodecState.init ([0xFFFF#16].map BitVec.toInt)).2).length (sIdle 1#23).enc.cb.toNat <
        2 ^ (sIdle 1#23).cfg.idxW := by decide

theorem witness_EoutWordHoldsItsFields : 3 < 2 ^ ({ idxW := 2 } : Config).idxW := by decide

end Sys2Proof.Tests
end

