-- ==== Sys2Proof/Proofs/Reset.lean ====
section
/-!
The state after reset (spec/10_state.md R40; spec/70_reset_and_hazards.md R230): its registers by name, and ports that have
carried nothing.
-/

namespace Sys2Proof.Machine

@[simp] theorem State.reset_enc : State.reset.enc = EncRegs.reset := rfl
@[simp] theorem State.reset_dec : State.reset.dec = DecRegs.reset := rfl
@[simp] theorem State.reset_ill : State.reset.ill = false := rfl
@[simp] theorem State.reset_out : State.reset.out = [] := rfl

/-- With an empty history EOUT has carried nothing. -/
theorem State.eout_of_out_eq_nil {s : State} (h : s.out = []) : s.eout = [] := by
  rw [State.eout, h, List.filterMap_nil]

/-- With an empty history DOUT has carried nothing. -/
theorem State.dout_of_out_eq_nil {s : State} (h : s.out = []) : s.dout = [] := by
  rw [State.dout, h, List.filterMap_nil]

/-- Every register of the encode side holds its value of R40, written out. -/
theorem EncRegs.reset_eq :
    EncRegs.reset = { codec := { level := 0#8, resp := 0#6, last := false }, hold := 0#8, pend := false, acc := 0#8,
                      nbits := 0#3, cb := 0#23, pos := 0#23, idx := 0, st := .idle, fcode := 0#3 } := rfl

/-- Every register of the decode side holds its value of R40, written out. -/
theorem DecRegs.reset_eq :
    DecRegs.reset = { codec := { level := 0#8, resp := 0#6, last := false }, st := .idle, fcode := 0#3 } := rfl

/-- Settles O13: each side's registers by their reset values, the output ports by the empty history. -/
theorem resetStateIsAllZero : Obligations.ResetStateIsAllZero := by
  unfold Obligations.ResetStateIsAllZero
  have henc := State.reset_enc.trans EncRegs.reset_eq
  have hdec := State.reset_dec.trans DecRegs.reset_eq
  exact ⟨henc, hdec, State.reset_ill, State.eout_of_out_eq_nil State.reset_out, State.dout_of_out_eq_nil State.reset_out⟩

end Sys2Proof.Machine
end

