-- ==== Sys2Proof/Proofs/Responses.lean ====
section
/-!
What a command puts on the ports (spec/20_memory.md R54): its operations emit events and no response, and the frame of a
command adds the one response word after them.
-/

namespace Sys2Proof.Machine

open Claims

/-- What the ports have carried in `t` is what they had in `s` and then events, none of them a response word. -/
def EmitsEvents (s t : State) : Prop :=
  ∃ evs, t.out = s.out ++ evs ∧ ∀ e ∈ evs, isResponse e = false

/-- What the ports have carried in `t` is what they had in `s`, then events, then one response word (R54). -/
def AnswersOnce (s t : State) : Prop :=
  ∃ (evs : List PortEvent) (rw : Word), t.out = s.out ++ evs ++ [.rsp rw] ∧ ∀ e ∈ evs, isResponse e = false

section
variable {s t u : State}

/-! ### Events without a response -/

theorem EmitsEvents.of_out_eq (h : t.out = s.out) : EmitsEvents s t := ⟨[], by simp [h], by simp⟩

theorem EmitsEvents.of_out_eq_append {e : PortEvent} (h : t.out = s.out ++ [e]) (he : isResponse e = false) :
    EmitsEvents s t := ⟨[e], h, by simpa using he⟩

theorem EmitsEvents.trans (hst : EmitsEvents s t) (htu : EmitsEvents t u) : EmitsEvents s u := by
  obtain ⟨evs, ht, hevs⟩ := hst
  obtain ⟨evs', hu, hevs'⟩ := htu
  exact ⟨evs ++ evs', by rw [hu, ht, List.append_assoc], List.forall_mem_append.2 ⟨hevs, hevs'⟩⟩

/-- Opening a chunk is no event: its BYTE is. -/
theorem openChunk_emitsEvents (s : State) : EmitsEvents s (openChunk s) := by
  by_cases h : s.enc.pos = 0#23
  · exact .of_out_eq (by simp [openChunk_of_closed h])
  · exact .of_out_eq (by rw [openChunk_of_open h])

theorem closeIfFull_emitsEvents (s : State) : EmitsEvents s (closeIfFull s) := by
  by_cases h : s.enc.pos = s.enc.cb
  · exact .of_out_eq_append (e := .eout (.cend s.enc.idx s.enc.cb)) (by simp [closeIfFull_of_full h]) rfl
  · exact .of_out_eq (by rw [closeIfFull_of_room h])

theorem seqByte_emitsEvents (b : Byte) (s : State) : EmitsEvents s (seqByte b s) := by
  refine (openChunk_emitsEvents s).trans (.trans ?_ (closeIfFull_emitsEvents _))
  exact .of_out_eq_append (e := .eout (.byte (openChunk s).enc.idx (openChunk s).enc.pos b)) (by simp) rfl

theorem seqOption_emitsEvents (b : Option Byte) (s : State) : EmitsEvents s (seqOption b s) := by
  cases b with
  | none => exact .of_out_eq rfl
  | some b => exact seqByte_emitsEvents b s

theorem seqClose_emitsEvents (s : State) : EmitsEvents s (seqClose s) := by
  by_cases h : s.enc.pos = 0#23
  · exact .of_out_eq (by rw [seqClose_of_closed h])
  · exact .of_out_eq_append (e := .eout (.cend s.enc.idx s.enc.pos)) (by simp [seqClose_of_open h]) rfl

theorem encPush_emitsEvents {sample : Int} (h : encPush sample s = .ok t) : EmitsEvents s t := by
  by_cases hx : s.enc.nbits = 7#3 ∧ indexExhausted s = true
  · rw [encPush_error_iff.2 ⟨rfl, hx⟩] at h
    cases h
  · rw [encPush_ok hx] at h
    cases h
    exact .trans (.of_out_eq (by simp)) (seqOption_emitsEvents _ _)

theorem pushPcmByte_emitsEvents {byte : Byte} (h : pushPcmByte byte s = .ok t) : EmitsEvents s t := by
  unfold pushPcmByte at h
  split at h
  case isTrue =>
    split at h
    case h_1 s' hpush =>
      cases h
      exact (encPush_emitsEvents hpush).trans (.of_out_eq (by simp))
    case h_2 => cases h
  case isFalse =>
    cases h
    exact .of_out_eq (by simp)

theorem endEncStream_emitsEvents (h : endEncStream s = .ok t) : EmitsEvents s t := by
  unfold endEncStream at h
  split at h
  case isTrue => cases h
  case isFalse =>
    cases h
    have hflush := seqOption_emitsEvents (packFlush s.enc.acc s.enc.nbits) s
    exact hflush.trans ((seqClose_emitsEvents _).trans (.of_out_eq (by simp)))

theorem decPush_emitsEvents (bit : Bool) (s : State) : EmitsEvents s (decPush bit s) :=
  .of_out_eq_append (decPush_out bit s) rfl

theorem foldl_decPush_emitsEvents (bits : List Bool) (s : State) :
    EmitsEvents s (bits.foldl (fun t bit => decPush bit t) s) := by
  induction bits generalizing s with
  | nil => exact .of_out_eq rfl
  | cons bit bits ih => exact (decPush_emitsEvents bit s).trans (ih _)

/-! ### The one response -/

theorem EmitsEvents.answersOnce {rw : Word} (h : EmitsEvents s t) (hu : u.out = t.out ++ [.rsp rw]) :
    AnswersOnce s u := by
  obtain ⟨evs, ht, hevs⟩ := h
  exact ⟨evs, rw, by rw [hu, ht], hevs⟩

theorem AnswersOnce.of_out_eq {rw : Word} (h : t.out = s.out ++ [.rsp rw]) : AnswersOnce s t :=
  EmitsEvents.answersOnce (.of_out_eq rfl) h

/-- An E command answers once however it ends, if what it does in its own state answers nothing. -/
theorem encCommand_answersOnce {need : StreamState} {body : Except FaultKind State}
    (hbody : ∀ s', body = .ok s' → EmitsEvents s s') (h : encCommand need body s = .next t) : AnswersOnce s t := by
  obtain ⟨-, rfl⟩ | ⟨-, -, rfl⟩ | ⟨-, -, s', hs', rfl⟩ | ⟨-, -, f, -, rfl⟩ := encCommand_cases h
  · exact .of_out_eq (refuseEnc_out s)
  · exact .of_out_eq (raiseEnc_out .seqFault s)
  · exact (hbody s' hs').answersOnce (respondOk_out 0#28 s')
  · exact .of_out_eq (raiseEnc_out f s)

/-- A D command answers once however it ends, if what it does in its own state answers nothing. -/
theorem decCommand_answersOnce {need : StreamState} {body : State} (hbody : EmitsEvents s body)
    (h : decCommand need body s = .next t) : AnswersOnce s t := by
  obtain ⟨-, rfl⟩ | ⟨-, -, rfl⟩ | ⟨-, -, rfl⟩ := decCommand_cases h
  · exact .of_out_eq (refuseDec_out s)
  · exact .of_out_eq (raiseDec_out .seqFault s)
  · exact hbody.answersOnce (respondOk_out 0#28 body)

/-- Every command of the table answers once, after its events. -/
theorem exec_answersOnce {i : Instr} (h : exec i s = .next t) : AnswersOnce s t := by
  cases i with
  | reset => cases h; exact .of_out_eq (respondOk_out _ _)
  | rdstat => cases h; exact .of_out_eq (respondOk_out _ _)
  | eCfg n =>
    refine encCommand_answersOnce (fun s' hs' => ?_) h
    split at hs' <;> cases hs'
    exact .of_out_eq (by simp)
  | eStart =>
    refine encCommand_answersOnce (fun s' hs' => ?_) h
    split at hs' <;> cases hs'
    exact .of_out_eq (by simp)
  | eSamp sample =>
    refine encCommand_answersOnce (fun s' hs' => ?_) h
    split at hs'
    · cases hs'
    · exact encPush_emitsEvents hs'
  | ePcmb byte => exact encCommand_answersOnce (fun _ => pushPcmByte_emitsEvents) h
  | eEnd => exact encCommand_answersOnce (fun _ => endEncStream_emitsEvents) h
  | eRdst => cases h; exact .of_out_eq (respondOk_out _ _)
  | dStart => exact decCommand_answersOnce (.of_out_eq (by simp)) h
  | dBit bit => exact decCommand_answersOnce (decPush_emitsEvents _ s) h
  | dByte byte => exact decCommand_answersOnce (foldl_decPush_emitsEvents _ s) h
  | dEnd => exact decCommand_answersOnce (.of_out_eq (by simp)) h
  | dRdst => cases h; exact .of_out_eq (respondOk_out _ _)

end

/-- Settles O12: a word that decodes answers as its command does, and an illegal one with IllegalCmd alone. -/
theorem everyCommandAnswersOnceAfterItsEvents : Obligations.EveryCommandAnswersOnceAfterItsEvents := by
  unfold Obligations.EveryCommandAnswersOnceAfterItsEvents
  intro s t cw rest hcin hstep
  obtain ⟨hnil, -⟩ | ⟨_, hreset, -⟩ | ⟨_, rest', _, -, -, hexec⟩ | ⟨_, _, _, -, -, rfl⟩ := step_cases hstep
  · simp [hcin] at hnil
  · simp [hcin] at hreset
  · exact exec_answersOnce (s := { s with cin := rest' }) hexec
  · exact AnswersOnce.of_out_eq (raiseIllegal_out _)

end Sys2Proof.Machine
end

