-- ==== Sys2Proof/Proofs/SampleWord.lean ====
section
/-!
The DOUT event word (spec/30_encoding.md R76): the level's 8 bits stand above 8 zero bits, and its number and both of its
bytes are read off that form.
-/

namespace Sys2Proof.Machine

/-- Multiplying by 256 and narrowing to 16 bits loses nothing: it sets 8 zero bits below the level (R107). -/
theorem reconstruct_eq_append (cs : CodecState) : reconstruct cs = cs.level ++ 0#8 := by
  have hscale : cs.level.toInt * 256 = (cs.level ++ 0#8).toInt := by rw [BitVec.toInt_append_zero]; omega
  rw [reconstruct, sext_eq_toInt, hscale]
  exact BitVec.ofInt_toInt

/-- The 16-bit word stands for 256 times the level itself, not only modulo 2^16 (R53). -/
theorem toInt_reconstruct (cs : CodecState) : (reconstruct cs).toInt = cs.level.toInt * 256 := by
  rw [reconstruct_eq_append, BitVec.toInt_append_zero]
  omega

/-- Settles O60: the bytes from the word's form, the bounds from those of the 8-bit level. -/
theorem sampWordIsTheLevelShiftedUp : Obligations.SampWordIsTheLevelShiftedUp := by
  unfold Obligations.SampWordIsTheLevelShiftedUp
  intro cs
  have hlow : (reconstruct cs).extractLsb' 0 8 = 0#8 := by
    rw [reconstruct_eq_append]
    exact BitVec.extractLsb'_append_eq_right
  have hhigh : (reconstruct cs).extractLsb' 8 8 = cs.level := by
    rw [reconstruct_eq_append]
    exact BitVec.extractLsb'_append_eq_left
  have hlo : -128 ≤ cs.level.toInt := cs.level.le_toInt
  have hhi : cs.level.toInt ≤ 127 := BitVec.toInt_le
  exact ⟨toInt_reconstruct cs, hlow, hhigh, by omega, by omega⟩

end Sys2Proof.Machine
end

