-- ==== Sys2Proof/Proofs/Answers.lean ====
section
/-!
The model's answers, refusals and faults in the form the statements use: the response word of spec/30_encoding.md R74 is
`code << 28` for a fault, and the operations that end a command are `answered`, `faultedE` and `faultedD`.
-/

namespace Sys2Proof.Machine

open Claims

/-- Two fields side by side as a number: the upper one counts in units of the lower one's range (spec/00_scope.md R8). -/
theorem toNat_append_eq_add {m n : Nat} (x : BitVec m) (y : BitVec n) :
    (x ++ y).toNat = x.toNat * 2 ^ n + y.toNat := by
  rw [BitVec.toNat_append, ← Nat.shiftLeft_add_eq_or_of_lt y.isLt, Nat.shiftLeft_eq]

/-- A fault's response word, code above zero data, is `code << 28` (R74). -/
theorem responseWord_fault (code : BitVec 3) : responseWord (code.setWidth 4) 0#28 = faultWord code := by
  refine BitVec.eq_of_toNat_eq ?_
  rw [responseWord, faultWord, toNat_append_eq_add, BitVec.toNat_setWidth, BitVec.toNat_ofNat, BitVec.toNat_ofNat]
  omega

/-- The OK word is its data, since the code above it is 0 (R74). -/
theorem toNat_responseWord_ok (data : BitVec 28) : (responseWord 0#4 data).toNat = data.toNat := by
  rw [responseWord, toNat_append_eq_add, BitVec.toNat_ofNat]
  omega

theorem respondOk_zero (s : State) : respondOk 0#28 s = answered 0#32 s := rfl

theorem refuseEnc_eq_answered (s : State) : refuseEnc s = answered (faultWord s.enc.fcode) s := by
  rw [← responseWord_fault]
  rfl

theorem refuseDec_eq_answered (s : State) : refuseDec s = answered (faultWord s.dec.fcode) s := by
  rw [← responseWord_fault]
  rfl

theorem raiseEnc_eq_faultedE (f : FaultKind) (s : State) : raiseEnc f s = faultedE (faultCode f) s := by
  rw [faultedE, ← responseWord_fault]
  rfl

theorem raiseDec_eq_faultedD (f : FaultKind) (s : State) : raiseDec f s = faultedD (faultCode f) s := by
  rw [faultedD, ← responseWord_fault]
  rfl

end Sys2Proof.Machine
end

