-- ==== Sys2Proof/Proofs/UpdateRule.lean ====
section
/-!
The update rule on the registers is the update rule on integers (spec/40_codec.md R100 to R105): a step's response stays
in [0, 63] and its level in [-128, 127], so that narrowing them to their registers loses nothing (R110).
-/

namespace Sys2Proof.Machine

open Claims

/-- A step of the level covers a fraction `f / 64` of the distance to its target, so it never passes the target (R109). -/
theorem step_between {d f : Int} (hf : 0 ≤ f) (hf' : f ≤ 64) : min 0 d ≤ d * f / 64 ∧ d * f / 64 ≤ max 0 d := by
  obtain hd | hd := le_total 0 d
  · have hlo : 0 ≤ d * f := mul_nonneg hd hf
    have hhi : d * f ≤ d * 64 := mul_le_mul_of_nonneg_left hf' hd
    omega
  · have hlo : d * 64 ≤ d * f := mul_le_mul_of_nonpos_left hf' hd
    have hhi : d * f ≤ 0 := mul_nonpos_of_nonpos_of_nonneg hd hf
    omega

theorem nextResp_le {resp : Nat} (h : resp ≤ 63) (bit last : Bool) : nextResp resp bit last ≤ 63 := by
  unfold nextResp
  split <;> omega

/-- The level stays in int8 (R110). -/
theorem nextLevel_bounds {level : Int} {resp' : Nat} (hlo : -128 ≤ level) (hhi : level ≤ 127) (hr : resp' ≤ 63)
    (bit : Bool) : -128 ≤ nextLevel level bit resp' ∧ nextLevel level bit resp' ≤ 127 := by
  have hstep (d : Int) := step_between (d := d) (f := (resp' : Int) + 1) (by omega) (by omega)
  cases bit with
  | false =>
    have := hstep (-128 - level)
    simp only [nextLevel, Bool.false_eq_true, if_false]
    omega
  | true =>
    have := hstep (127 - level)
    simp only [nextLevel, if_true]
    omega

/-- The clamp of R103 only ever acts at the end it moves toward. -/
theorem adapt_eq_nextResp {resp : Nat} (h : resp ≤ 63) (bit last : Bool) :
    adapt resp bit last = (nextResp resp bit last : Int) := by
  unfold adapt nextResp clamp
  split_ifs <;> omega

theorem predict_eq_nextLevel (level : Int) (bit : Bool) (resp' : Nat) :
    predict level (target bit) resp' = nextLevel level bit resp' := by
  rw [predict, asr_eq_ediv]
  rfl

/-- The registers lose nothing of the integer update rule (R110). -/
theorem codecAfter_update (cs : CodecState) (bit : Bool) : CodecAfter cs bit (update cs bit) := by
  have hresp : cs.resp.toNat ≤ 63 := by omega
  have hr : nextResp cs.resp.toNat bit cs.last ≤ 63 := nextResp_le hresp bit cs.last
  obtain ⟨hlo, hhi⟩ := nextLevel_bounds cs.level.le_toInt BitVec.toInt_le hr bit
  refine ⟨rfl, ?_, ?_⟩
  · have := toNat_tc_six (i := nextResp cs.resp.toNat bit cs.last) (by omega) (by omega)
    simp only [update, adapt_eq_nextResp hresp]
    omega
  · simp only [update, adapt_eq_nextResp hresp, sext_eq_toInt, predict_eq_nextLevel]
    exact toInt_tc_eight hlo hhi

/-- The model's decision is the comparison of R101 on the floored sample. -/
theorem encDecision_eq_decides (cs : CodecState) (sample : Int) : encDecision cs sample = decides cs sample := by
  simp [encDecision, decision, reduce, asr_eq_ediv, decides]

end Sys2Proof.Machine
end

