-- ==== Sys2Proof/Proofs/EncodePush.lean ====
section
/-!
Taking one sample on the E side (spec/40_codec.md R117): the packer sets its one bit (spec/41_bitpack.md R130), the
sequencer places a complete byte as `placed` says (spec/42_chunk.md R152), and together they are `EncPushed`.
-/

namespace Sys2Proof.Machine

open Claims

/-! ### The packer -/

theorem getLsbD_bitByte (bit : Bool) (k : Nat) : (bitByte bit).getLsbD k = (decide (k = 0) && bit) := by
  cases bit with
  | false => simp [bitByte]
  | true => simp [bitByte, BitVec.getLsbD_one]

/-- The partial byte with decision number `n` or-ed in (R130). -/
theorem packedInto_or (acc : Byte) (n : BitVec 3) (bit : Bool) :
    PackedInto acc n bit (acc ||| bitByte bit <<< n.toNat) := by
  intro k
  rw [BitVec.getLsbD_or, BitVec.getLsbD_shiftLeft, getLsbD_bitByte]
  have hn : n.toNat < 8 := n.isLt
  have hk : (decide (k < 8) && !decide (k < n.toNat) && decide (k - n.toNat = 0)) = decide (k = n.toNat) := by
    rw [Bool.eq_iff_iff]
    simp only [Bool.and_eq_true, Bool.not_eq_true', decide_eq_true_eq, decide_eq_false_iff_not]
    omega
  rw [← Bool.and_assoc, hk]

/-! ### The sequencer -/

theorem openChunk_eq_setIdx (s : State) : openChunk s = setIdx (chunkNumber s) s := by
  by_cases h : s.enc.pos = 0#23
  · rw [openChunk_of_closed h, chunkNumber, if_pos h]
  · rw [openChunk_of_open h, chunkNumber, if_neg h]
    rfl

/-- SeqByte opens a chunk where none is open, emits the byte, and closes the chunk it fills (R152). -/
theorem seqByte_eq_placed (b : Byte) (s : State) : seqByte b s = placed b s := by
  have hbyte : seqByte b s =
      closeIfFull (setPos (s.enc.pos + 1#23) (emitEout (.byte (chunkNumber s) s.enc.pos b) (setIdx (chunkNumber s) s))) := by
    rw [seqByte, openChunk_eq_setIdx]
    rfl
  rw [hbyte, placed]
  by_cases h : s.enc.pos + 1#23 = s.enc.cb
  · rw [closeIfFull_of_full h, if_pos h]
    simp [setPos, emitEout, setIdx]
  · rw [closeIfFull_of_room h, if_neg h]
    rfl

theorem indexExhausted_iff_noIndexLeft (s : State) : indexExhausted s = true ↔ noIndexLeft s := indexExhausted_iff s

/-! ### The push -/

theorem encPush_overflow {s : State} (sample : Int) (hn : s.enc.nbits = 7#3) (hx : noIndexLeft s) :
    encPush sample s = .error .idxOverflow :=
  encPush_error_iff.2 ⟨rfl, hn, (indexExhausted_iff_noIndexLeft s).2 hx⟩

/-- A push that finds an index for its byte, if it completes one, takes the sample as R117 says. -/
theorem encPush_encPushed {s : State} (sample : Int) (h : ¬ (s.enc.nbits = 7#3 ∧ noIndexLeft s)) :
    ∃ t, EncPushed s sample t ∧ encPush sample s = .ok t := by
  rw [← indexExhausted_iff_noIndexLeft] at h
  refine ⟨_, ⟨update s.enc.codec (decides s.enc.codec sample),
    s.enc.acc ||| bitByte (decides s.enc.codec sample) <<< s.enc.nbits.toNat,
    codecAfter_update _ _, packedInto_or _ _ _, rfl⟩, ?_⟩
  rw [encPush_ok h, encStep, encDecision_eq_decides]
  by_cases hn : s.enc.nbits = 7#3
  · rw [if_pos hn, hn, packPush_full, seqOption_some, seqByte_eq_placed]
    rfl
  · rw [if_neg hn, packPush_partial _ _ hn, seqOption_none]
    rfl

end Sys2Proof.Machine
end

