-- ==== Sys2Proof/Proofs/CodecCommands.lean ====
section
/-!
The codec's own commands in every state (spec/40_codec.md R116 to R120): E.SAMP, D.BIT and the two read-backs.
-/

namespace Sys2Proof.Machine

open Claims

/-! ### The read-backs -/

/-- The fields of CSTATE at their places (spec/10_state.md R37). -/
theorem toNat_cstate (cs : CodecState) :
    (cstate cs).toNat = cs.level.toNat + cs.resp.toNat * 2 ^ 8 + cs.last.toNat * 2 ^ 14 := by
  rw [cstate, toNat_append_eq_add, toNat_append_eq_add, BitVec.toNat_ofBool]
  omega

/-- An OK answer with CSTATE as its data. -/
theorem toNat_cstate_response (cs : CodecState) :
    (responseWord 0#4 ((cstate cs).setWidth 28)).toNat =
      cs.level.toNat + cs.resp.toNat * 2 ^ 8 + cs.last.toNat * 2 ^ 14 := by
  rw [toNat_responseWord_ok, BitVec.toNat_setWidth_of_le (by decide), toNat_cstate]

/-- Settles O16: each side answers with the CSTATE of its own codec. -/
theorem readBacksAnswerTheCodecState : Obligations.ReadBacksAnswerTheCodecState := by
  unfold Obligations.ReadBacksAnswerTheCodecState
  intro s
  exact ⟨⟨_, rfl, toNat_cstate_response s.enc.codec⟩, ⟨_, rfl, toNat_cstate_response s.dec.codec⟩⟩

/-! ### E.SAMP -/

theorem exec_eSamp (sample : SampleWord) (s : State) :
    exec (.eSamp sample) s =
      encCommand .active (if s.enc.pend then .error .seqFault else encPush sample.toInt s) s := by
  rw [← sext_eq_toInt]
  rfl

/-- Settles O20, by the three stream states and, in ACTIVE, by the pending byte and what the push gives. -/
theorem esampEncodesOneSampleOrFaults : Obligations.EsampEncodesOneSampleOrFaults := by
  unfold Obligations.EsampEncodesOneSampleOrFaults
  intro sample s
  rw [exec_eSamp]
  refine ⟨fun hst => ?fault, fun hst => ?idle, fun hst hp => ?pending, fun hst hp hn hx => ?overflow,
    fun hst hp h => ?pushed⟩
  case fault => rw [encCommand_fault hst, refuseEnc_eq_answered]
  case idle =>
    rw [encCommand_outOfSequence (by simp [hst]) (by simp [hst]), raiseEnc_eq_faultedE, faultCode]
  case pending =>
    rw [if_pos hp, encCommand_error (by simp [hst]) hst, raiseEnc_eq_faultedE, faultCode]
  case overflow =>
    rw [if_neg (by simp [hp]), encPush_overflow _ hn hx, encCommand_error (by simp [hst]) hst,
      raiseEnc_eq_faultedE, faultCode]
  case pushed =>
    obtain ⟨t, hpushed, hok⟩ := encPush_encPushed sample.toInt h
    refine ⟨t, hpushed, ?_⟩
    rw [if_neg (by simp [hp]), hok, encCommand_ok (by simp [hst]) hst, respondOk_zero]

/-! ### D.BIT -/

theorem exec_dBit (bit : BitVec 1) (s : State) :
    exec (.dBit bit) s = decCommand .active (decPush (decide (bit = 1#1)) s) s := rfl

/-- Settles O27, by the three stream states. -/
theorem dbitDecodesOneBitOrFaults : Obligations.DbitDecodesOneBitOrFaults := by
  unfold Obligations.DbitDecodesOneBitOrFaults
  intro bit s
  rw [exec_dBit]
  refine ⟨fun hst => ?fault, fun hst => ?idle, fun hst => ?active⟩
  case fault => rw [decCommand_fault hst, refuseDec_eq_answered]
  case idle =>
    rw [decCommand_outOfSequence (by simp [hst]) (by simp [hst]), raiseDec_eq_faultedD, faultCode]
  case active =>
    refine ⟨_, _, codecAfter_update s.dec.codec (decide (bit = 1#1)), toInt_reconstruct _, ?_⟩
    rw [decCommand_ok (by simp [hst]) hst, respondOk_zero]
    rfl

end Sys2Proof.Machine
end

