-- ==== Sys2Proof/Proofs/DecodeBytes.lean ====
section
/-!
Decoding a byte (spec/41_bitpack.md R133, R136): the decode steps of a list of bits, run on the D registers and DOUT, are
the pure fold `decSeq`, which decodes each bit from the CodecState the bit before it left.
-/

namespace Sys2Proof.Machine

open Claims

/-- A decode step answers with the level it moved to, and hands its CodecState to the next (R107). -/
theorem decSeq_cons (cs : CodecState) (bit : Bool) (bits : List Bool) :
    decSeq cs (bit :: bits) =
      ((decSeq (update cs bit) bits).1, reconstruct (update cs bit) :: (decSeq (update cs bit) bits).2) := rfl

/-- One SAMP a bit. -/
theorem decSeq_length (cs : CodecState) (bits : List Bool) : (decSeq cs bits).2.length = bits.length := by
  induction bits generalizing cs with
  | nil => rfl
  | cons bit bits ih => rw [decSeq_cons, List.length_cons, ih, List.length_cons]

/-- The fold of the decode step is the integer update rule bit by bit, with 256 times each new level (R107). -/
theorem decodesTo_decSeq (cs : CodecState) (bits : List Bool) :
    DecodesTo cs bits (decSeq cs bits).2 (decSeq cs bits).1 := by
  induction bits generalizing cs with
  | nil => exact ⟨rfl, rfl⟩
  | cons bit bits ih =>
    exact ⟨update cs bit, reconstruct (update cs bit), _, codecAfter_update cs bit, toInt_reconstruct _, rfl, ih _⟩

/-- Decode steps in a row write the codec of the D side and DOUT, and nothing else (R118, R136). -/
theorem foldl_decPush_eq (bits : List Bool) (s : State) :
    bits.foldl (fun t bit => decPush bit t) s =
      { s with
        dec := { s.dec with codec := (decSeq s.dec.codec bits).1 },
        out := s.out ++ (decSeq s.dec.codec bits).2.map .dout } := by
  induction bits generalizing s with
  | nil => simp [decSeq_nil]
  | cons bit bits ih =>
    rw [List.foldl_cons, ih, decSeq_cons]
    simp

/-- The bits of a byte in rising bit number (R133). -/
theorem unpack_eq_map_range (byte : Byte) : unpack byte = (List.range 8).map fun k => byte.getLsbD k := rfl

theorem exec_dByte (byte : Byte) (s : State) :
    exec (.dByte byte) s = decCommand .active ((unpack byte).foldl (fun t bit => decPush bit t) s) s := rfl

/-- Settles O28, by the three stream states and, in ACTIVE, by the fold of the decode step over the byte's bits. -/
theorem dbyteDecodesEightBitsOrFaults : Obligations.DbyteDecodesEightBitsOrFaults := by
  unfold Obligations.DbyteDecodesEightBitsOrFaults
  intro byte s
  rw [exec_dByte, ← unpack_eq_map_range]
  refine ⟨fun hst => ?fault, fun hst => ?idle, fun hst => ?active⟩
  case fault => rw [decCommand_fault hst, refuseDec_eq_answered]
  case idle =>
    rw [decCommand_outOfSequence (by simp [hst]) (by simp [hst]), raiseDec_eq_faultedD, faultCode]
  case active =>
    refine ⟨_, _, decodesTo_decSeq s.dec.codec (unpack byte), ?_, ?_⟩
    · rw [decSeq_length, unpack_length]
    · rw [decCommand_ok (by simp [hst]) hst, respondOk_zero, foldl_decPush_eq]

end Sys2Proof.Machine
end

