-- ==== Sys2Proof/Proofs/ChunkConfig.lean ====
section
/-!
Configuring the chunk size (spec/42_chunk.md R156): E.CFG in every state, and why a positive 24-bit operand reaches the
23-bit `E.cb` whole.
-/

namespace Sys2Proof.Machine

open Claims

/-- `tc_N(i)` loses nothing of an unsigned N-bit number (spec/00_scope.md R11). -/
theorem toNat_tc_of_lt {w : Nat} {i : Int} (hlo : 0 ≤ i) (hhi : i < 2 ^ w) : ((tc w i).toNat : Int) = i := by
  have hmod : i % (2 ^ w : Nat) = i := Int.emod_eq_of_lt hlo (by exact_mod_cast hhi)
  rw [tc, BitVec.toNat_ofInt, hmod, Int.toNat_of_nonneg hlo]

/-- The sign bit of the operand is all that `E.cb` has no room for, so a positive operand is stored as it is (R156). -/
theorem toNat_tc_cfgOperand {n : BitVec 24} (hpos : 0 < n.toInt) : ((tc 23 n.toInt).toNat : Int) = n.toInt :=
  toNat_tc_of_lt hpos.le BitVec.toInt_lt

theorem exec_eCfg (n : BitVec 24) (s : State) :
    exec (.eCfg n) s =
      encCommand .idle (if n.toInt ≤ 0 then .error .configFault else .ok (setChunkBytes (tc 23 n.toInt) s)) s := by
  rw [← sext_eq_toInt]
  rfl

/-- Settles O18, by the three stream states and, in IDLE, by the sign of the operand. -/
theorem ecfgSetsChunkBytesOrFaults : Obligations.EcfgSetsChunkBytesOrFaults := by
  unfold Obligations.EcfgSetsChunkBytesOrFaults
  intro n s
  rw [exec_eCfg]
  refine ⟨fun hst => ?fault, fun hst => ?active, fun hst hn => ?notPositive, fun hst hn => ?positive⟩
  case fault => rw [encCommand_fault hst, refuseEnc_eq_answered]
  case active =>
    rw [encCommand_outOfSequence (by simp [hst]) (by simp [hst]), raiseEnc_eq_faultedE, faultCode]
  case notPositive =>
    rw [if_pos hn, encCommand_error (by simp [hst]) hst, raiseEnc_eq_faultedE, faultCode]
  case positive =>
    refine ⟨tc 23 n.toInt, toNat_tc_cfgOperand hn, ?_⟩
    rw [if_neg hn.not_ge, encCommand_ok (by simp [hst]) hst, respondOk_zero, setChunkBytes]

end Sys2Proof.Machine
end

