-- ==== Sys2Proof/Proofs/StreamEffects.lean ====
section
/-!
The E side's stream procedures in the form the statements use (spec/43_stream.md R175, R176; spec/42_chunk.md R153): the
byte pair that E.PCMB completes, the flush, close and discard of E.END, and the registers that none of them writes.
-/

namespace Sys2Proof.Machine

open Claims

/-! ### A byte of a PCM stream -/

/-- The sign of a little-endian pair is that of its high byte, so the pair reads `256 * hi + lo` (spec/20_memory.md R55). -/
theorem sampleOfBytes_eq (lo hi : Byte) : sampleOfBytes lo hi = hi.toInt * 256 + lo.toNat := by
  rw [sampleOfBytes, sext_eq_toInt, BitVec.toInt_append, if_neg (by decide)]
  omega

theorem pushPcmByte_low {s : State} (byte : Byte) (hp : s.enc.pend = false) :
    pushPcmByte byte s = .ok (setPending byte true s) := by
  simp [pushPcmByte, hp, pendAfter]

theorem pushPcmByte_high_ok {s t : State} {byte : Byte} (hp : s.enc.pend = true)
    (h : encPush (byte.toInt * 256 + s.enc.hold.toNat) s = .ok t) :
    pushPcmByte byte s = .ok (setPending 0#8 false t) := by
  simp [pushPcmByte, hp, pendAfter, sampleOfBytes_eq, h]

theorem pushPcmByte_high_error {s : State} {byte : Byte} {f : FaultKind} (hp : s.enc.pend = true)
    (h : encPush (byte.toInt * 256 + s.enc.hold.toNat) s = .error f) : pushPcmByte byte s = .error f := by
  simp [pushPcmByte, hp, sampleOfBytes_eq, h]

/-! ### The end of an encode stream -/

theorem seqOption_packFlush_eq_flushed (s : State) : seqOption (packFlush s.enc.acc s.enc.nbits) s = flushed s := by
  by_cases h : s.enc.nbits = 0#3
  · rw [flushed, if_pos h, h, packFlush_empty, seqOption_none]
  · rw [flushed, if_neg h, packFlush_some _ h, seqOption_some, seqByte_eq_placed]

theorem seqClose_eq_closed (s : State) : seqClose s = closed s := by
  by_cases h : s.enc.pos = 0#23
  · rw [seqClose_of_closed h, closed, if_pos h]
  · rw [seqClose_of_open h, closed, if_neg h]
    rfl

theorem setEncSt_clearEncStream_eq_freshE (st : StreamState) (s : State) :
    setEncSt st (clearEncStream s) = freshE st s := rfl

theorem endEncStream_overflow {s : State} (hn : s.enc.nbits ≠ 0#3) (hx : noIndexLeft s) :
    endEncStream s = .error .idxOverflow := by
  have hx' := (indexExhausted_iff_noIndexLeft s).2 hx
  simp [endEncStream, hn, hx']

/-- A stream that has an index for its partial byte, if it holds one, is flushed, closed and discarded (R176). -/
theorem endEncStream_ok {s : State} (h : ¬ (s.enc.nbits ≠ 0#3 ∧ noIndexLeft s)) :
    endEncStream s = .ok (freshE .idle (closed (flushed s))) := by
  rw [← indexExhausted_iff_noIndexLeft] at h
  have h' : ¬ (s.enc.nbits != 0#3 && indexExhausted s) = true := by simpa using h
  rw [endEncStream, if_neg h', seqOption_packFlush_eq_flushed, seqClose_eq_closed, setEncSt_clearEncStream_eq_freshE]

/-! ### What the encode stream's procedures leave as it was -/

/-- `t` has what `s` has in every register outside the open encode stream: the configuration of both kinds, the D side,
`ILL`, the latched code, the host's pending actions and the stream's mark in the history. -/
structure EncStreamFrame (s t : State) : Prop where
  cfg : t.cfg = s.cfg
  cb : t.enc.cb = s.enc.cb
  fcode : t.enc.fcode = s.enc.fcode
  dec : t.dec = s.dec
  ill : t.ill = s.ill
  cin : t.cin = s.cin
  eoutMark : t.eoutMark = s.eoutMark

theorem EncStreamFrame.trans {s t u : State} (hst : EncStreamFrame s t) (htu : EncStreamFrame t u) :
    EncStreamFrame s u where
  cfg := htu.cfg.trans hst.cfg
  cb := htu.cb.trans hst.cb
  fcode := htu.fcode.trans hst.fcode
  dec := htu.dec.trans hst.dec
  ill := htu.ill.trans hst.ill
  cin := htu.cin.trans hst.cin
  eoutMark := htu.eoutMark.trans hst.eoutMark

theorem EncStreamFrame.refl (s : State) : EncStreamFrame s s := ⟨rfl, rfl, rfl, rfl, rfl, rfl, rfl⟩

theorem setPending_frame (b : Byte) (p : Bool) (s : State) : EncStreamFrame s (setPending b p s) :=
  ⟨rfl, rfl, rfl, rfl, rfl, rfl, rfl⟩

theorem freshE_frame (st : StreamState) (s : State) : EncStreamFrame s (freshE st s) :=
  ⟨rfl, rfl, rfl, rfl, rfl, rfl, rfl⟩

theorem placed_frame (B : Byte) (s : State) : EncStreamFrame s (placed B s) := by
  unfold placed
  split <;> exact ⟨rfl, rfl, rfl, rfl, rfl, rfl, rfl⟩

theorem flushed_frame (s : State) : EncStreamFrame s (flushed s) := by
  unfold flushed
  split
  · exact .refl s
  · exact placed_frame _ s

theorem closed_frame (s : State) : EncStreamFrame s (closed s) := by
  unfold closed
  split
  · exact .refl s
  · exact ⟨rfl, rfl, rfl, rfl, rfl, rfl, rfl⟩

theorem EncPushed.frame {s t : State} {sample : Int} (h : EncPushed s sample t) : EncStreamFrame s t := by
  obtain ⟨cs', B, -, -, rfl⟩ := h
  split
  · refine .trans ?_ (placed_frame B _)
    exact ⟨rfl, rfl, rfl, rfl, rfl, rfl, rfl⟩
  · exact ⟨rfl, rfl, rfl, rfl, rfl, rfl, rfl⟩

theorem encPush_frame {s t : State} {sample : Int} (h : encPush sample s = .ok t) : EncStreamFrame s t := by
  by_cases hx : s.enc.nbits = 7#3 ∧ noIndexLeft s
  · rw [encPush_overflow sample hx.1 hx.2] at h
    cases h
  · obtain ⟨t', hpushed, hok⟩ := encPush_encPushed sample hx
    cases hok.symm.trans h
    exact EncPushed.frame hpushed

theorem pushPcmByte_frame {s t : State} {byte : Byte} (h : pushPcmByte byte s = .ok t) : EncStreamFrame s t := by
  cases hp : s.enc.pend with
  | false =>
    cases (pushPcmByte_low byte hp).symm.trans h
    exact setPending_frame byte true s
  | true =>
    cases hpush : encPush (byte.toInt * 256 + s.enc.hold.toNat) s with
    | ok t' =>
      cases (pushPcmByte_high_ok hp hpush).symm.trans h
      exact (encPush_frame hpush).trans (setPending_frame 0#8 false t')
    | error f => cases (pushPcmByte_high_error hp hpush).symm.trans h

theorem endEncStream_frame {s t : State} (h : endEncStream s = .ok t) : EncStreamFrame s t := by
  by_cases hx : s.enc.nbits ≠ 0#3 ∧ noIndexLeft s
  · cases (endEncStream_overflow hx.1 hx.2).symm.trans h
  · cases (endEncStream_ok hx).symm.trans h
    exact (flushed_frame s).trans ((closed_frame _).trans (freshE_frame .idle _))

end Sys2Proof.Machine
end

