-- ==== Sys2Proof/Proofs/StreamCommands.lean ====
section
/-!
The status word and the stream commands in every state (spec/43_stream.md R172, R175 to R178): RDSTAT, E.PCMB, E.END,
D.START and D.END.
-/

namespace Sys2Proof.Machine

open Claims

/-! ### RDSTAT -/

/-- The fields of STATUS at their places (spec/10_state.md R35). -/
theorem toNat_status (s : State) :
    (status s).toNat =
      (stCode s.enc.st).toNat + s.enc.fcode.toNat * 2 ^ 2 + s.enc.pend.toNat * 2 ^ 5 + s.enc.nbits.toNat * 2 ^ 6 +
        (stCode s.dec.st).toNat * 2 ^ 16 + s.dec.fcode.toNat * 2 ^ 18 + s.ill.toNat * 2 ^ 24 := by
  simp only [status, toNat_append_eq_add, BitVec.toNat_ofBool, BitVec.toNat_ofNat]
  omega

/-- An OK answer with STATUS as its data. -/
theorem toNat_status_response (s : State) :
    (responseWord 0#4 ((status s).setWidth 28)).toNat = (status s).toNat := by
  rw [toNat_responseWord_ok, BitVec.toNat_setWidth_of_le (by decide)]

/-- Settles O15: the answer is STATUS, whose two stream states read as their codes. -/
theorem rdstatAnswersTheStatusFields : Obligations.RdstatAnswersTheStatusFields := by
  unfold Obligations.RdstatAnswersTheStatusFields
  intro s
  refine ⟨_, rfl, ?_⟩
  rw [toNat_status_response, toNat_status]
  cases s.enc.st <;> cases s.dec.st <;> rfl

/-! ### E.PCMB -/

theorem exec_ePcmb (byte : Byte) (s : State) :
    exec (.ePcmb byte) s = encCommand .active (pushPcmByte byte s) s := rfl

/-- Settles O21, by the three stream states and, in ACTIVE, by the pending byte and what the push gives. -/
theorem epcmbPairsBytesOrFaults : Obligations.EpcmbPairsBytesOrFaults := by
  unfold Obligations.EpcmbPairsBytesOrFaults
  intro byte s
  rw [exec_ePcmb]
  refine ⟨fun hst => ?fault, fun hst => ?idle, fun hst hp => ?low, fun hst hp hn hx => ?overflow,
    fun hst hp h => ?pushed⟩
  case fault => rw [encCommand_fault hst, refuseEnc_eq_answered]
  case idle =>
    rw [encCommand_outOfSequence (by simp [hst]) (by simp [hst]), raiseEnc_eq_faultedE, faultCode]
  case low =>
    rw [pushPcmByte_low byte hp, encCommand_ok (by simp [hst]) hst, respondOk_zero, setPending]
  case overflow =>
    rw [pushPcmByte_high_error hp (encPush_overflow _ hn hx), encCommand_error (by simp [hst]) hst,
      raiseEnc_eq_faultedE, faultCode]
  case pushed =>
    obtain ⟨t, hpushed, hok⟩ := encPush_encPushed (byte.toInt * 256 + s.enc.hold.toNat) h
    refine ⟨t, hpushed, ?_⟩
    rw [pushPcmByte_high_ok hp hok, encCommand_ok (by simp [hst]) hst, respondOk_zero, setPending]

/-! ### E.END -/

theorem exec_eEnd (s : State) : exec .eEnd s = encCommand .active (endEncStream s) s := rfl

/-- Settles O22, by the three stream states and, in ACTIVE, by whether the partial byte finds an index. -/
theorem eendFlushesClosesAndDiscardsOrFaults : Obligations.EendFlushesClosesAndDiscardsOrFaults := by
  unfold Obligations.EendFlushesClosesAndDiscardsOrFaults
  intro s
  rw [exec_eEnd]
  refine ⟨fun hst => ?fault, fun hst => ?idle, fun hst hn hx => ?overflow, fun hst h => ?ended⟩
  case fault => rw [encCommand_fault hst, refuseEnc_eq_answered]
  case idle =>
    rw [encCommand_outOfSequence (by simp [hst]) (by simp [hst]), raiseEnc_eq_faultedE, faultCode]
  case overflow =>
    rw [endEncStream_overflow hn hx, encCommand_error (by simp [hst]) hst, raiseEnc_eq_faultedE, faultCode]
  case ended =>
    rw [endEncStream_ok h, encCommand_ok (by simp [hst]) hst, respondOk_zero]

/-! ### D.START and D.END -/

/-- The D side in `st` with its codec at `INIT_CS` (R177, R178). -/
theorem setDecSt_setDecCodec_init (st : StreamState) (s : State) :
    setDecSt st (setDecCodec CodecState.init s) =
      { s with dec := { s.dec with codec := { level := 0#8, resp := 0#6, last := false }, st := st } } := rfl

theorem exec_dStart (s : State) :
    exec .dStart s = decCommand .idle (setDecSt .active (setDecCodec CodecState.init s)) s := rfl

theorem exec_dEnd (s : State) :
    exec .dEnd s = decCommand .active (setDecSt .idle (setDecCodec CodecState.init s)) s := rfl

/-- Settles O26, by the three stream states: each command is legal in one and out of sequence in the other's. -/
theorem dstartAndDendOpenAndDiscardOrFault : Obligations.DstartAndDendOpenAndDiscardOrFault := by
  unfold Obligations.DstartAndDendOpenAndDiscardOrFault
  intro s
  rw [exec_dStart, exec_dEnd, setDecSt_setDecCodec_init, setDecSt_setDecCodec_init]
  refine ⟨fun hst => ?fault, fun hst => ?active, fun hst => ?idle⟩
  case fault => rw [decCommand_fault hst, decCommand_fault hst, refuseDec_eq_answered]; exact ⟨rfl, rfl⟩
  case active =>
    rw [decCommand_outOfSequence (by simp [hst]) (by simp [hst]), raiseDec_eq_faultedD, faultCode,
      decCommand_ok (by simp [hst]) hst, respondOk_zero]
    exact ⟨rfl, rfl⟩
  case idle =>
    rw [decCommand_outOfSequence (by simp [hst]) (by simp [hst]), raiseDec_eq_faultedD, faultCode,
      decCommand_ok (by simp [hst]) hst, respondOk_zero]
    exact ⟨rfl, rfl⟩

end Sys2Proof.Machine
end

