-- ==== Sys2Proof/Proofs/FaultsKept.lean ====
section
/-!
RESET alone takes a fault off the record (spec/43_stream.md R171; spec/60_exceptions.md R209): the other commands keep a
side in FAULT with its code, `ILL`, and a configured `E.cb`.
-/

namespace Sys2Proof.Machine

open Claims

/-- What R171 says only RESET clears: in `t` it stands as it stood in `s`. -/
structure KeepsFaults (s t : State) : Prop where
  enc : s.enc.st = .fault → t.enc.st = .fault ∧ t.enc.fcode = s.enc.fcode
  dec : s.dec.st = .fault → t.dec.st = .fault ∧ t.dec.fcode = s.dec.fcode
  ill : s.ill = true → t.ill = true
  cb : s.enc.cb ≠ 0#23 → t.enc.cb ≠ 0#23

section
variable {s t : State}

theorem KeepsFaults.of_registers_eq (henc : t.enc = s.enc) (hdec : t.dec = s.dec) (hill : t.ill = s.ill) :
    KeepsFaults s t where
  enc hst := by rw [henc]; exact ⟨hst, rfl⟩
  dec hst := by rw [hdec]; exact ⟨hst, rfl⟩
  ill h := by rw [hill, h]
  cb h := by rw [henc]; exact h

/-- Outside FAULT a command may write any E register but a configured `E.cb` back to 0. -/
theorem KeepsFaults.of_enc_write (hst : s.enc.st ≠ .fault) (hdec : t.dec = s.dec) (hill : t.ill = s.ill)
    (hcb : s.enc.cb ≠ 0#23 → t.enc.cb ≠ 0#23) : KeepsFaults s t where
  enc h := absurd h hst
  dec h := by rw [hdec]; exact ⟨h, rfl⟩
  ill h := by rw [hill, h]
  cb := hcb

theorem KeepsFaults.of_dec_write (hst : s.dec.st ≠ .fault) (henc : t.enc = s.enc) (hill : t.ill = s.ill) :
    KeepsFaults s t where
  enc h := by rw [henc]; exact ⟨h, rfl⟩
  dec h := absurd h hst
  ill h := by rw [hill, h]
  cb h := by rw [henc]; exact h

/-- An E command keeps the faults if what it does in its own state leaves the D side, `ILL` and a configured `E.cb`. -/
theorem encCommand_keepsFaults {need : StreamState} {body : Except FaultKind State}
    (hbody : ∀ s', body = .ok s' → s'.dec = s.dec ∧ s'.ill = s.ill ∧ (s.enc.cb ≠ 0#23 → s'.enc.cb ≠ 0#23))
    (h : encCommand need body s = .next t) : KeepsFaults s t := by
  obtain ⟨-, rfl⟩ | ⟨hst, -, rfl⟩ | ⟨hst, -, s', hs', rfl⟩ | ⟨hst, -, f, -, rfl⟩ := encCommand_cases h
  · exact .of_registers_eq rfl rfl rfl
  · exact .of_enc_write hst rfl rfl id
  · obtain ⟨hdec, hill, hcb⟩ := hbody s' hs'
    exact .of_enc_write hst hdec hill hcb
  · exact .of_enc_write hst rfl rfl id

/-- An E command whose work stays within the open stream keeps the faults. -/
theorem encCommand_keepsFaults_of_frame {need : StreamState} {body : Except FaultKind State}
    (hbody : ∀ s', body = .ok s' → EncStreamFrame s s') (h : encCommand need body s = .next t) : KeepsFaults s t := by
  refine encCommand_keepsFaults (fun s' hs' => ?_) h
  have hframe := hbody s' hs'
  exact ⟨hframe.dec, hframe.ill, fun hcb => hframe.cb ▸ hcb⟩

/-- A D command keeps the faults if what it does in its own state leaves the E side and `ILL`. -/
theorem decCommand_keepsFaults {need : StreamState} {body : State} (h : decCommand need body s = .next t)
    (henc : body.enc = s.enc) (hill : body.ill = s.ill) : KeepsFaults s t := by
  obtain ⟨-, rfl⟩ | ⟨hst, -, rfl⟩ | ⟨hst, -, rfl⟩ := decCommand_cases h
  · exact .of_registers_eq rfl rfl rfl
  · exact .of_dec_write hst rfl rfl
  · exact .of_dec_write hst henc hill

/-- A positive operand configures `E.cb`, so E.CFG never clears it. -/
theorem tc_ne_zero_of_pos {n : BitVec 24} (hpos : 0 < n.toInt) : tc 23 n.toInt ≠ 0#23 := by
  intro hzero
  have hn := toNat_tc_cfgOperand hpos
  rw [hzero, BitVec.toNat_ofNat] at hn
  omega

/-- Every command but RESET keeps the faults. -/
theorem exec_keepsFaults {i : Instr} (h : exec i s = .next t) (hi : i ≠ .reset) : KeepsFaults s t := by
  cases i with
  | reset => exact absurd rfl hi
  | rdstat => cases h; exact .of_registers_eq rfl rfl rfl
  | eCfg n =>
    rw [exec_eCfg] at h
    refine encCommand_keepsFaults (fun s' hs' => ?_) h
    split at hs'
    case isTrue => cases hs'
    case isFalse hn =>
      cases hs'
      exact ⟨rfl, rfl, fun _ => tc_ne_zero_of_pos (not_le.1 hn)⟩
  | eStart =>
    refine encCommand_keepsFaults (fun s' hs' => ?_) h
    split at hs' <;> cases hs'
    exact ⟨rfl, rfl, id⟩
  | eSamp sample =>
    refine encCommand_keepsFaults_of_frame (fun s' hs' => ?_) h
    split at hs'
    · cases hs'
    · exact encPush_frame hs'
  | ePcmb byte => exact encCommand_keepsFaults_of_frame (fun _ => pushPcmByte_frame) h
  | eEnd => exact encCommand_keepsFaults_of_frame (fun _ => endEncStream_frame) h
  | eRdst => cases h; exact .of_registers_eq rfl rfl rfl
  | dStart => exact decCommand_keepsFaults h rfl rfl
  | dBit bit => exact decCommand_keepsFaults h rfl rfl
  | dByte byte =>
    rw [exec_dByte, foldl_decPush_eq] at h
    exact decCommand_keepsFaults h rfl rfl
  | dEnd => exact decCommand_keepsFaults h rfl rfl
  | dRdst => cases h; exact .of_registers_eq rfl rfl rfl

end

theorem exec_reset (s : State) : exec .reset s = .next (answered 0#32 (hardwareReset s)) := rfl

/-- Settles O14: RESET is the hardware reset and its answer, and the other twelve commands keep the faults. -/
theorem resetCommandClearsEverythingAndAloneClearsFaults :
    Obligations.ResetCommandClearsEverythingAndAloneClearsFaults := by
  unfold Obligations.ResetCommandClearsEverythingAndAloneClearsFaults
  refine ⟨fun s => ?registers, exec_reset, fun i s t h hi => ?others⟩
  case registers =>
    rw [exec_reset]
    rfl
  case others =>
    obtain ⟨henc, hdec, hill, hcb⟩ := exec_keepsFaults h hi
    exact ⟨henc, hdec, hill, hcb⟩

end Sys2Proof.Machine
end

