-- ==== Sys2Proof/Proofs/IllegalWords.lean ====
section
/-!
Words that match no row (spec/30_encoding.md R77; spec/60_exceptions.md R203): what the decoder's answer says of the
word, the step on an illegal word, and why `ILL` stays once it is set.
-/

namespace Sys2Proof.Machine

open Claims

/-! ### What a decoded word tells -/

/-- A word that decodes selects a row of the table, and its command is the one that row builds (R73). -/
theorem decode_ok_row {cw : Word} {i : Instr} (h : decode cw = .ok i) :
    ∃ r ∈ opTable, cw &&& r.mask = r.pattern ∧ r.build cw = i := by
  unfold decode at h
  split at h
  case h_1 r hfind =>
    have hselects : r.selects cw = true := List.find?_some (p := fun r => OpRow.selects r cw) hfind
    exact ⟨r, List.mem_of_find?_eq_some hfind, by simpa [OpRow.selects] using hselects, Except.ok.inj h⟩
  case h_2 => cases h

/-- The statements' rows are the masks and patterns of the decoder's table. -/
theorem commandRows_eq_map_opTable : commandRows = opTable.map fun r => (r.mask, r.pattern) := rfl

theorem legalWord_of_decode_ok {cw : Word} {i : Instr} (h : decode cw = .ok i) : legalWord cw := by
  obtain ⟨r, hr, hselects, -⟩ := decode_ok_row h
  refine ⟨(r.mask, r.pattern), ?_, hselects⟩
  rw [commandRows_eq_map_opTable]
  exact List.mem_map_of_mem hr

/-- One row of the table builds RESET, and its mask leaves no bit of the word free. -/
theorem opTable_reset_row (cw : Word) :
    ∀ r ∈ opTable, r.build cw = .reset → r.mask = BitVec.allOnes 32 ∧ r.pattern = 0x01000000#32 := by
  simp [opTable]

/-- The word of RESET is the only one that decodes to it. -/
theorem eq_of_decode_reset {cw : Word} (h : decode cw = .ok .reset) : cw = 0x01000000#32 := by
  obtain ⟨r, hr, hselects, hbuild⟩ := decode_ok_row h
  obtain ⟨hmask, hpattern⟩ := opTable_reset_row cw r hr hbuild
  rwa [hmask, hpattern, BitVec.and_allOnes] at hselects

/-! ### IllegalCmd -/

theorem raiseIllegal_eq (s : State) :
    raiseIllegal s = { s with ill := true, out := s.out ++ [.rsp 0x30000000#32] } := rfl

theorem step_illegalWord {s : State} {cw : Word} {rest : List HostAction} (hcin : s.cin = .word cw :: rest)
    (hcw : ¬ legalWord cw) : step s = .next (raiseIllegal { s with cin := rest }) := by
  cases hd : decode cw with
  | ok i => exact absurd (legalWord_of_decode_ok hd) hcw
  | error e => simp only [step, takeAction_cons hcin, hd]

/-- A step that takes no reset keeps `ILL` at 1: RESET is the one command that clears it (R209). -/
theorem step_keeps_ill {s t : State} (h : step s = .next t) (hill : s.ill = true)
    (hreset : ∀ a ∈ s.cin.head?, isReset a = false) : t.ill = true := by
  obtain ⟨-, rfl⟩ | ⟨rest, hcin, -⟩ | ⟨cw, rest, i, hcin, hd, hexec⟩ | ⟨cw, rest, e, -, -, rfl⟩ := step_cases h
  · exact hill
  · simp [hcin, isReset] at hreset
  · have hi : i ≠ .reset := by
      rintro rfl
      simp [hcin, isReset, eq_of_decode_reset hd] at hreset
    exact (exec_keepsFaults hexec hi).ill hill
  · rw [raiseIllegal_eq]

/-- Settles O9: the step on a word that does not decode, and the stickiness of `ILL` by the outcomes of a step. -/
theorem illegalWordSetsIllAndNothingElse : Obligations.IllegalWordSetsIllAndNothingElse := by
  unfold Obligations.IllegalWordSetsIllAndNothingElse
  refine ⟨fun s cw rest hcin hcw => ?_, fun s t => step_keeps_ill⟩
  rw [step_illegalWord hcin hcw, raiseIllegal_eq]

end Sys2Proof.Machine
end

