-- ==== Sys2Proof/Proofs/FaultCauses.lean ====
section
/-!
What makes a command raise a fault (spec/60_exceptions.md R200 to R204, R206). Every E command is an `encCommand` and every
D command a `decCommand`, so a side enters FAULT out of sequence or by what the command's own work finds, and no other way.
-/

namespace Sys2Proof.Machine

open Claims

/-! ### The commands as frame and work -/

/-- The stream state in which an E command is legal (spec/43_stream.md R170); read only of E commands. -/
def encNeed : Instr → StreamState
  | .eCfg _ | .eStart => .idle
  | .eSamp _ | .ePcmb _ | .eEnd => .active
  | .reset | .rdstat | .eRdst | .dStart | .dBit _ | .dByte _ | .dEnd | .dRdst => .active

/-- What an E command does where it is legal: the state it leaves or the fault it raises; read only of E commands. -/
def encWork (i : Instr) (s : State) : Except FaultKind State :=
  match i with
  | .eCfg n => if n.toInt ≤ 0 then .error .configFault else .ok (setChunkBytes (tc 23 n.toInt) s)
  | .eStart => if s.enc.cb = 0#23 then .error .configFault else .ok (setEncSt .active (clearEncStream (markStream s)))
  | .eSamp sample => if s.enc.pend then .error .seqFault else encPush sample.toInt s
  | .ePcmb byte => pushPcmByte byte s
  | .eEnd => endEncStream s
  | .reset | .rdstat | .eRdst | .dStart | .dBit _ | .dByte _ | .dEnd | .dRdst => .ok s

theorem encWork_eCfg (n : BitVec 24) (s : State) :
    encWork (.eCfg n) s = if n.toInt ≤ 0 then .error .configFault else .ok (setChunkBytes (tc 23 n.toInt) s) := rfl

theorem encWork_eStart (s : State) :
    encWork .eStart s =
      if s.enc.cb = 0#23 then .error .configFault else .ok (setEncSt .active (clearEncStream (markStream s))) := rfl

theorem encWork_eSamp (sample : SampleWord) (s : State) :
    encWork (.eSamp sample) s = if s.enc.pend then .error .seqFault else encPush sample.toInt s := rfl

theorem encWork_ePcmb (byte : Byte) (s : State) : encWork (.ePcmb byte) s = pushPcmByte byte s := rfl

theorem encWork_eEnd (s : State) : encWork .eEnd s = endEncStream s := rfl

/-- The stream state in which a D command is legal (spec/43_stream.md R170); read only of D commands. -/
def decNeed : Instr → StreamState
  | .dStart => .idle
  | .dBit _ | .dByte _ | .dEnd => .active
  | .reset | .rdstat | .eCfg _ | .eStart | .eSamp _ | .ePcmb _ | .eEnd | .eRdst | .dRdst => .active

/-- The state a D command leaves where it is legal; read only of D commands. -/
def decWork (i : Instr) (s : State) : State :=
  match i with
  | .dStart => setDecSt .active (setDecCodec CodecState.init s)
  | .dBit bit => decPush (decide (bit = 1#1)) s
  | .dByte byte => (unpack byte).foldl (fun t bit => decPush bit t) s
  | .dEnd => setDecSt .idle (setDecCodec CodecState.init s)
  | .reset | .rdstat | .eCfg _ | .eStart | .eSamp _ | .ePcmb _ | .eEnd | .eRdst | .dRdst => s

theorem exec_eStart (s : State) :
    exec .eStart s = encCommand .idle
      (if s.enc.cb = 0#23 then .error .configFault else .ok (setEncSt .active (clearEncStream (markStream s)))) s := rfl

/-- `encNeed` and `encWork` are the two parts of every E command. -/
theorem exec_eq_encCommand {i : Instr} (hi : isEncData i = true) (s : State) :
    exec i s = encCommand (encNeed i) (encWork i s) s := by
  cases i with
  | eCfg n => exact exec_eCfg n s
  | eStart => exact exec_eStart s
  | eSamp sample => exact exec_eSamp sample s
  | ePcmb byte => exact exec_ePcmb byte s
  | eEnd => exact exec_eEnd s
  | _ => cases hi

/-- `decNeed` and `decWork` are the two parts of every D command. -/
theorem exec_eq_decCommand {i : Instr} (hi : isDecData i = true) (s : State) :
    exec i s = decCommand (decNeed i) (decWork i s) s := by
  cases i with
  | dStart => exact exec_dStart s
  | dBit bit => exact exec_dBit bit s
  | dByte byte => exact exec_dByte byte s
  | dEnd => exact exec_dEnd s
  | _ => cases hi

/-- The other four commands write no register of a side, RESET apart. -/
theorem exec_blockOrReadBack {i : Instr} {s t : State} (he : isEncData i = false) (hd : isDecData i = false)
    (h : exec i s = .next t) :
    (t.enc = s.enc ∧ t.dec = s.dec) ∨ (t.enc = EncRegs.reset ∧ t.dec = DecRegs.reset) := by
  cases i with
  | reset => cases h; exact .inr ⟨rfl, rfl⟩
  | rdstat => cases h; exact .inl ⟨rfl, rfl⟩
  | eRdst => cases h; exact .inl ⟨rfl, rfl⟩
  | dRdst => cases h; exact .inl ⟨rfl, rfl⟩
  | eCfg _ | eStart | eSamp _ | ePcmb _ | eEnd => cases he
  | dStart | dBit _ | dByte _ | dEnd => cases hd

/-- Settles O31: the frame of a side's commands looks at FAULT first. -/
theorem sideInFaultOnlyRepeatsItsCode : Obligations.SideInFaultOnlyRepeatsItsCode := by
  unfold Obligations.SideInFaultOnlyRepeatsItsCode
  refine fun i s => ⟨fun hi hst => ?enc, fun hi hst => ?dec⟩
  case enc => rw [exec_eq_encCommand hi, encCommand_fault hst, refuseEnc_eq_answered]
  case dec => rw [exec_eq_decCommand hi, decCommand_fault hst, refuseDec_eq_answered]

/-! ### The faults that the work of an E command finds -/

section
variable {s t : State} {f : FaultKind}

theorem encPush_error_iff_noIndexLeft {sample : Int} :
    encPush sample s = .error f ↔ f = .idxOverflow ∧ s.enc.nbits = 7#3 ∧ noIndexLeft s := by
  rw [encPush_error_iff, indexExhausted_iff_noIndexLeft]

theorem encWork_eCfg_error_iff {n : BitVec 24} :
    encWork (.eCfg n) s = .error f ↔ f = .configFault ∧ n.toInt ≤ 0 := by
  rw [encWork_eCfg]
  split_ifs with hn <;> simp [hn, eq_comm]

theorem encWork_eStart_error_iff : encWork .eStart s = .error f ↔ f = .configFault ∧ s.enc.cb = 0#23 := by
  rw [encWork_eStart]
  split_ifs with hcb <;> simp [hcb, eq_comm]

/-- E.SAMP looks at the pending byte before the index (R206, items 4 and 6). -/
theorem encWork_eSamp_error_iff {sample : SampleWord} :
    encWork (.eSamp sample) s = .error f ↔
      (f = .seqFault ∧ s.enc.pend = true) ∨
      (f = .idxOverflow ∧ s.enc.pend = false ∧ s.enc.nbits = 7#3 ∧ noIndexLeft s) := by
  rw [encWork_eSamp]
  cases hp : s.enc.pend with
  | true => simp [eq_comm]
  | false => simp [encPush_error_iff_noIndexLeft]

theorem encWork_ePcmb_error_iff {byte : Byte} :
    encWork (.ePcmb byte) s = .error f ↔
      f = .idxOverflow ∧ s.enc.pend = true ∧ s.enc.nbits = 7#3 ∧ noIndexLeft s := by
  rw [encWork_ePcmb]
  cases hp : s.enc.pend with
  | false => simp [pushPcmByte_low byte hp]
  | true =>
    by_cases hx : s.enc.nbits = 7#3 ∧ noIndexLeft s
    · rw [pushPcmByte_high_error hp (encPush_overflow _ hx.1 hx.2), and_iff_right rfl, and_iff_left hx,
        Except.error.injEq, eq_comm]
    · obtain ⟨t, -, hok⟩ := encPush_encPushed (byte.toInt * 256 + s.enc.hold.toNat) hx
      simp [pushPcmByte_high_ok hp hok, hx]

theorem encWork_eEnd_error_iff :
    encWork .eEnd s = .error f ↔ f = .idxOverflow ∧ s.enc.nbits ≠ 0#3 ∧ noIndexLeft s := by
  rw [encWork_eEnd]
  by_cases hx : s.enc.nbits ≠ 0#3 ∧ noIndexLeft s
  · rw [endEncStream_overflow hx.1 hx.2, and_iff_left hx, Except.error.injEq, eq_comm]
  · simp [endEncStream_ok hx, hx]

/-- No work of an E command finds an illegal word: that is the decoder's (R203, R206). -/
theorem encWork_error_ne_illegalCmd {i : Instr} (h : encWork i s = .error f) : f ≠ .illegalCmd := by
  cases i with
  | eCfg n => simp [(encWork_eCfg_error_iff.1 h).1]
  | eStart => simp [(encWork_eStart_error_iff.1 h).1]
  | eSamp sample => obtain ⟨rfl, -⟩ | ⟨rfl, -⟩ := encWork_eSamp_error_iff.1 h <;> simp
  | ePcmb byte => simp [(encWork_ePcmb_error_iff.1 h).1]
  | eEnd => simp [(encWork_eEnd_error_iff.1 h).1]
  | _ => cases h

/-! ### Work that completes puts neither side in FAULT -/

theorem setPending_enc_st (b : Byte) (p : Bool) (s : State) : (setPending b p s).enc.st = s.enc.st := rfl

theorem placed_enc_st (B : Byte) (s : State) : (placed B s).enc.st = s.enc.st := by
  unfold placed
  split <;> rfl

theorem EncPushed.enc_st {sample : Int} (h : EncPushed s sample t) : t.enc.st = s.enc.st := by
  obtain ⟨cs', B, -, -, rfl⟩ := h
  split
  · exact placed_enc_st B _
  · rfl

theorem encPush_enc_st {sample : Int} (h : encPush sample s = .ok t) : t.enc.st = s.enc.st := by
  by_cases hx : s.enc.nbits = 7#3 ∧ noIndexLeft s
  · cases (encPush_overflow sample hx.1 hx.2).symm.trans h
  · obtain ⟨t', hpushed, hok⟩ := encPush_encPushed sample hx
    cases hok.symm.trans h
    exact EncPushed.enc_st hpushed

theorem pushPcmByte_enc_st {byte : Byte} (h : pushPcmByte byte s = .ok t) : t.enc.st = s.enc.st := by
  cases hp : s.enc.pend with
  | false => cases (pushPcmByte_low byte hp).symm.trans h; rfl
  | true =>
    cases hpush : encPush (byte.toInt * 256 + s.enc.hold.toNat) s with
    | ok t' =>
      cases (pushPcmByte_high_ok hp hpush).symm.trans h
      exact (setPending_enc_st 0#8 false t').trans (encPush_enc_st hpush)
    | error g => cases (pushPcmByte_high_error hp hpush).symm.trans h

theorem endEncStream_enc_st (h : endEncStream s = .ok t) : t.enc.st = .idle := by
  by_cases hx : s.enc.nbits ≠ 0#3 ∧ noIndexLeft s
  · cases (endEncStream_overflow hx.1 hx.2).symm.trans h
  · cases (endEncStream_ok hx).symm.trans h
    rfl

/-- An E command that completes opens, ends or keeps its stream, and leaves the D side alone. -/
theorem encWork_ok {i : Instr} (hst : s.enc.st ≠ .fault) (h : encWork i s = .ok t) :
    t.enc.st ≠ .fault ∧ t.dec = s.dec := by
  cases i with
  | eCfg n =>
    rw [encWork_eCfg] at h
    split at h <;> cases h
    exact ⟨hst, rfl⟩
  | eStart =>
    rw [encWork_eStart] at h
    split at h <;> cases h
    exact ⟨by simp, rfl⟩
  | eSamp sample =>
    rw [encWork_eSamp] at h
    split at h
    · cases h
    · exact ⟨by rwa [encPush_enc_st h], (encPush_frame h).dec⟩
  | ePcmb byte => exact ⟨by rwa [pushPcmByte_enc_st h], (pushPcmByte_frame h).dec⟩
  | eEnd => exact ⟨by simp [endEncStream_enc_st h], (endEncStream_frame h).dec⟩
  | _ => cases h; exact ⟨hst, rfl⟩

/-- A D command that completes opens, ends or keeps its stream, and leaves the E side alone. -/
theorem decWork_sides {i : Instr} (s : State) (hst : s.dec.st ≠ .fault) :
    (decWork i s).dec.st ≠ .fault ∧ (decWork i s).enc = s.enc := by
  cases i with
  | dStart => exact ⟨by simp [decWork], rfl⟩
  | dByte byte =>
    rw [decWork, foldl_decPush_eq]
    exact ⟨hst, rfl⟩
  | dEnd => exact ⟨by simp [decWork], rfl⟩
  | _ => exact ⟨hst, rfl⟩

end
end Sys2Proof.Machine
end

