-- ==== Sys2Proof/Proofs/FaultEntry.lean ====
section
/-!
How a side enters FAULT (spec/60_exceptions.md R200, R202, R204, R207): each fault of a command is one of its causes, and
each cause gives its fault, with the latch and the report and nothing else.
-/

namespace Sys2Proof.Machine

open Claims

/-- The causes of a fault of the E side: an E command out of sequence, or a fault that its work finds. -/
def EncRaises (i : Instr) (s : State) (f : FaultKind) : Prop :=
  isEncData i = true ∧
    ((s.enc.st ≠ encNeed i ∧ f = .seqFault) ∨ (s.enc.st = encNeed i ∧ encWork i s = .error f))

/-- The one cause of a fault of the D side: a D command out of sequence. -/
def DecRaises (i : Instr) (s : State) : Prop := isDecData i = true ∧ s.dec.st ≠ decNeed i

section
variable {i : Instr} {s t : State}

/-! ### A cause gives its fault -/

theorem EncRaises.exec_eq {f : FaultKind} (hst : s.enc.st ≠ .fault) (h : EncRaises i s f) :
    exec i s = .next (faultedE (faultCode f) s) := by
  obtain ⟨hi, ⟨hneed, rfl⟩ | ⟨hneed, hwork⟩⟩ := h
  · rw [exec_eq_encCommand hi, encCommand_outOfSequence hst hneed, raiseEnc_eq_faultedE]
  · rw [exec_eq_encCommand hi, hwork, encCommand_error hst hneed, raiseEnc_eq_faultedE]

theorem DecRaises.exec_eq (hst : s.dec.st ≠ .fault) (h : DecRaises i s) :
    exec i s = .next (faultedD (faultCode .seqFault) s) := by
  rw [exec_eq_decCommand h.1, decCommand_outOfSequence hst h.2, raiseDec_eq_faultedD]

/-! ### A fault has a cause -/

theorem exec_dec_of_isEncData (hi : isEncData i = true) (h : exec i s = .next t) : t.dec = s.dec := by
  rw [exec_eq_encCommand hi] at h
  obtain ⟨-, rfl⟩ | ⟨-, -, rfl⟩ | ⟨hst, -, s', hs', rfl⟩ | ⟨-, -, f, -, rfl⟩ := encCommand_cases h
  · rfl
  · rfl
  · exact (encWork_ok hst hs').2
  · rfl

theorem exec_enc_of_isDecData (hi : isDecData i = true) (h : exec i s = .next t) : t.enc = s.enc := by
  rw [exec_eq_decCommand hi] at h
  obtain ⟨-, rfl⟩ | ⟨-, -, rfl⟩ | ⟨hst, -, rfl⟩ := decCommand_cases h
  · rfl
  · rfl
  · exact (decWork_sides s hst).2

/-- A command that leaves the E side in FAULT, which it was not in before, is one with a cause to (R207). -/
theorem exec_enc_fault_cause (h : exec i s = .next t) (hs : s.enc.st ≠ .fault) (ht : t.enc.st = .fault) :
    ∃ f, EncRaises i s f ∧ t = faultedE (faultCode f) s := by
  cases he : isEncData i with
  | true =>
    rw [exec_eq_encCommand he] at h
    obtain ⟨hst, -⟩ | ⟨-, hneed, rfl⟩ | ⟨-, -, s', hs', rfl⟩ | ⟨-, hneed, f, hf, rfl⟩ := encCommand_cases h
    · exact absurd hst hs
    · exact ⟨.seqFault, ⟨he, .inl ⟨hneed, rfl⟩⟩, raiseEnc_eq_faultedE _ s⟩
    · exact absurd ht (encWork_ok hs hs').1
    · exact ⟨f, ⟨he, .inr ⟨hneed, hf⟩⟩, raiseEnc_eq_faultedE f s⟩
  | false =>
    exfalso
    cases hd : isDecData i with
    | true => exact hs (exec_enc_of_isDecData hd h ▸ ht)
    | false =>
      obtain ⟨henc, -⟩ | ⟨henc, -⟩ := exec_blockOrReadBack he hd h
      · exact hs (henc ▸ ht)
      · rw [henc] at ht
        cases ht

/-- A command that leaves the D side in FAULT, which it was not in before, is one out of sequence (R207). -/
theorem exec_dec_fault_cause (h : exec i s = .next t) (hs : s.dec.st ≠ .fault) (ht : t.dec.st = .fault) :
    DecRaises i s ∧ t = faultedD (faultCode .seqFault) s := by
  cases hd : isDecData i with
  | true =>
    rw [exec_eq_decCommand hd] at h
    obtain ⟨hst, -⟩ | ⟨-, hneed, rfl⟩ | ⟨-, -, rfl⟩ := decCommand_cases h
    · exact absurd hst hs
    · exact ⟨⟨hd, hneed⟩, raiseDec_eq_faultedD _ s⟩
    · exact absurd ht (decWork_sides s hs).1
  | false =>
    exfalso
    cases he : isEncData i with
    | true => exact hs (exec_dec_of_isEncData he h ▸ ht)
    | false =>
      obtain ⟨-, hdec⟩ | ⟨-, hdec⟩ := exec_blockOrReadBack he hd h
      · exact hs (hdec ▸ ht)
      · rw [hdec] at ht
        cases ht

/-! ### Exactly when -/

theorem faultCode_injective : Function.Injective faultCode := by
  intro f g h
  revert h
  cases f <;> cases g <;> decide

theorem exec_eq_faultedE_iff {f : FaultKind} (hst : s.enc.st ≠ .fault) :
    exec i s = .next (faultedE (faultCode f) s) ↔ EncRaises i s f := by
  refine ⟨fun h => ?_, EncRaises.exec_eq hst⟩
  obtain ⟨g, hg, heq⟩ := exec_enc_fault_cause h hst rfl
  have hcode : faultCode f = faultCode g := congrArg (fun u : State => u.enc.fcode) heq
  rwa [faultCode_injective hcode]

theorem exec_eq_faultedD_iff (hst : s.dec.st ≠ .fault) :
    exec i s = .next (faultedD (faultCode .seqFault) s) ↔ DecRaises i s :=
  ⟨fun h => (exec_dec_fault_cause h hst rfl).1, DecRaises.exec_eq hst⟩

/-- Outside FAULT a side is IDLE or ACTIVE, so not to be in one is to be in the other (R31). -/
theorem StreamState.ne_active_iff {st : StreamState} (h : st ≠ .fault) : st ≠ .active ↔ st = .idle := by
  cases st <;> simp at h ⊢

theorem StreamState.ne_idle_iff {st : StreamState} (h : st ≠ .fault) : st ≠ .idle ↔ st = .active := by
  cases st <;> simp at h ⊢

/-- The SeqFaults of the E side, as R202 lists them. -/
theorem encRaises_seqFault_iff (hst : s.enc.st ≠ .fault) :
    EncRaises i s .seqFault ↔
      (s.enc.st = .idle ∧ ((∃ v, i = .eSamp v) ∨ (∃ b, i = .ePcmb b) ∨ i = .eEnd)) ∨
      (s.enc.st = .active ∧ (i = .eStart ∨ ∃ n, i = .eCfg n)) ∨
      (s.enc.st = .active ∧ s.enc.pend = true ∧ ∃ v, i = .eSamp v) := by
  have hidle := StreamState.ne_idle_iff hst
  have hactive := StreamState.ne_active_iff hst
  cases i with
  | eCfg n => simp [EncRaises, isEncData, encNeed, encWork_eCfg_error_iff, hidle]
  | eStart => simp [EncRaises, isEncData, encNeed, encWork_eStart_error_iff, hidle]
  | eSamp sample => simp [EncRaises, isEncData, encNeed, encWork_eSamp_error_iff, hactive]
  | ePcmb byte => simp [EncRaises, isEncData, encNeed, encWork_ePcmb_error_iff, hactive]
  | eEnd => simp [EncRaises, isEncData, encNeed, encWork_eEnd_error_iff, hactive]
  | _ => simp [EncRaises, isEncData]

/-- The SeqFaults of the D side, as R202 lists them. -/
theorem decRaises_iff (hst : s.dec.st ≠ .fault) :
    DecRaises i s ↔
      (s.dec.st = .idle ∧ ((∃ b, i = .dBit b) ∨ (∃ b, i = .dByte b) ∨ i = .dEnd)) ∨
      (s.dec.st = .active ∧ i = .dStart) := by
  have hidle := StreamState.ne_idle_iff hst
  have hactive := StreamState.ne_active_iff hst
  cases i with
  | dStart => simp [DecRaises, isDecData, decNeed, hidle]
  | dBit bit => simp [DecRaises, isDecData, decNeed, hactive]
  | dByte byte => simp [DecRaises, isDecData, decNeed, hactive]
  | dEnd => simp [DecRaises, isDecData, decNeed, hactive]
  | _ => simp [DecRaises, isDecData]

/-- The IdxOverflows, as R204 lists them: the three commands that may place a byte, in the stream state they need. -/
theorem encRaises_idxOverflow_iff :
    EncRaises i s .idxOverflow ↔
      s.enc.st = .active ∧ noIndexLeft s ∧
        (((∃ v, i = .eSamp v) ∧ s.enc.pend = false ∧ s.enc.nbits = 7#3) ∨
         ((∃ b, i = .ePcmb b) ∧ s.enc.pend = true ∧ s.enc.nbits = 7#3) ∨
         (i = .eEnd ∧ s.enc.nbits ≠ 0#3)) := by
  cases i with
  | eCfg n => simp [EncRaises, isEncData, encNeed, encWork_eCfg_error_iff]
  | eStart => simp [EncRaises, isEncData, encNeed, encWork_eStart_error_iff]
  | eSamp sample => simp [EncRaises, isEncData, encNeed, encWork_eSamp_error_iff, and_assoc, and_comm, and_left_comm]
  | ePcmb byte => simp [EncRaises, isEncData, encNeed, encWork_ePcmb_error_iff, and_assoc, and_comm, and_left_comm]
  | eEnd => simp [EncRaises, isEncData, encNeed, encWork_eEnd_error_iff, and_comm, and_left_comm]
  | _ => simp [EncRaises, isEncData]

end

/-- Settles O30: a side that has entered FAULT did so for a cause, and no cause of the E side is IllegalCmd. -/
theorem faultEntryChangesNothingButTheLatch : Obligations.FaultEntryChangesNothingButTheLatch := by
  unfold Obligations.FaultEntryChangesNothingButTheLatch
  intro i s t h
  refine ⟨fun hs ht => ?enc, fun hs ht => (exec_dec_fault_cause h hs ht).2⟩
  case enc =>
    obtain ⟨f, hf, rfl⟩ := exec_enc_fault_cause h hs ht
    refine ⟨faultCode f, ?_, rfl⟩
    cases f with
    | configFault => exact .inl rfl
    | seqFault => exact .inr (.inl rfl)
    | idxOverflow => exact .inr (.inr rfl)
    | illegalCmd =>
      obtain ⟨-, ⟨-, hseq⟩ | ⟨-, hwork⟩⟩ := hf
      · cases hseq
      · exact absurd rfl (encWork_error_ne_illegalCmd hwork)

/-- Settles O32: code 2 is latched exactly for a cause of a SeqFault, and the causes are those of R202. -/
theorem seqFaultExactlyOutOfSequence : Obligations.SeqFaultExactlyOutOfSequence := by
  unfold Obligations.SeqFaultExactlyOutOfSequence
  exact fun i s =>
    ⟨fun hst => (exec_eq_faultedE_iff (f := .seqFault) hst).trans (encRaises_seqFault_iff hst),
     fun hst => (exec_eq_faultedD_iff hst).trans (decRaises_iff hst)⟩

/-- Settles O33: code 4 is latched exactly for a cause of an IdxOverflow, and the causes are those of R204. -/
theorem idxOverflowExactlyWhenNoIndexIsLeft : Obligations.IdxOverflowExactlyWhenNoIndexIsLeft := by
  unfold Obligations.IdxOverflowExactlyWhenNoIndexIsLeft
  exact fun i s hst => (exec_eq_faultedE_iff (f := .idxOverflow) hst).trans encRaises_idxOverflow_iff

end Sys2Proof.Machine
end

