-- ==== Sys2Proof/Proofs/TwoResets.lean ====
section
/-!
The two ways to the reset state (spec/70_reset_and_hazards.md R231): the step on the hardware reset input, and the step on
a word that decodes, of which RESET is the case that resets.
-/

namespace Sys2Proof.Machine

open Claims

/-- The pin's effect by the registers of the state after reset (R230). -/
theorem hardwareReset_eq (s : State) :
    hardwareReset s = { s with enc := State.reset.enc, dec := State.reset.dec, ill := State.reset.ill } := rfl

theorem step_hardwareReset {s : State} {rest : List HostAction} (hcin : s.cin = .hardwareReset :: rest) :
    step s = .next (hardwareReset { s with cin := rest }) := by
  simp only [step, takeAction_cons hcin]

theorem step_decodedWord {s : State} {cw : Word} {rest : List HostAction} {i : Instr}
    (hcin : s.cin = .word cw :: rest) (hd : decode cw = .ok i) : step s = exec i { s with cin := rest } := by
  simp only [step, takeAction_cons hcin, hd]

theorem decode_resetWord : decode 0x01000000#32 = .ok .reset := rfl

/-- The word of RESET does what the pin does, and then answers. -/
theorem step_resetWord {s : State} {rest : List HostAction} (hcin : s.cin = .word 0x01000000#32 :: rest) :
    step s = .next (answered 0#32 (hardwareReset { s with cin := rest })) := by
  rw [step_decodedWord hcin decode_resetWord, exec_reset]

/-- Settles O10: both steps end in the hardware reset of the same state, the word's with an answer after it. -/
theorem hardwareResetDiffersFromResetOnlyInTheResponse :
    Obligations.HardwareResetDiffersFromResetOnlyInTheResponse := by
  unfold Obligations.HardwareResetDiffersFromResetOnlyInTheResponse
  intro s rest
  refine ⟨fun hpin => ?pin, fun hword => ?word⟩
  case pin => rw [step_hardwareReset hpin, hardwareReset_eq]
  case word => rw [step_resetWord hword, hardwareReset_eq, answered]

end Sys2Proof.Machine
end

