-- ==== Sys2Proof/Proofs/Decoder.lean ====
section
/-!
The decoder and the encoder against the opcode map (spec/30_encoding.md R70 to R73, R77 to R79): a row of the table
fixes the word's upper bits and leaves the operand field free, the rows exclude each other, and so decoding and
encoding are inverse.
-/

namespace Sys2Proof.Machine

open Claims

/-! ### The word of each command with an operand: fixed bits above the operand field (R70) -/

theorem encode_eCfg (n : BitVec 24) : encode (.eCfg n) = 0x10#8 ++ n := rfl

theorem encode_eSamp (sample : SampleWord) : encode (.eSamp sample) = 0x1200#16 ++ sample :=
  (BitVec.append_assoc (x₁ := 0x12#8) (x₂ := 0#8) (x₃ := sample)).symm

theorem encode_ePcmb (byte : Byte) : encode (.ePcmb byte) = 0x130000#24 ++ byte :=
  (BitVec.append_assoc (x₁ := 0x13#8) (x₂ := 0#16) (x₃ := byte)).symm

theorem encode_dBit (bit : BitVec 1) : encode (.dBit bit) = 0x10800000#31 ++ bit :=
  (BitVec.append_assoc (x₁ := 0x21#8) (x₂ := 0#23) (x₃ := bit)).symm

theorem encode_dByte (byte : Byte) : encode (.dByte byte) = 0x220000#24 ++ byte :=
  (BitVec.append_assoc (x₁ := 0x22#8) (x₂ := 0#16) (x₃ := byte)).symm

/-! ### What a mask of leading ones tells of a word -/

/-- A word keeps its upper bits and loses its operand under the mask of a row. -/
theorem append_and_leadingOnes {m w : Nat} (hi : BitVec m) (lo : BitVec w) :
    (hi ++ lo) &&& (BitVec.allOnes m ++ 0#w) = hi ++ 0#w := by
  rw [BitVec.and_append, BitVec.and_allOnes, BitVec.and_zero]

/-- A word with the upper bits of a row is put together from them and its operand field. -/
theorem eq_append_of_and_leadingOnes {m w : Nat} {hi : BitVec m} {cw : BitVec (m + w)}
    (h : cw &&& (BitVec.allOnes m ++ 0#w) = hi ++ 0#w) : hi ++ cw.extractLsb' 0 w = cw := by
  have hcw : cw.extractLsb' w m ++ cw.extractLsb' 0 w = cw := BitVec.extractLsb'_append_extractLsb'
  rw [← hcw, append_and_leadingOnes, BitVec.append_left_inj] at h
  rw [← h, hcw]

/-! ### The rows of the table exclude each other -/

/-- Two rows whose patterns agree where both masks look are one row. -/
theorem commandRows_exclusive :
    ∀ r ∈ commandRows, ∀ q ∈ commandRows, r.2 &&& q.1 = q.2 &&& r.1 → r = q := by
  simp [commandRows]

/-- No word matches two rows (R73, R77). -/
theorem commandRows_eq_of_match {r q : Word × Word} {cw : Word} (hr : r ∈ commandRows) (hq : q ∈ commandRows)
    (hcr : cw &&& r.1 = r.2) (hcq : cw &&& q.1 = q.2) : r = q := by
  refine commandRows_exclusive r hr q hq ?_
  rw [← hcr, ← hcq, BitVec.and_assoc, BitVec.and_assoc, BitVec.and_comm r.1]

theorem commandRows_nodup : commandRows.Nodup := by decide

theorem opTable_eq_of_match {r q : OpRow} {cw : Word} (hr : r ∈ opTable) (hq : q ∈ opTable)
    (hcr : cw &&& r.mask = r.pattern) (hcq : cw &&& q.mask = q.pattern) : r = q := by
  have hmem {p : OpRow} (hp : p ∈ opTable) : (p.mask, p.pattern) ∈ commandRows := by
    rw [commandRows_eq_map_opTable]
    exact List.mem_map_of_mem hp
  have hnodup := commandRows_eq_map_opTable ▸ commandRows_nodup
  exact List.inj_on_of_nodup_map hnodup hr hq (commandRows_eq_of_match (hmem hr) (hmem hq) hcr hcq)

/-- A word that matches a row of the table decodes to the command the row builds. -/
theorem decode_of_match {r : OpRow} {cw : Word} (hr : r ∈ opTable) (hcw : cw &&& r.mask = r.pattern) :
    decode cw = .ok (r.build cw) := by
  cases hd : decode cw with
  | ok i =>
    obtain ⟨q, hq, hcq, rfl⟩ := decode_ok_row hd
    rw [opTable_eq_of_match hr hq hcw hcq]
  | error e =>
    unfold decode at hd
    split at hd
    · cases hd
    · have hnone := List.find?_eq_none.1 ‹opTable.find? _ = none› r hr
      simp [OpRow.selects, hcw] at hnone

/-- The words that decode are those that match a row. -/
theorem decode_ok_iff_legalWord (cw : Word) : (∃ i, decode cw = .ok i) ↔ legalWord cw := by
  refine ⟨fun ⟨i, hi⟩ => legalWord_of_decode_ok hi, fun ⟨p, hp, hcw⟩ => ?_⟩
  rw [commandRows_eq_map_opTable] at hp
  obtain ⟨r, hr, rfl⟩ := List.mem_map.1 hp
  exact ⟨_, decode_of_match hr hcw⟩

/-! ### Encoding and decoding are inverse -/

/-- The word of a command matches a row that builds the command. -/
theorem encode_matches (i : Instr) : ∃ r ∈ opTable, encode i &&& r.mask = r.pattern ∧ r.build (encode i) = i := by
  cases i with
  | eCfg n =>
    refine ⟨opTable[2], List.getElem_mem _, ?_⟩
    rw [encode_eCfg]
    exact ⟨append_and_leadingOnes _ n, congrArg Instr.eCfg BitVec.extractLsb'_append_eq_right⟩
  | eSamp sample =>
    refine ⟨opTable[4], List.getElem_mem _, ?_⟩
    rw [encode_eSamp]
    exact ⟨append_and_leadingOnes _ sample, congrArg Instr.eSamp BitVec.extractLsb'_append_eq_right⟩
  | ePcmb byte =>
    refine ⟨opTable[5], List.getElem_mem _, ?_⟩
    rw [encode_ePcmb]
    exact ⟨append_and_leadingOnes _ byte, congrArg Instr.ePcmb BitVec.extractLsb'_append_eq_right⟩
  | dBit bit =>
    refine ⟨opTable[9], List.getElem_mem _, ?_⟩
    rw [encode_dBit]
    exact ⟨append_and_leadingOnes _ bit, congrArg Instr.dBit BitVec.extractLsb'_append_eq_right⟩
  | dByte byte =>
    refine ⟨opTable[10], List.getElem_mem _, ?_⟩
    rw [encode_dByte]
    exact ⟨append_and_leadingOnes _ byte, congrArg Instr.dByte BitVec.extractLsb'_append_eq_right⟩
  | reset => exact ⟨opTable[0], List.getElem_mem _, rfl, rfl⟩
  | rdstat => exact ⟨opTable[1], List.getElem_mem _, rfl, rfl⟩
  | eStart => exact ⟨opTable[3], List.getElem_mem _, rfl, rfl⟩
  | eEnd => exact ⟨opTable[6], List.getElem_mem _, rfl, rfl⟩
  | eRdst => exact ⟨opTable[7], List.getElem_mem _, rfl, rfl⟩
  | dStart => exact ⟨opTable[8], List.getElem_mem _, rfl, rfl⟩
  | dEnd => exact ⟨opTable[11], List.getElem_mem _, rfl, rfl⟩
  | dRdst => exact ⟨opTable[12], List.getElem_mem _, rfl, rfl⟩

theorem decode_encode (i : Instr) : decode (encode i) = .ok i := by
  obtain ⟨r, hr, hmatch, hbuild⟩ := encode_matches i
  rw [decode_of_match hr hmatch, hbuild]

/-- A word written out as a number decodes to the command it is the word of. -/
theorem decode_of_eq_encode {i : Instr} {p cw : Word} (hp : encode i = p) (hcw : cw = p) : decode cw = .ok i := by
  rw [hcw, ← hp, decode_encode]

/-- A row of the table builds from a word that matches it the command of that word: the mask leaves only the operand
field free, and `build` reads all of it. -/
theorem encode_build_of_match (cw : Word) : ∀ r ∈ opTable, cw &&& r.mask = r.pattern → encode (r.build cw) = cw := by
  have hfixed {i : Instr} {p : Word} (hp : encode i = p) (h : cw &&& BitVec.allOnes 32 = p) : encode i = cw := by
    rw [hp, ← h, BitVec.and_allOnes]
  simp only [opTable, List.forall_mem_cons]
  exact
    ⟨hfixed rfl, hfixed rfl,
     fun h => eq_append_of_and_leadingOnes (m := 8) (w := 24) (hi := 0x10#8) h, hfixed rfl,
     fun h => (encode_eSamp _).trans (eq_append_of_and_leadingOnes (m := 16) (w := 16) h),
     fun h => (encode_ePcmb _).trans (eq_append_of_and_leadingOnes (m := 24) (w := 8) h), hfixed rfl, hfixed rfl,
     hfixed rfl, fun h => (encode_dBit _).trans (eq_append_of_and_leadingOnes (m := 31) (w := 1) h),
     fun h => (encode_dByte _).trans (eq_append_of_and_leadingOnes (m := 24) (w := 8) h), hfixed rfl, hfixed rfl,
     List.forall_mem_nil _⟩

theorem encode_of_decode {cw : Word} {i : Instr} (h : decode cw = .ok i) : encode i = cw := by
  obtain ⟨r, hr, hmatch, rfl⟩ := decode_ok_row h
  exact encode_build_of_match cw r hr hmatch

/-- Settles O2: the word of a command matches the row that builds it, and no other row. -/
theorem decodeOfEncodeIsTheCommand : Obligations.DecodeOfEncodeIsTheCommand := by
  unfold Obligations.DecodeOfEncodeIsTheCommand
  exact decode_encode

/-- Settles O3, by the row of the table that the word matches. -/
theorem encodeOfDecodeIsTheWord : Obligations.EncodeOfDecodeIsTheWord := by
  unfold Obligations.EncodeOfDecodeIsTheWord
  exact fun _ _ => encode_of_decode

/-- Settles O4: the statement's rows are the table's. -/
theorem wordsOutsideTheTableDoNotDecode : Obligations.WordsOutsideTheTableDoNotDecode := by
  unfold Obligations.WordsOutsideTheTableDoNotDecode
  exact decode_ok_iff_legalWord

/-- Settles O1: a row without an operand is one word, a row with one is matched under its mask. -/
theorem wordsOfTheTableDecodeToTheirCommand : Obligations.WordsOfTheTableDecodeToTheirCommand := by
  unfold Obligations.WordsOfTheTableDecodeToTheirCommand
  have hrow (k : Nat) (hk : k < opTable.length) {cw : Word} (h : cw &&& opTable[k].mask = opTable[k].pattern) :
      decode cw = .ok (opTable[k].build cw) := decode_of_match (List.getElem_mem hk) h
  exact fun cw =>
    ⟨decode_of_eq_encode rfl, decode_of_eq_encode rfl, hrow 2 (by decide), decode_of_eq_encode rfl, hrow 4 (by decide),
     hrow 5 (by decide), decode_of_eq_encode rfl, decode_of_eq_encode rfl, decode_of_eq_encode rfl, hrow 9 (by decide),
     hrow 10 (by decide), decode_of_eq_encode rfl, decode_of_eq_encode rfl,
     fun _ hr _ hq => commandRows_eq_of_match hr hq⟩

/-- Settles O5: six are the words of their commands; of the two that match no row, one has a row's opcode byte. -/
theorem wordsOfTheSpecDecode : Obligations.WordsOfTheSpecDecode := by
  unfold Obligations.WordsOfTheSpecDecode
  exact ⟨decode_of_eq_encode rfl rfl, decode_of_eq_encode rfl rfl, decode_of_eq_encode rfl rfl,
    decode_of_eq_encode rfl rfl, decode_of_eq_encode rfl rfl, decode_of_eq_encode rfl rfl, rfl, rfl⟩

/-! ### Signed operands of an assembler line (R72, R79) -/

theorem toInt_tc {w : Nat} {i : Int} (hw : 0 < w) (hlo : -2 ^ (w - 1) ≤ i) (hhi : i < 2 ^ (w - 1)) :
    (tc w i).toInt = i := BitVec.toInt_ofInt_eq_self hw hlo hhi

/-- A word whose operand is `tc_w(i)` counts its fixed bits and then `i mod 2^w`. -/
theorem toNat_append_tc {m w : Nat} (hi : BitVec m) (i : Int) :
    (hi ++ tc w i).toNat = hi.toNat * 2 ^ w + (i % 2 ^ w).toNat := by
  rw [toNat_append_eq_add, tc, BitVec.toNat_ofInt]
  norm_cast

theorem within_dec_iff {lo hi v : Int} : (Literal.dec v).within lo hi = true ↔ lo ≤ v ∧ v ≤ hi := by
  rw [show (Literal.dec v).within lo hi = (decide (lo ≤ v) && decide (v ≤ hi)) from rfl, Bool.and_eq_true,
    decide_eq_true_iff, decide_eq_true_iff]

theorem assembleLine_eCfg_of_range {n : Int} (hlo : -8388608 ≤ n) (hhi : n ≤ 8388607) :
    assembleLine (.eCfg (.dec n)) = some [.eCfg (tc 24 n)] := by
  simp [assembleLine, AsmLine.wellFormed, within_dec_iff, Literal.value, expandLine, hlo, hhi]

theorem assembleLine_eSamp_of_range {v : Int} (hlo : -32768 ≤ v) (hhi : v ≤ 32767) :
    assembleLine (.eSamp (.dec v)) = some [.eSamp (tc 16 v)] := by
  simp [assembleLine, AsmLine.wellFormed, Literal.isSample, expandLine, samplePattern, hlo, hhi]

theorem assembleLine_eCfg_eq_none {n : Int} (h : n < -8388608 ∨ 8388607 < n) :
    assembleLine (.eCfg (.dec n)) = none := by
  rw [assembleLine, if_neg]
  simp only [AsmLine.wellFormed, within_dec_iff]
  omega

theorem assembleLine_eSamp_eq_none {v : Int} (h : v < -32768 ∨ 32767 < v) :
    assembleLine (.eSamp (.dec v)) = none := by
  rw [assembleLine, if_neg]
  simp only [AsmLine.wellFormed, Literal.isSample, Bool.and_eq_true, decide_eq_true_iff]
  omega

/-- Settles O6: in range the operand survives its field and the word decodes to it; out of range the line has no word.
-/
theorem assembledOperandsAreReadBack : Obligations.AssembledOperandsAreReadBack := by
  unfold Obligations.AssembledOperandsAreReadBack
  refine ⟨fun n hlo hhi => ?eCfg, fun v hlo hhi => ?eSamp, fun _ => assembleLine_eCfg_eq_none,
    fun _ => assembleLine_eSamp_eq_none⟩
  case eCfg =>
    refine ⟨_, assembleLine_eCfg_of_range hlo hhi, ?_, _, decode_encode _, ?_⟩
    · rw [encode_eCfg, toNat_append_tc]
      rfl
    · rw [cfgOperand, sext_eq_toInt, toInt_tc (by decide) hlo (by omega)]
  case eSamp =>
    refine ⟨_, assembleLine_eSamp_of_range hlo hhi, ?_, _, decode_encode _, ?_⟩
    · rw [encode_eSamp, toNat_append_tc]
      rfl
    · rw [sampleOperand, sext_eq_toInt, toInt_tc (by decide) hlo (by omega)]

end Sys2Proof.Machine
end

