-- ==== Sys2Proof/Proofs/Effects.lean ====
section
/-!
What a command does, by the registers of its side alone (spec/10_state.md R20): the registers it leaves, the events it
puts on its port and the word it answers, with one rule per outcome. Every command of a side is one of these outcomes,
the same in every state that has those registers, and touches nothing else.
-/

namespace Sys2Proof.Machine

open Claims

/-! ### The encode side's procedures on its registers -/

/-- The index of the chunk that takes the next byte (R152). -/
def nextIdx (e : EncRegs) : Nat := if e.pos = 0#23 then e.idx + 1 else e.idx

/-- Where the byte after the next one goes: further in the chunk, or to the start of another when this one is full
(R152). -/
def nextPos (e : EncRegs) : BitVec 23 := if e.pos + 1#23 = e.cb then 0#23 else e.pos + 1#23

/-- No index is left for the chunk that the next byte would open (R204). -/
def IndexGone (c : Config) (e : EncRegs) : Prop := e.pos = 0#23 ∧ e.idx = 2 ^ c.idxW - 1

/-- The registers after SeqByte (R152). -/
def placeRegs (e : EncRegs) : EncRegs := { e with idx := nextIdx e, pos := nextPos e }

/-- The events of SeqByte (R152). -/
def placeEvents (B : Byte) (e : EncRegs) : List EoutEvent :=
  if e.pos + 1#23 = e.cb then [.byte (nextIdx e) e.pos B, .cend (nextIdx e) e.cb] else [.byte (nextIdx e) e.pos B]

/-- The packer's byte with one more decision in it (R130). -/
def packByte (bit : Bool) (e : EncRegs) : Byte := e.acc ||| bitByte bit <<< e.nbits.toNat

/-- The registers after the quantiser and the packer have taken a decision (R106, R130). -/
def packRegs (bit : Bool) (e : EncRegs) : EncRegs :=
  if e.nbits = 7#3 then { e with codec := update e.codec bit, acc := 0#8, nbits := 0#3 }
  else { e with codec := update e.codec bit, acc := packByte bit e, nbits := e.nbits + 1#3 }

/-- The registers after EncPush (R117). -/
def pushRegs (bit : Bool) (e : EncRegs) : EncRegs :=
  if e.nbits = 7#3 then placeRegs (packRegs bit e) else packRegs bit e

/-- The events of EncPush (R117). -/
def pushEvents (bit : Bool) (e : EncRegs) : List EoutEvent :=
  if e.nbits = 7#3 then placeEvents (packByte bit e) e else []

/-- The registers after the packer's partial byte has gone out (R176, item 2). -/
def flushRegs (e : EncRegs) : EncRegs := if e.nbits = 0#3 then e else placeRegs e

/-- The events of the packer's partial byte (R176, item 2). -/
def flushEvents (e : EncRegs) : List EoutEvent := if e.nbits = 0#3 then [] else placeEvents e.acc e

/-- The events of SeqClose (R153). -/
def closeEvents (e : EncRegs) : List EoutEvent := if e.pos = 0#23 then [] else [.cend e.idx e.pos]

/-- The registers with the assembler's byte and flag set (R175). -/
def pendRegs (b : Byte) (p : Bool) (e : EncRegs) : EncRegs := { e with hold := b, pend := p }

/-- The registers of a stream that has just been opened or ended (R173, R176). -/
def freshRegs (st : StreamState) (e : EncRegs) : EncRegs :=
  { codec := CodecState.init, hold := 0#8, pend := false, acc := 0#8, nbits := 0#3, cb := e.cb, pos := 0#23, idx := 0,
    st := st, fcode := e.fcode }

theorem packRegs_st (bit : Bool) (e : EncRegs) : (packRegs bit e).st = e.st := by
  unfold packRegs
  split <;> rfl

theorem pushRegs_st (bit : Bool) (e : EncRegs) : (pushRegs bit e).st = e.st := by
  unfold pushRegs
  split <;> exact packRegs_st bit e

/-! ### They are the model's procedures -/

/-- `s` with the E side's registers `e` and `evs` gone out on EOUT. -/
def encMoved (e : EncRegs) (evs : List EoutEvent) (s : State) : State :=
  { s with enc := e, out := s.out ++ evs.map .eout }

/-- `s` with the D side's registers `d` and `outs` gone out on DOUT. -/
def decMoved (d : DecRegs) (outs : List SampleWord) (s : State) : State :=
  { s with dec := d, out := s.out ++ outs.map .dout }

theorem encMoved_encMoved (e e' : EncRegs) (evs evs' : List EoutEvent) (s : State) :
    encMoved e' evs' (encMoved e evs s) = encMoved e' (evs ++ evs') s := by
  simp [encMoved]

theorem encMoved_nil (e : EncRegs) (s : State) : encMoved e [] s = { s with enc := e } := by simp [encMoved]

theorem encMoved_self (s : State) : encMoved s.enc [] s = s := encMoved_nil s.enc s

theorem placed_eq_encMoved (B : Byte) (s : State) :
    placed B s = encMoved (placeRegs s.enc) (placeEvents B s.enc) s := by
  by_cases h : s.enc.pos + 1#23 = s.enc.cb
  · simp only [placed, encMoved, placeRegs, placeEvents, nextPos, if_pos h]
    rfl
  · simp only [placed, encMoved, placeRegs, placeEvents, nextPos, if_neg h]
    rfl

theorem flushed_eq_encMoved (s : State) : flushed s = encMoved (flushRegs s.enc) (flushEvents s.enc) s := by
  by_cases h : s.enc.nbits = 0#3
  · rw [flushed, flushRegs, flushEvents, if_pos h, if_pos h, if_pos h, encMoved_self]
  · rw [flushed, flushRegs, flushEvents, if_neg h, if_neg h, if_neg h, placed_eq_encMoved]

theorem closed_eq_encMoved (s : State) : closed s = encMoved { s.enc with pos := 0#23 } (closeEvents s.enc) s := by
  by_cases h : s.enc.pos = 0#23
  · rw [closed, closeEvents, if_pos h, if_pos h, encMoved_nil, ← h]
  · rw [closed, closeEvents, if_neg h, if_neg h]
    rfl

/-- The flush and the close of E.END; the discard that follows keeps `E.cb` and `E.fcode` alone (R176). -/
theorem freshE_closed_flushed (st : StreamState) (s : State) :
    freshE st (closed (flushed s)) =
      encMoved (freshRegs st s.enc) (flushEvents s.enc ++ closeEvents (flushRegs s.enc)) s := by
  have hcb : (closed (flushed s)).enc.cb = s.enc.cb := (closed_frame _).cb.trans (flushed_frame s).cb
  have hfcode : (closed (flushed s)).enc.fcode = s.enc.fcode := (closed_frame _).fcode.trans (flushed_frame s).fcode
  rw [freshE, hcb, hfcode, closed_eq_encMoved, flushed_eq_encMoved, encMoved_encMoved]
  rfl

theorem indexGone_iff (s : State) : IndexGone s.cfg s.enc ↔ noIndexLeft s := Iff.rfl

/-- EncPush on the registers: the decision is that of R101, and a byte goes out with the eighth. -/
theorem encPush_eq {s : State} (sample : Int) (h : ¬ (s.enc.nbits = 7#3 ∧ IndexGone s.cfg s.enc)) :
    encPush sample s =
      .ok (encMoved (pushRegs (decides s.enc.codec sample) s.enc)
        (pushEvents (decides s.enc.codec sample) s.enc) s) := by
  have hroom : ¬ (s.enc.nbits = 7#3 ∧ indexExhausted s = true) := by
    rwa [indexExhausted_iff_noIndexLeft, ← indexGone_iff]
  rw [encPush_ok hroom, encStep, encDecision_eq_decides, pushRegs, pushEvents, packRegs]
  by_cases hn : s.enc.nbits = 7#3
  · rw [if_pos hn, if_pos hn, if_pos hn, hn, packPush_full, seqOption_some, seqByte_eq_placed, placed_eq_encMoved,
      packByte, hn]
    rfl
  · rw [if_neg hn, if_neg hn, if_neg hn, packPush_partial _ _ hn, seqOption_none, encMoved_nil]
    rfl

/-! ### The outcomes of a command -/

/-- The outcomes of an E command from the registers `e`: the registers it leaves, its EOUT events and its answer
(spec/60_exceptions.md R206 to R208; spec/43_stream.md R173 to R176). -/
inductive EncDoes (c : Config) (e : EncRegs) : Instr → EncRegs → List EoutEvent → Word → Prop
  | refused {i : Instr} (hi : isEncData i = true) (hst : e.st = .fault) : EncDoes c e i e [] (faultWord e.fcode)
  | raised {i : Instr} {f : FaultKind} (hi : isEncData i = true) (hst : e.st ≠ .fault) (hf : f ≠ .illegalCmd) :
      EncDoes c e i { e with st := .fault, fcode := faultCode f } [] (faultWord (faultCode f))
  | configured {n : BitVec 24} (hst : e.st = .idle) (hn : 0 < n.toInt) :
      EncDoes c e (.eCfg n) { e with cb := tc 23 n.toInt } [] 0#32
  | opened (hst : e.st = .idle) (hcb : e.cb ≠ 0#23) : EncDoes c e .eStart (freshRegs .active e) [] 0#32
  | sampled {v : SampleWord} (hst : e.st = .active) (hpend : e.pend = false)
      (hroom : ¬ (e.nbits = 7#3 ∧ IndexGone c e)) :
      EncDoes c e (.eSamp v) (pushRegs (decides e.codec v.toInt) e) (pushEvents (decides e.codec v.toInt) e) 0#32
  | held {b : Byte} (hst : e.st = .active) (hpend : e.pend = false) :
      EncDoes c e (.ePcmb b) (pendRegs b true e) [] 0#32
  | paired {b : Byte} (hst : e.st = .active) (hpend : e.pend = true) (hroom : ¬ (e.nbits = 7#3 ∧ IndexGone c e)) :
      EncDoes c e (.ePcmb b)
        (pendRegs 0#8 false (pushRegs (decides e.codec (b.toInt * 256 + e.hold.toNat)) e))
        (pushEvents (decides e.codec (b.toInt * 256 + e.hold.toNat)) e) 0#32
  | ended (hst : e.st = .active) (hroom : ¬ (e.nbits ≠ 0#3 ∧ IndexGone c e)) :
      EncDoes c e .eEnd (freshRegs .idle e) (flushEvents e ++ closeEvents (flushRegs e)) 0#32
  | read : EncDoes c e .eRdst e [] (responseWord 0#4 ((cstate e.codec).setWidth 28))

/-- The outcomes of a D command from the registers `d`: the registers it leaves, its sample words and its answer
(spec/60_exceptions.md R206 to R208; spec/43_stream.md R177, R178). -/
inductive DecDoes (d : DecRegs) : Instr → DecRegs → List SampleWord → Word → Prop
  | refused {i : Instr} (hi : isDecData i = true) (hst : d.st = .fault) : DecDoes d i d [] (faultWord d.fcode)
  | raised {i : Instr} (hi : isDecData i = true) (hst : d.st ≠ .fault) (hneed : d.st ≠ decNeed i) :
      DecDoes d i { d with st := .fault, fcode := faultCode .seqFault } [] (faultWord (faultCode .seqFault))
  | opened (hst : d.st = .idle) : DecDoes d .dStart { d with codec := CodecState.init, st := .active } [] 0#32
  | decodedBit {b : BitVec 1} (hst : d.st = .active) :
      DecDoes d (.dBit b) { d with codec := (decSeq d.codec [decide (b = 1#1)]).1 }
        (decSeq d.codec [decide (b = 1#1)]).2 0#32
  | decodedByte {b : Byte} (hst : d.st = .active) :
      DecDoes d (.dByte b) { d with codec := (decSeq d.codec (unpack b)).1 } (decSeq d.codec (unpack b)).2 0#32
  | ended (hst : d.st = .active) : DecDoes d .dEnd { d with codec := CodecState.init, st := .idle } [] 0#32
  | read : DecDoes d .dRdst d [] (responseWord 0#4 ((cstate d.codec).setWidth 28))

/-- `s` after an E command: its side's registers, its events and its answer, and the mark in the history moved to the
present if the command has opened a stream (log entry 20). -/
def encResult (e : EncRegs) (evs : List EoutEvent) (rw : Word) (s : State) : State :=
  { s with enc := e, out := s.out ++ evs.map .eout ++ [.rsp rw],
           eoutMark := if s.enc.st ≠ .active ∧ e.st = .active then s.eout.length else s.eoutMark }

/-- `s` after a D command: its side's registers, its sample words and its answer. -/
def decResult (d : DecRegs) (outs : List SampleWord) (rw : Word) (s : State) : State :=
  { s with dec := d, out := s.out ++ outs.map .dout ++ [.rsp rw] }

section
variable {s : State} {rw : Word}

theorem encResult_of_mark_kept {e : EncRegs} (evs : List EoutEvent) (h : s.enc.st = .active ∨ e.st ≠ .active) :
    encResult e evs rw s = answered rw (encMoved e evs s) := by
  have hmark : ¬ (s.enc.st ≠ .active ∧ e.st = .active) := by tauto
  rw [encResult, if_neg hmark]
  rfl

theorem answered_eq_encResult (rw : Word) (s : State) : answered rw s = encResult s.enc [] rw s := by
  rw [encResult_of_mark_kept [] (Decidable.em _), encMoved_self]

theorem answered_eq_decResult (rw : Word) (s : State) : answered rw s = decResult s.dec [] rw s := by
  simp [answered, decResult]

theorem faultedE_eq_encResult (code : BitVec 3) (s : State) :
    faultedE code s = encResult { s.enc with st := .fault, fcode := code } [] (faultWord code) s := by
  rw [encResult_of_mark_kept [] (.inr (by simp)), encMoved_nil]
  rfl

theorem faultedD_eq_decResult (code : BitVec 3) (s : State) :
    faultedD code s = decResult { s.dec with st := .fault, fcode := code } [] (faultWord code) s := by
  simp [faultedD, answered, decResult]

end

/-! ### Every command has one of them -/

/-- What a command of the E side does from `e`, and that it does so in every state with these registers. -/
def EncRuns (c : Config) (e : EncRegs) (i : Instr) : Prop :=
  ∃ e' evs rw, EncDoes c e i e' evs rw ∧ ∀ s : State, s.cfg = c → s.enc = e → exec i s = .next (encResult e' evs rw s)

/-- What a command of the D side does from `d`, and that it does so in every state with these registers. -/
def DecRuns (d : DecRegs) (i : Instr) : Prop :=
  ∃ d' outs rw, DecDoes d i d' outs rw ∧ ∀ s : State, s.dec = d → exec i s = .next (decResult d' outs rw s)

section
variable {s : State}

/-- An E command where it is legal: what its work does is what the command does. -/
theorem exec_of_encWork_ok {i : Instr} {s' : State} (hi : isEncData i = true) (hst : s.enc.st = encNeed i)
    (h : encWork i s = .ok s') : exec i s = .next (answered 0#32 s') := by
  have hf : s.enc.st ≠ .fault := by
    rw [hst]
    cases i <;> simp [encNeed]
  rw [exec_eq_encCommand hi, h, encCommand_ok hf hst, respondOk_zero]

theorem exec_eCfg_ok {n : BitVec 24} (hst : s.enc.st = .idle) (hn : 0 < n.toInt) :
    exec (.eCfg n) s = .next (encResult { s.enc with cb := tc 23 n.toInt } [] 0#32 s) := by
  rw [exec_of_encWork_ok rfl hst ((encWork_eCfg n s).trans (if_neg hn.not_ge)),
    encResult_of_mark_kept [] (.inr (by simp [hst])), encMoved_nil, setChunkBytes]

theorem exec_eStart_ok (hst : s.enc.st = .idle) (hcb : s.enc.cb ≠ 0#23) :
    exec .eStart s = .next (encResult (freshRegs .active s.enc) [] 0#32 s) := by
  have hopens : s.enc.st ≠ .active ∧ (freshRegs .active s.enc).st = .active := ⟨by simp [hst], rfl⟩
  rw [exec_of_encWork_ok rfl hst ((encWork_eStart s).trans (if_neg hcb)), encResult, if_pos hopens, List.map_nil,
    List.append_nil]
  rfl

theorem exec_eSamp_ok {v : SampleWord} (hst : s.enc.st = .active) (hp : s.enc.pend = false)
    (hroom : ¬ (s.enc.nbits = 7#3 ∧ IndexGone s.cfg s.enc)) :
    exec (.eSamp v) s =
      .next (encResult (pushRegs (decides s.enc.codec v.toInt) s.enc)
        (pushEvents (decides s.enc.codec v.toInt) s.enc) 0#32 s) := by
  have hwork : encWork (.eSamp v) s = encPush v.toInt s := by rw [encWork_eSamp, hp, if_neg (by simp)]
  rw [exec_of_encWork_ok rfl hst (hwork.trans (encPush_eq _ hroom)), encResult_of_mark_kept _ (.inl hst)]

theorem exec_ePcmb_low {b : Byte} (hst : s.enc.st = .active) (hp : s.enc.pend = false) :
    exec (.ePcmb b) s = .next (encResult (pendRegs b true s.enc) [] 0#32 s) := by
  rw [exec_of_encWork_ok rfl hst ((encWork_ePcmb b s).trans (pushPcmByte_low b hp)),
    encResult_of_mark_kept _ (.inl hst), encMoved_nil]
  rfl

theorem exec_ePcmb_high {b : Byte} (hst : s.enc.st = .active) (hp : s.enc.pend = true)
    (hroom : ¬ (s.enc.nbits = 7#3 ∧ IndexGone s.cfg s.enc)) :
    exec (.ePcmb b) s =
      .next (encResult
        (pendRegs 0#8 false (pushRegs (decides s.enc.codec (b.toInt * 256 + s.enc.hold.toNat)) s.enc))
        (pushEvents (decides s.enc.codec (b.toInt * 256 + s.enc.hold.toNat)) s.enc) 0#32 s) := by
  rw [exec_of_encWork_ok rfl hst ((encWork_ePcmb b s).trans (pushPcmByte_high_ok hp (encPush_eq _ hroom))),
    encResult_of_mark_kept _ (.inl hst)]
  rfl

theorem exec_eEnd_ok (hst : s.enc.st = .active) (hroom : ¬ (s.enc.nbits ≠ 0#3 ∧ IndexGone s.cfg s.enc)) :
    exec .eEnd s =
      .next (encResult (freshRegs .idle s.enc) (flushEvents s.enc ++ closeEvents (flushRegs s.enc)) 0#32 s) := by
  rw [exec_of_encWork_ok rfl hst ((encWork_eEnd s).trans (endEncStream_ok hroom)), freshE_closed_flushed,
    encResult_of_mark_kept _ (.inl hst)]

/-- The decode steps of a list of bits, on the registers of the D side (R118, R136). -/
theorem foldl_decPush_eq_decMoved (bits : List Bool) (s : State) :
    bits.foldl (fun t bit => decPush bit t) s =
      decMoved { s.dec with codec := (decSeq s.dec.codec bits).1 } (decSeq s.dec.codec bits).2 s :=
  foldl_decPush_eq bits s

/-- A D command where it is legal: what its work does is what the command does. -/
theorem exec_of_decWork {i : Instr} {d : DecRegs} {outs : List SampleWord} (hi : isDecData i = true)
    (hst : s.dec.st = decNeed i) (h : decWork i s = decMoved d outs s) :
    exec i s = .next (decResult d outs 0#32 s) := by
  have hf : s.dec.st ≠ .fault := by
    rw [hst]
    cases i <;> simp [decNeed]
  rw [exec_eq_decCommand hi, decCommand_ok hf hst, h, respondOk_zero]
  rfl

theorem exec_dStart_ok (hst : s.dec.st = .idle) :
    exec .dStart s = .next (decResult { s.dec with codec := CodecState.init, st := .active } [] 0#32 s) :=
  exec_of_decWork rfl hst (by simp [decWork, decMoved, setDecSt, setDecCodec])

theorem exec_dBit_ok {b : BitVec 1} (hst : s.dec.st = .active) :
    exec (.dBit b) s =
      .next (decResult { s.dec with codec := (decSeq s.dec.codec [decide (b = 1#1)]).1 }
        (decSeq s.dec.codec [decide (b = 1#1)]).2 0#32 s) :=
  exec_of_decWork rfl hst (foldl_decPush_eq_decMoved [decide (b = 1#1)] s)

theorem exec_dByte_ok {b : Byte} (hst : s.dec.st = .active) :
    exec (.dByte b) s =
      .next (decResult { s.dec with codec := (decSeq s.dec.codec (unpack b)).1 }
        (decSeq s.dec.codec (unpack b)).2 0#32 s) :=
  exec_of_decWork rfl hst (foldl_decPush_eq_decMoved (unpack b) s)

theorem exec_dEnd_ok (hst : s.dec.st = .active) :
    exec .dEnd s = .next (decResult { s.dec with codec := CodecState.init, st := .idle } [] 0#32 s) :=
  exec_of_decWork rfl hst (by simp [decWork, decMoved, setDecSt, setDecCodec])

end

section
variable {c : Config} {e : EncRegs} {d : DecRegs} {i : Instr}

theorem EncRuns.of_fault (hi : isEncData i = true) (hst : e.st = .fault) : EncRuns c e i := by
  refine ⟨_, _, _, .refused hi hst, fun s _ he => ?_⟩
  subst he
  rw [exec_eq_encCommand hi, encCommand_fault hst, refuseEnc_eq_answered, answered_eq_encResult]

/-- A cause of a fault raises it wherever the registers are the same. -/
theorem EncRuns.of_raises {f : FaultKind} (hi : isEncData i = true) (hst : e.st ≠ .fault) (hf : f ≠ .illegalCmd)
    (h : ∀ s : State, s.cfg = c → s.enc = e →
      (s.enc.st ≠ encNeed i ∧ f = .seqFault) ∨ (s.enc.st = encNeed i ∧ encWork i s = .error f)) : EncRuns c e i := by
  refine ⟨_, _, _, .raised hi hst hf, fun s hc he => ?_⟩
  rw [EncRaises.exec_eq (he ▸ hst) ⟨hi, h s hc he⟩, faultedE_eq_encResult, he]

theorem encRuns_eCfg (hst : e.st = .idle) (n : BitVec 24) : EncRuns c e (.eCfg n) := by
  by_cases hn : n.toInt ≤ 0
  · refine .of_raises (f := .configFault) rfl (by simp [hst]) (by simp) fun s _ he => ?_
    exact .inr ⟨he ▸ hst, encWork_eCfg_error_iff.2 ⟨rfl, hn⟩⟩
  · refine ⟨_, _, _, .configured hst (not_le.1 hn), fun s _ he => ?_⟩
    subst he
    exact exec_eCfg_ok hst (not_le.1 hn)

theorem encRuns_eStart (hst : e.st = .idle) : EncRuns c e .eStart := by
  by_cases hcb : e.cb = 0#23
  · refine .of_raises (f := .configFault) rfl (by simp [hst]) (by simp) fun s _ he => ?_
    exact .inr ⟨he ▸ hst, encWork_eStart_error_iff.2 ⟨rfl, he ▸ hcb⟩⟩
  · refine ⟨_, _, _, .opened hst hcb, fun s _ he => ?_⟩
    subst he
    exact exec_eStart_ok hst hcb

theorem encRuns_eSamp (hst : e.st = .active) (v : SampleWord) : EncRuns c e (.eSamp v) := by
  have hf : e.st ≠ .fault := by simp [hst]
  cases hp : e.pend with
  | true =>
    refine .of_raises (f := .seqFault) rfl hf (by simp) fun s _ he => ?_
    exact .inr ⟨he ▸ hst, encWork_eSamp_error_iff.2 (.inl ⟨rfl, he ▸ hp⟩)⟩
  | false =>
    by_cases hx : e.nbits = 7#3 ∧ IndexGone c e
    · refine .of_raises (f := .idxOverflow) rfl hf (by simp) fun s hc he => ?_
      subst hc he
      exact .inr ⟨hst, encWork_eSamp_error_iff.2 (.inr ⟨rfl, hp, hx⟩)⟩
    · refine ⟨_, _, _, .sampled hst hp hx, fun s hc he => ?_⟩
      subst hc he
      exact exec_eSamp_ok hst hp hx

theorem encRuns_ePcmb (hst : e.st = .active) (b : Byte) : EncRuns c e (.ePcmb b) := by
  cases hp : e.pend with
  | false =>
    refine ⟨_, _, _, .held hst hp, fun s _ he => ?_⟩
    subst he
    exact exec_ePcmb_low hst hp
  | true =>
    by_cases hx : e.nbits = 7#3 ∧ IndexGone c e
    · refine .of_raises (f := .idxOverflow) rfl (by simp [hst]) (by simp) fun s hc he => ?_
      subst hc he
      exact .inr ⟨hst, encWork_ePcmb_error_iff.2 ⟨rfl, hp, hx⟩⟩
    · refine ⟨_, _, _, .paired hst hp hx, fun s hc he => ?_⟩
      subst hc he
      exact exec_ePcmb_high hst hp hx

theorem encRuns_eEnd (hst : e.st = .active) : EncRuns c e .eEnd := by
  by_cases hx : e.nbits ≠ 0#3 ∧ IndexGone c e
  · refine .of_raises (f := .idxOverflow) rfl (by simp [hst]) (by simp) fun s hc he => ?_
    subst hc he
    exact .inr ⟨hst, encWork_eEnd_error_iff.2 ⟨rfl, hx⟩⟩
  · refine ⟨_, _, _, .ended hst hx, fun s hc he => ?_⟩
    subst hc he
    exact exec_eEnd_ok hst hx

theorem encRuns_eRdst : EncRuns c e .eRdst := by
  refine ⟨_, _, _, .read, fun s _ he => ?_⟩
  subst he
  rw [← answered_eq_encResult]
  rfl

/-- Every command of the E side does one of the things `EncDoes` lists. -/
theorem encRuns_of_isEncSide (c : Config) (e : EncRegs) (hi : isEncSide i = true) : EncRuns c e i := by
  by_cases hread : i = .eRdst
  · subst hread
    exact encRuns_eRdst
  · have hdata : isEncData i = true := by simpa [isEncSide, hread] using hi
    by_cases hf : e.st = .fault
    · exact .of_fault hdata hf
    · by_cases hst : e.st = encNeed i
      · cases i with
        | eCfg n => exact encRuns_eCfg hst n
        | eStart => exact encRuns_eStart hst
        | eSamp v => exact encRuns_eSamp hst v
        | ePcmb b => exact encRuns_ePcmb hst b
        | eEnd => exact encRuns_eEnd hst
        | _ => cases hdata
      · exact .of_raises (f := .seqFault) hdata hf (by simp) fun s _ he => .inl ⟨he ▸ hst, rfl⟩

theorem decRuns_of_legal (hi : isDecData i = true) (hst : d.st = decNeed i) : DecRuns d i := by
  cases i with
  | dStart => exact ⟨_, _, _, .opened hst, fun s hd => by subst hd; exact exec_dStart_ok hst⟩
  | dBit b => exact ⟨_, _, _, .decodedBit hst, fun s hd => by subst hd; exact exec_dBit_ok hst⟩
  | dByte b => exact ⟨_, _, _, .decodedByte hst, fun s hd => by subst hd; exact exec_dByte_ok hst⟩
  | dEnd => exact ⟨_, _, _, .ended hst, fun s hd => by subst hd; exact exec_dEnd_ok hst⟩
  | _ => cases hi

theorem decRuns_of_isDecSide (d : DecRegs) (hi : isDecSide i = true) : DecRuns d i := by
  by_cases hread : i = .dRdst
  · subst hread
    refine ⟨_, _, _, .read, fun s hd => ?_⟩
    subst hd
    rw [← answered_eq_decResult]
    rfl
  · have hdata : isDecData i = true := by simpa [isDecSide, hread] using hi
    by_cases hf : d.st = .fault
    · refine ⟨_, _, _, .refused hdata hf, fun s hd => ?_⟩
      subst hd
      rw [exec_eq_decCommand hdata, decCommand_fault hf, refuseDec_eq_answered, answered_eq_decResult]
    · by_cases hst : d.st = decNeed i
      · exact decRuns_of_legal hdata hst
      · refine ⟨_, _, _, .raised hdata hf hst, fun s hd => ?_⟩
        subst hd
        rw [DecRaises.exec_eq hf ⟨hdata, hst⟩, faultedD_eq_decResult]

theorem exec_rdstat (s : State) :
    exec .rdstat s = .next (answered (responseWord 0#4 ((status s).setWidth 28)) s) := rfl

/-- Every outcome of a command: one of its side's, the reset and its answer, or STATUS. -/
theorem exec_cases {s t : State} (h : exec i s = .next t) :
    (∃ e' evs rw, EncDoes s.cfg s.enc i e' evs rw ∧ t = encResult e' evs rw s) ∨
    (∃ d' outs rw, DecDoes s.dec i d' outs rw ∧ t = decResult d' outs rw s) ∨
    (i = .reset ∧ t = answered 0#32 (hardwareReset s)) ∨
    (i = .rdstat ∧ t = answered (responseWord 0#4 ((status s).setWidth 28)) s) := by
  have henc (hi : isEncSide i = true) :
      ∃ e' evs rw, EncDoes s.cfg s.enc i e' evs rw ∧ t = encResult e' evs rw s := by
    obtain ⟨e', evs, rw, hdoes, hexec⟩ := encRuns_of_isEncSide s.cfg s.enc hi
    cases (hexec s rfl rfl).symm.trans h
    exact ⟨e', evs, rw, hdoes, rfl⟩
  have hdec (hi : isDecSide i = true) : ∃ d' outs rw, DecDoes s.dec i d' outs rw ∧ t = decResult d' outs rw s := by
    obtain ⟨d', outs, rw, hdoes, hexec⟩ := decRuns_of_isDecSide s.dec hi
    cases (hexec s rfl).symm.trans h
    exact ⟨d', outs, rw, hdoes, rfl⟩
  cases i with
  | reset => cases h; exact .inr (.inr (.inl ⟨rfl, rfl⟩))
  | rdstat => cases h; exact .inr (.inr (.inr ⟨rfl, rfl⟩))
  | eCfg _ | eStart | eSamp _ | ePcmb _ | eEnd | eRdst => exact .inl (henc rfl)
  | dStart | dBit _ | dByte _ | dEnd | dRdst => exact .inr (.inl (hdec rfl))

end
end Sys2Proof.Machine
end

