-- ==== Sys2Proof/Proofs/Ports.lean ====
section
/-!
What the three port histories and the open stream's events are after a command (spec/20_memory.md R52 to R54, R61;
spec/10_state.md R39, item 8): each command of a side adds its events to its own port and one word to RSP.
-/

namespace Sys2Proof.Machine

open Claims

section
variable {s t : State}

theorem eout_of_out_eq_append {es : List PortEvent} (h : t.out = s.out ++ es) :
    t.eout = s.eout ++ es.filterMap fun e => match e with
      | .eout ev => some ev
      | .dout _ => none
      | .rsp _ => none := by
  rw [State.eout, h]
  exact List.filterMap_append

theorem dout_of_out_eq_append {es : List PortEvent} (h : t.out = s.out ++ es) :
    t.dout = s.dout ++ es.filterMap fun e => match e with
      | .eout _ => none
      | .dout v => some v
      | .rsp _ => none := by
  rw [State.dout, h]
  exact List.filterMap_append

theorem responses_of_out_eq_append {es : List PortEvent} (h : t.out = s.out ++ es) :
    t.responses = s.responses ++ es.filterMap fun e => match e with
      | .eout _ => none
      | .dout _ => none
      | .rsp rw => some rw := by
  rw [State.responses, h]
  exact List.filterMap_append

end

section
variable (e : EncRegs) (evs : List EoutEvent) (d : DecRegs) (outs : List SampleWord) (rw : Word) (s : State)

theorem encResult_out : (encResult e evs rw s).out = s.out ++ (evs.map .eout ++ [.rsp rw]) :=
  List.append_assoc _ _ _

theorem decResult_out : (decResult d outs rw s).out = s.out ++ (outs.map .dout ++ [.rsp rw]) :=
  List.append_assoc _ _ _

@[simp] theorem encResult_eout : (encResult e evs rw s).eout = s.eout ++ evs := by
  rw [eout_of_out_eq_append (encResult_out e evs rw s), List.filterMap_append, List.filterMap_map]
  simp

@[simp] theorem encResult_dout : (encResult e evs rw s).dout = s.dout := by
  rw [dout_of_out_eq_append (encResult_out e evs rw s), List.filterMap_append, List.filterMap_map]
  simp

@[simp] theorem encResult_responses : (encResult e evs rw s).responses = s.responses ++ [rw] := by
  rw [responses_of_out_eq_append (encResult_out e evs rw s), List.filterMap_append, List.filterMap_map]
  simp

@[simp] theorem decResult_eout : (decResult d outs rw s).eout = s.eout := by
  rw [eout_of_out_eq_append (decResult_out d outs rw s), List.filterMap_append, List.filterMap_map]
  simp

@[simp] theorem decResult_dout : (decResult d outs rw s).dout = s.dout ++ outs := by
  rw [dout_of_out_eq_append (decResult_out d outs rw s), List.filterMap_append, List.filterMap_map]
  simp

@[simp] theorem decResult_responses : (decResult d outs rw s).responses = s.responses ++ [rw] := by
  rw [responses_of_out_eq_append (decResult_out d outs rw s), List.filterMap_append, List.filterMap_map]
  simp

@[simp] theorem answered_eout : (answered rw s).eout = s.eout := by
  rw [answered_eq_decResult, decResult_eout]

end

/-- The open stream's events after a command that takes the registers from `e` to `e'` and emits `evs`: the command that
opens the stream is where they begin. -/
def streamAfter (e e' : EncRegs) (old evs : List EoutEvent) : List EoutEvent :=
  if e.st ≠ .active ∧ e'.st = .active then evs else old ++ evs

theorem encResult_streamEvents {s : State} (h : s.eoutMark ≤ s.eout.length) (e : EncRegs) (evs : List EoutEvent)
    (rw : Word) : (encResult e evs rw s).streamEvents = streamAfter s.enc e s.streamEvents evs := by
  rw [State.streamEvents, encResult_eout, encResult, streamAfter]
  split
  · exact List.drop_left
  · exact List.drop_append_of_le_length h

theorem encResult_mark_within {s : State} (h : s.eoutMark ≤ s.eout.length) (e : EncRegs) (evs : List EoutEvent)
    (rw : Word) : (encResult e evs rw s).eoutMark ≤ (encResult e evs rw s).eout.length := by
  rw [encResult_eout, List.length_append, encResult]
  dsimp only
  split <;> omega

theorem decResult_streamEvents (d : DecRegs) (outs : List SampleWord) (rw : Word) (s : State) :
    (decResult d outs rw s).streamEvents = s.streamEvents := by
  rw [State.streamEvents, decResult_eout]
  rfl

end Sys2Proof.Machine
end

