-- ==== Sys2Proof/Proofs/RegisterInvariant.lean ====
section
/-!
Every command keeps the invariant of its side's registers (spec/10_state.md R39), by the outcomes of a command.
-/

namespace Sys2Proof.Machine

open Claims

/-! ### The packer's unused bits -/

/-- A byte is below `2^n` exactly when its bits from `n` up are 0. -/
theorem toNat_lt_two_pow_iff {w : Nat} (x : BitVec w) (n : Nat) :
    x.toNat < 2 ^ n ↔ ∀ k, n ≤ k → x.getLsbD k = false :=
  ⟨fun h k hk => Nat.testBit_eq_false_of_lt (h.trans_le (Nat.pow_le_pow_right (by decide) hk)),
    fun h => Nat.lt_pow_two_of_testBit _ h⟩

/-- The partial byte stays clear above the decisions it holds (R135). -/
theorem pack_clear {acc : Byte} {n : BitVec 3} (hclear : acc.toNat < 2 ^ n.toNat) (bit : Bool) :
    (acc ||| bitByte bit <<< n.toNat).toNat < 2 ^ (n.toNat + 1) := by
  have hpacked := packedInto_or acc n bit
  rw [toNat_lt_two_pow_iff] at hclear ⊢
  intro k hk
  have hne : k ≠ n.toNat := by omega
  simp [hpacked k, hclear k (by omega), hne]

theorem toNat_ne_seven {n : BitVec 3} (h : n ≠ 7#3) : n.toNat ≠ 7 := fun h7 => h (BitVec.eq_of_toNat_eq h7)

theorem toNat_nbits_add_one {n : BitVec 3} (h : n ≠ 7#3) : (n + 1#3).toNat = n.toNat + 1 := by
  have hne := toNat_ne_seven h
  rw [BitVec.toNat_add_of_lt] <;> simp; omega

/-! ### The position in the chunk -/

theorem toNat_pos_add_one {e : EncRegs} (h : e.pos.toNat < e.cb.toNat) :
    (e.pos + 1#23).toNat = e.pos.toNat + 1 := by
  rw [BitVec.toNat_add_of_lt] <;> simp; omega

/-- The byte that fills the chunk. -/
theorem fills_iff {e : EncRegs} (h : e.pos.toNat < e.cb.toNat) :
    e.pos + 1#23 = e.cb ↔ e.pos.toNat + 1 = e.cb.toNat := by
  rw [← BitVec.toNat_inj, toNat_pos_add_one h]

theorem pos_eq_zero_iff (e : EncRegs) : e.pos = 0#23 ↔ e.pos.toNat = 0 := by
  rw [← BitVec.toNat_inj]
  rfl

/-- The position counts modulo the chunk size (R152). -/
theorem toNat_nextPos {e : EncRegs} (h : e.pos.toNat < e.cb.toNat) :
    (nextPos e).toNat = (e.pos.toNat + 1) % e.cb.toNat := by
  rw [nextPos]
  split
  case isTrue hfull => rw [(fills_iff h).1 hfull, Nat.mod_self]; rfl
  case isFalse hroom =>
    rw [fills_iff h] at hroom
    rw [toNat_pos_add_one h, Nat.mod_eq_of_lt (by omega)]

/-- A byte's chunk has a number from 1 on. -/
theorem one_le_nextIdx {c : Config} {e : EncRegs} (hinv : e.Inv c) (hst : e.st = .active) : 1 ≤ nextIdx e := by
  unfold nextIdx
  split
  case isTrue => omega
  case isFalse hpos =>
    rw [pos_eq_zero_iff] at hpos
    exact hinv.chunk_numbered hst (by omega)

/-- A byte's chunk has a number that fits, unless R204 says that there is none. -/
theorem nextIdx_lt {c : Config} {e : EncRegs} (hinv : e.Inv c) (hroom : ¬ IndexGone c e) :
    nextIdx e < 2 ^ c.idxW := by
  have hfits := hinv.idx_fits
  unfold nextIdx
  split
  case isTrue hpos =>
    have : e.idx ≠ 2 ^ c.idxW - 1 := fun h => hroom ⟨hpos, h⟩
    omega
  case isFalse => exact hfits

/-! ### The encode side -/

section
variable {c : Config} {e : EncRegs}

theorem EncRegs.Inv.packRegs (hinv : e.Inv c) (hst : e.st = .active) (bit : Bool) : (packRegs bit e).Inv c := by
  obtain ⟨hhold, hacc, hopen, -, hcode, -, hnum, hfits⟩ := hinv
  unfold Machine.packRegs
  split
  case isTrue => exact ⟨hhold, by simp, hopen, by simp [hst], hcode, by simp [hst], hnum, hfits⟩
  case isFalse hn =>
    refine ⟨hhold, ?_, hopen, by simp [hst], hcode, by simp [hst], hnum, hfits⟩
    rw [toNat_nbits_add_one hn]
    exact pack_clear hacc bit

theorem EncRegs.Inv.placeRegs (hinv : e.Inv c) (hst : e.st = .active) (hroom : ¬ IndexGone c e) :
    (placeRegs e).Inv c := by
  have hnum := one_le_nextIdx hinv hst
  have hfits := nextIdx_lt hinv hroom
  obtain ⟨hcb, hpos⟩ := hinv.open_chunk hst
  obtain ⟨hhold, hacc, -, -, hcode, -, -, -⟩ := hinv
  refine ⟨hhold, hacc, fun _ => ⟨hcb, ?_⟩, by simp [Machine.placeRegs, hst], hcode, by simp [Machine.placeRegs, hst],
    fun _ _ => hnum, hfits⟩
  rw [Machine.placeRegs, toNat_nextPos hpos]
  exact Nat.mod_lt _ hcb

theorem packRegs_frame (bit : Bool) (e : EncRegs) :
    (packRegs bit e).pos = e.pos ∧ (packRegs bit e).idx = e.idx ∧ (packRegs bit e).cb = e.cb := by
  unfold packRegs
  split <;> exact ⟨rfl, rfl, rfl⟩

theorem EncRegs.Inv.pushRegs (hinv : e.Inv c) (hst : e.st = .active) (bit : Bool)
    (hroom : ¬ (e.nbits = 7#3 ∧ IndexGone c e)) : (pushRegs bit e).Inv c := by
  have hpack := hinv.packRegs hst bit
  unfold Machine.pushRegs
  split
  case isTrue hn =>
    refine hpack.placeRegs ((packRegs_st bit e).trans hst) fun hgone => hroom ⟨hn, ?_⟩
    obtain ⟨hpos, hidx, -⟩ := packRegs_frame bit e
    exact ⟨hpos ▸ hgone.1, hidx ▸ hgone.2⟩
  case isFalse => exact hpack

theorem EncRegs.Inv.pendRegs (hinv : e.Inv c) (hst : e.st = .active) {b : Byte} {p : Bool}
    (h : p = false → b = 0#8) : (pendRegs b p e).Inv c := by
  obtain ⟨-, hacc, hopen, -, hcode, -, hnum, hfits⟩ := hinv
  exact ⟨h, hacc, hopen, by simp [Machine.pendRegs, hst], hcode, by simp [Machine.pendRegs, hst], hnum, hfits⟩

theorem EncRegs.Inv.faulted (hinv : e.Inv c) {f : FaultKind} (hf : f ≠ .illegalCmd) :
    ({ e with st := .fault, fcode := faultCode f } : EncRegs).Inv c := by
  obtain ⟨hhold, hacc, -, -, -, -, -, hfits⟩ := hinv
  refine ⟨hhold, hacc, by simp, by simp, by simp, fun _ => ?_, by simp, hfits⟩
  cases f with
  | configFault => exact .inl rfl
  | seqFault => exact .inr (.inl rfl)
  | illegalCmd => exact absurd rfl hf
  | idxOverflow => exact .inr (.inr rfl)

/-- A stream that has just been opened or ended, outside FAULT, with `E.cb` configured if it is open. -/
theorem freshRegs_inv {st : StreamState} (hst : st ≠ .fault) (hcode : e.fcode = 0#3)
    (hcb : st = .active → e.cb ≠ 0#23) : (freshRegs st e).Inv c where
  hold_empty _ := rfl
  acc_clear := by simp [freshRegs]
  open_chunk h := by
    have hne : e.cb.toNat ≠ 0 := fun h0 => hcb h (BitVec.eq_of_toNat_eq h0)
    simp only [freshRegs, BitVec.toNat_ofNat]
    omega
  idle_clean _ := ⟨rfl, rfl, rfl, rfl, rfl, rfl, rfl⟩
  no_code _ := hcode
  fault_code h := absurd h hst
  chunk_numbered _ h := absurd h (by simp [freshRegs])
  idx_fits := Nat.two_pow_pos _

theorem EncRegs.Inv.configured (hinv : e.Inv c) (hst : e.st = .idle) (cb : BitVec 23) :
    ({ e with cb := cb } : EncRegs).Inv c := by
  obtain ⟨hhold, hacc, -, hclean, hcode, -, -, hfits⟩ := hinv
  exact ⟨hhold, hacc, by simp [hst], hclean, hcode, by simp [hst], by simp [hst], hfits⟩

/-- Every outcome of an E command keeps the invariant of the E side. -/
theorem EncDoes.inv {i : Instr} {e' : EncRegs} {evs : List EoutEvent} {rw : Word} (h : EncDoes c e i e' evs rw)
    (hinv : e.Inv c) : e'.Inv c := by
  cases h with
  | refused => exact hinv
  | raised _ _ hf => exact hinv.faulted hf
  | configured hst => exact hinv.configured hst _
  | opened hst hcb => exact freshRegs_inv (by simp) (hinv.no_code (by simp [hst])) fun _ => hcb
  | sampled hst _ hroom => exact hinv.pushRegs hst _ hroom
  | held hst => exact hinv.pendRegs hst (by simp)
  | paired hst _ hroom => exact (hinv.pushRegs hst _ hroom).pendRegs ((pushRegs_st _ e).trans hst) fun _ => rfl
  | ended hst => exact freshRegs_inv (by simp) (hinv.no_code (by simp [hst])) (by simp)
  | read => exact hinv

end

/-! ### The decode side -/

/-- Every outcome of a D command keeps the invariant of the D side. -/
theorem DecDoes.inv {d d' : DecRegs} {i : Instr} {outs : List SampleWord} {rw : Word} (h : DecDoes d i d' outs rw)
    (hinv : d.Inv) : d'.Inv := by
  have hcode := hinv.no_code
  cases h with
  | refused => exact hinv
  | raised => exact ⟨by simp, by simp, fun _ => rfl⟩
  | opened hst => exact ⟨by simp, fun _ => hcode (by simp [hst]), by simp⟩
  | decodedBit hst => exact ⟨by simp [hst], hcode, by simp [hst]⟩
  | decodedByte hst => exact ⟨by simp [hst], hcode, by simp [hst]⟩
  | ended hst => exact ⟨fun _ => rfl, fun _ => hcode (by simp [hst]), by simp⟩
  | read => exact hinv

/-! ### Reset -/

theorem encReset_inv (c : Config) : EncRegs.reset.Inv c :=
  freshRegs_inv (st := .idle) (e := EncRegs.reset) (by simp) rfl (by simp)

theorem decReset_inv : DecRegs.reset.Inv := ⟨fun _ => rfl, fun _ => rfl, fun h => by cases h⟩

end Sys2Proof.Machine
end

