-- ==== Sys2Proof/Proofs/StateInvariant.lean ====
section
/-!
Every step keeps the invariant of the state (spec/10_state.md R39): the registers' part by each side's outcomes, and
item 8's first half by what an outcome adds to the open stream's events.
-/

namespace Sys2Proof.Machine

open Claims

/-- Item 8, its first half, of registers and the events their stream has emitted. -/
def NoByteYet (e : EncRegs) (evs : List EoutEvent) : Prop :=
  e.st = .active → (e.pos = 0#23 ∧ e.idx = 0 ↔ ∀ ev ∈ evs, isByteEvent ev = false)

section
variable {c : Config} {e e' : EncRegs} {i : Instr} {evs old : List EoutEvent} {rw : Word}

theorem streamAfter_of_active (h : e.st = .active) (e' : EncRegs) (old evs : List EoutEvent) :
    streamAfter e e' old evs = old ++ evs := if_neg (by simp [h])

/-- A command that emits nothing and moves neither the state of the stream nor its position. -/
theorem NoByteYet.unchanged (h : NoByteYet e old) (hst : e'.st = e.st) (hpos : e'.pos = e.pos)
    (hidx : e'.idx = e.idx) : NoByteYet e' (streamAfter e e' old []) := by
  intro hact
  rw [hst] at hact
  rw [streamAfter_of_active hact, List.append_nil, hpos, hidx]
  exact h hact

/-- A side that is not ACTIVE has no open stream to speak of. -/
theorem NoByteYet.of_not_active (h : e'.st ≠ .active) (evs : List EoutEvent) : NoByteYet e' evs :=
  fun hact => absurd hact h

/-- A byte has gone out, and its chunk has a number other than 0. -/
theorem NoByteYet.of_placed (hidx : 1 ≤ e'.idx) {ev : EoutEvent} (hmem : ev ∈ evs) (hbyte : isByteEvent ev = true) :
    NoByteYet e' evs := by
  refine fun _ => ⟨fun h => absurd h.2 (by omega), fun h => ?_⟩
  rw [h ev hmem] at hbyte
  cases hbyte

theorem mem_placeEvents (B : Byte) (e : EncRegs) : .byte (nextIdx e) e.pos B ∈ placeEvents B e := by
  unfold placeEvents
  split <;> simp

theorem nextIdx_packRegs (bit : Bool) (e : EncRegs) : nextIdx (packRegs bit e) = nextIdx e := by
  obtain ⟨hpos, hidx, -⟩ := packRegs_frame bit e
  rw [nextIdx, nextIdx, hpos, hidx]

theorem NoByteYet.pushRegs (hinv : e.Inv c) (hst : e.st = .active) (h : NoByteYet e old) (bit : Bool) :
    NoByteYet (pushRegs bit e) (old ++ pushEvents bit e) := by
  unfold Machine.pushRegs pushEvents
  split
  case isTrue =>
    refine .of_placed ?_ (List.mem_append_right _ (mem_placeEvents _ e)) rfl
    rw [placeRegs, nextIdx_packRegs]
    exact one_le_nextIdx hinv hst
  case isFalse =>
    obtain ⟨hpos, hidx, -⟩ := packRegs_frame bit e
    have := h.unchanged (packRegs_st bit e) hpos hidx
    rwa [streamAfter_of_active hst] at this

theorem EncDoes.noByteYet (hdoes : EncDoes c e i e' evs rw) (hinv : e.Inv c) (h : NoByteYet e old) :
    NoByteYet e' (streamAfter e e' old evs) := by
  cases hdoes with
  | refused => exact h.unchanged rfl rfl rfl
  | raised => exact .of_not_active (by simp) _
  | configured => exact h.unchanged rfl rfl rfl
  | opened hst =>
    have hopens : e.st ≠ .active ∧ (freshRegs .active e).st = .active := ⟨by simp [hst], rfl⟩
    rw [streamAfter, if_pos hopens]
    exact fun _ => ⟨by simp, fun _ => ⟨rfl, rfl⟩⟩
  | sampled hst =>
    rw [streamAfter_of_active hst]
    exact h.pushRegs hinv hst _
  | held => exact h.unchanged rfl rfl rfl
  | paired hst =>
    rw [streamAfter_of_active hst]
    exact h.pushRegs hinv hst _
  | ended => exact .of_not_active (by simp [freshRegs]) _
  | read => exact h.unchanged rfl rfl rfl

end

/-! ### The state -/

section
variable {s t : State}

/-- The invariant speaks of neither the host's pending actions nor `ILL`. -/
theorem State.Inv.congr (h : s.Inv) (hcfg : t.cfg = s.cfg) (henc : t.enc = s.enc) (hdec : t.dec.Inv)
    (hmark : t.eoutMark = s.eoutMark) (heout : t.eout = s.eout) : t.Inv where
  enc := by rw [henc, hcfg]; exact h.enc
  dec := hdec
  mark_within := by rw [hmark, heout]; exact h.mark_within
  no_byte_yet := by rw [henc, State.streamEvents, hmark, heout]; exact h.no_byte_yet

theorem State.Inv.encResult (h : s.Inv) {i : Instr} {e' : EncRegs} {evs : List EoutEvent} {rw : Word}
    (hdoes : EncDoes s.cfg s.enc i e' evs rw) : (encResult e' evs rw s).Inv where
  enc := hdoes.inv h.enc
  dec := h.dec
  mark_within := encResult_mark_within h.mark_within e' evs rw
  no_byte_yet := by
    rw [encResult_streamEvents h.mark_within]
    exact hdoes.noByteYet h.enc h.no_byte_yet

theorem State.Inv.hardwareReset (h : s.Inv) : (hardwareReset s).Inv where
  enc := encReset_inv s.cfg
  dec := decReset_inv
  mark_within := h.mark_within
  no_byte_yet hact := by cases hact

theorem State.Inv.exec (h : s.Inv) {i : Instr} (hexec : exec i s = .next t) : t.Inv := by
  obtain ⟨e', evs, rw, hdoes, rfl⟩ | ⟨d', outs, rw, hdoes, rfl⟩ | ⟨-, rfl⟩ | ⟨-, rfl⟩ := exec_cases hexec
  · exact h.encResult hdoes
  · exact h.congr rfl rfl (hdoes.inv h.dec) rfl (decResult_eout d' outs rw s)
  · exact h.hardwareReset.congr rfl rfl decReset_inv rfl (answered_eout 0#32 (Machine.hardwareReset s))
  · exact h.congr rfl rfl h.dec rfl (answered_eout _ s)

/-- The registers' part of the invariant is kept by itself. -/
theorem exec_keeps_registers_inv {i : Instr} (hexec : exec i s = .next t) (henc : s.enc.Inv s.cfg) (hdec : s.dec.Inv) :
    t.enc.Inv t.cfg ∧ t.dec.Inv := by
  obtain ⟨e', evs, rw, hdoes, rfl⟩ | ⟨d', outs, rw, hdoes, rfl⟩ | ⟨-, rfl⟩ | ⟨-, rfl⟩ := exec_cases hexec
  · exact ⟨hdoes.inv henc, hdec⟩
  · exact ⟨henc, hdoes.inv hdec⟩
  · exact ⟨encReset_inv s.cfg, decReset_inv⟩
  · exact ⟨henc, hdec⟩

theorem step_keeps_registers_inv (h : step s = .next t) (henc : s.enc.Inv s.cfg) (hdec : s.dec.Inv) :
    t.enc.Inv t.cfg ∧ t.dec.Inv := by
  obtain ⟨-, rfl⟩ | ⟨rest, -, rfl⟩ | ⟨_, rest, i, -, -, hexec⟩ | ⟨_, rest, _, -, -, rfl⟩ := step_cases h
  · exact ⟨henc, hdec⟩
  · exact ⟨encReset_inv s.cfg, decReset_inv⟩
  · exact exec_keeps_registers_inv (s := { s with cin := rest }) hexec henc hdec
  · exact ⟨henc, hdec⟩

theorem State.Inv.step (h : s.Inv) (hstep : step s = .next t) : t.Inv := by
  have hrest (rest : List HostAction) : ({ s with cin := rest } : State).Inv := h.congr rfl rfl h.dec rfl rfl
  obtain ⟨-, rfl⟩ | ⟨rest, -, rfl⟩ | ⟨_, rest, i, -, -, hexec⟩ | ⟨_, rest, _, -, -, rfl⟩ := step_cases hstep
  · exact h
  · exact (hrest rest).hardwareReset
  · exact (hrest rest).exec hexec
  · exact h.congr rfl rfl h.dec rfl (respond_eout _ _ _)

end

/-- Settles O37, by each side's reset registers and the empty history. -/
theorem invariantHoldsAtReset : Obligations.InvariantHoldsAtReset := by
  unfold Obligations.InvariantHoldsAtReset
  exact { enc := encReset_inv _, dec := decReset_inv, mark_within := Nat.zero_le _, no_byte_yet := fun h => by cases h }

/-- Settles O38, by the outcomes of a step and of a command. -/
theorem everyStepKeepsTheInvariant : Obligations.EveryStepKeepsTheInvariant := by
  unfold Obligations.EveryStepKeepsTheInvariant
  exact ⟨fun _ _ henc hdec h => step_keeps_registers_inv h henc hdec, fun _ _ hinv => hinv.step⟩

end Sys2Proof.Machine
end

