-- ==== Sys2Proof/Proofs/PositionCounts.lean ====
section
/-!
The open stream's position as a count of its events (spec/10_state.md R29, R30; spec/42_chunk.md R155): each byte that
goes out moves `E.pos` and `E.idx` by one place, and a CEND goes out with the byte that fills its chunk.
-/

namespace Sys2Proof.Machine

open Claims

theorem byteCount_append (xs ys : List EoutEvent) : byteCount (xs ++ ys) = byteCount xs + byteCount ys :=
  List.countP_append

theorem cendCount_append (xs ys : List EoutEvent) : cendCount (xs ++ ys) = cendCount xs + cendCount ys :=
  List.countP_append

theorem byteCount_placeEvents (B : Byte) (e : EncRegs) : byteCount (placeEvents B e) = 1 := by
  unfold placeEvents
  split <;> rfl

theorem cendCount_placeEvents (B : Byte) (e : EncRegs) :
    cendCount (placeEvents B e) = if e.pos + 1#23 = e.cb then 1 else 0 := by
  unfold placeEvents
  split <;> rfl

theorem byteCount_closeEvents (e : EncRegs) : byteCount (closeEvents e) = 0 := by
  unfold closeEvents
  split <;> rfl

theorem cendCount_closeEvents (e : EncRegs) : cendCount (closeEvents e) = if e.pos = 0#23 then 0 else 1 := by
  unfold closeEvents
  split <;> rfl

/-- How many chunks of the stream are complete: the one `E.idx` numbers is so when no byte stands in it (R29, R30). -/
def closedChunks (e : EncRegs) : Nat := if e.pos = 0#23 then e.idx else e.idx - 1

/-- `positionCounts`, of registers and the events their stream has emitted. -/
def PosCounts (e : EncRegs) (evs : List EoutEvent) : Prop :=
  e.st = .active →
    byteCount evs = closedChunks e * e.cb.toNat + e.pos.toNat ∧ cendCount evs = closedChunks e

theorem positionCounts_iff (s : State) : positionCounts s ↔ PosCounts s.enc s.streamEvents := by
  unfold positionCounts PosCounts closedChunks
  split
  case isTrue hpos => rw [hpos]; rfl
  case isFalse => rfl

section
variable {c : Config} {e e' : EncRegs} {i : Instr} {evs old : List EoutEvent} {rw : Word}

/-- The next byte goes into the chunk after the complete ones. -/
theorem nextIdx_eq (hinv : e.Inv c) (hst : e.st = .active) : nextIdx e = closedChunks e + 1 := by
  unfold nextIdx closedChunks
  split
  case isTrue => rfl
  case isFalse hpos =>
    rw [pos_eq_zero_iff] at hpos
    have := hinv.chunk_numbered hst (by omega)
    omega

/-- The byte that fills its chunk completes it, and no other byte completes one. -/
theorem closedChunks_placeRegs (hinv : e.Inv c) (hst : e.st = .active) :
    closedChunks (placeRegs e) = closedChunks e + if e.pos + 1#23 = e.cb then 1 else 0 := by
  obtain ⟨-, hpos⟩ := hinv.open_chunk hst
  by_cases hfull : e.pos + 1#23 = e.cb
  · rw [closedChunks, placeRegs, nextPos, if_pos hfull, if_pos rfl, if_pos hfull, nextIdx_eq hinv hst]
  · have hne : e.pos + 1#23 ≠ 0#23 := fun h => by
      have := congrArg BitVec.toNat h
      rw [toNat_pos_add_one hpos, BitVec.toNat_ofNat] at this
      omega
    rw [closedChunks, placeRegs, nextPos, if_neg hfull, if_neg hne, if_neg hfull, nextIdx_eq hinv hst]
    rfl

theorem PosCounts.unchanged (h : PosCounts e old) (hst : e'.st = e.st) (hpos : e'.pos = e.pos) (hidx : e'.idx = e.idx)
    (hcb : e'.cb = e.cb) : PosCounts e' (streamAfter e e' old []) := by
  intro hact
  rw [hst] at hact
  rw [streamAfter_of_active hact, List.append_nil, closedChunks, hpos, hidx, hcb]
  exact h hact

theorem PosCounts.of_not_active (h : e'.st ≠ .active) (evs : List EoutEvent) : PosCounts e' evs :=
  fun hact => absurd hact h

theorem PosCounts.placeRegs (hinv : e.Inv c) (hst : e.st = .active) (h : PosCounts e old) (B : Byte) :
    PosCounts (placeRegs e) (old ++ placeEvents B e) := by
  intro _
  obtain ⟨hbytes, hcends⟩ := h hst
  obtain ⟨-, hpos⟩ := hinv.open_chunk hst
  rw [byteCount_append, cendCount_append, byteCount_placeEvents, cendCount_placeEvents,
    closedChunks_placeRegs hinv hst, hbytes, hcends]
  refine ⟨?_, rfl⟩
  simp only [Machine.placeRegs]
  by_cases hfull : e.pos + 1#23 = e.cb
  · rw [if_pos hfull, nextPos, if_pos hfull, Nat.add_mul, Nat.one_mul, ← (fills_iff hpos).1 hfull]
    rfl
  · rw [if_neg hfull, nextPos, if_neg hfull, toNat_pos_add_one hpos]
    rfl

/-- The position's registers decide what SeqByte emits, and the packer writes none of them. -/
theorem placeEvents_packRegs (bit : Bool) (B : Byte) (e : EncRegs) :
    placeEvents B (packRegs bit e) = placeEvents B e := by
  unfold packRegs
  split <;> rfl

theorem PosCounts.pushRegs (hinv : e.Inv c) (hst : e.st = .active) (h : PosCounts e old) (bit : Bool) :
    PosCounts (pushRegs bit e) (old ++ pushEvents bit e) := by
  have hpack : PosCounts (packRegs bit e) old := by
    obtain ⟨hpos, hidx, hcb⟩ := packRegs_frame bit e
    have := h.unchanged (packRegs_st bit e) hpos hidx hcb
    rwa [streamAfter_of_active hst, List.append_nil] at this
  unfold Machine.pushRegs pushEvents
  split
  case isTrue =>
    rw [← placeEvents_packRegs bit]
    exact hpack.placeRegs (hinv.packRegs hst bit) ((packRegs_st bit e).trans hst) _
  case isFalse => rwa [List.append_nil]

/-- Every outcome of an E command keeps the counts. -/
theorem EncDoes.posCounts (hdoes : EncDoes c e i e' evs rw) (hinv : e.Inv c) (h : PosCounts e old) :
    PosCounts e' (streamAfter e e' old evs) := by
  cases hdoes with
  | refused => exact h.unchanged rfl rfl rfl rfl
  | raised => exact .of_not_active (by simp) _
  | configured hst => exact .of_not_active (by simp [hst]) _
  | opened hst =>
    have hopens : e.st ≠ .active ∧ (freshRegs .active e).st = .active := ⟨by simp [hst], rfl⟩
    rw [streamAfter, if_pos hopens]
    exact fun _ => ⟨(Nat.zero_mul _).symm, rfl⟩
  | sampled hst =>
    rw [streamAfter_of_active hst]
    exact h.pushRegs hinv hst _
  | held => exact h.unchanged rfl rfl rfl rfl
  | paired hst =>
    rw [streamAfter_of_active hst]
    exact h.pushRegs hinv hst _
  | ended => exact .of_not_active (by simp [freshRegs]) _
  | read => exact h.unchanged rfl rfl rfl rfl

theorem exec_keeps_posCounts {s t : State} (hinv : s.Inv) (h : PosCounts s.enc s.streamEvents)
    (hexec : exec i s = .next t) : PosCounts t.enc t.streamEvents := by
  obtain ⟨e', evs, rw, hdoes, rfl⟩ | ⟨d', outs, rw, hdoes, rfl⟩ | ⟨-, rfl⟩ | ⟨-, rfl⟩ := exec_cases hexec
  · rw [encResult_streamEvents hinv.mark_within]
    exact hdoes.posCounts hinv.enc h
  · rw [decResult_streamEvents]
    exact h
  · exact .of_not_active (e' := EncRegs.reset) (by simp [EncRegs.reset]) _
  · rw [answered_eq_decResult, decResult_streamEvents]
    exact h

end

/-- Settles O39: no stream is open at reset, and each outcome of a step keeps the counts. -/
theorem everyStepKeepsThePositionCounts : Obligations.EveryStepKeepsThePositionCounts := by
  unfold Obligations.EveryStepKeepsThePositionCounts
  simp only [positionCounts_iff]
  refine ⟨.of_not_active (by simp [EncRegs.reset]) _, fun s t hinv h hstep => ?_⟩
  obtain ⟨-, rfl⟩ | ⟨rest, -, rfl⟩ | ⟨_, rest, i, -, -, hexec⟩ | ⟨_, rest, _, -, -, rfl⟩ := step_cases hstep
  · exact h
  · exact .of_not_active (e' := EncRegs.reset) (by simp [EncRegs.reset]) _
  · have hrest : ({ s with cin := rest } : State).Inv := hinv.congr rfl rfl hinv.dec rfl rfl
    exact exec_keeps_posCounts hrest h hexec
  · rw [raiseIllegal, respondFault, respond_streamEvents]
    exact h

end Sys2Proof.Machine
end

