-- ==== Sys2Proof/Proofs/EmittedEvents.lean ====
section
/-!
What a command emits: how many events (spec/20_memory.md R68), and with which fields (spec/30_encoding.md R75).
-/

namespace Sys2Proof.Machine

open Claims

section
variable {c : Config} {e e' : EncRegs} {d d' : DecRegs} {i : Instr} {evs : List EoutEvent} {outs : List SampleWord}
  {rw : Word}

/-! ### The fields are in range -/

theorem placeEvents_inRange (hinv : e.Inv c) (hst : e.st = .active) (hroom : ¬ IndexGone c e) (B : Byte) :
    ∀ ev ∈ placeEvents B e, eventInRange c e.cb.toNat ev := by
  obtain ⟨hcb, hpos⟩ := hinv.open_chunk hst
  have hidx := one_le_nextIdx hinv hst
  have hfits := nextIdx_lt hinv hroom
  unfold placeEvents
  split <;> simp [eventInRange, hcb, hpos, hidx, hfits]

theorem closeEvents_inRange (hinv : e.Inv c) (hst : e.st = .active) :
    ∀ ev ∈ closeEvents e, eventInRange c e.cb.toNat ev := by
  obtain ⟨hcb, hpos⟩ := hinv.open_chunk hst
  unfold closeEvents
  split
  case isTrue => simp
  case isFalse h =>
    rw [pos_eq_zero_iff] at h
    have hidx := hinv.chunk_numbered hst (by omega)
    simp only [List.mem_singleton, forall_eq, eventInRange]
    exact ⟨hidx, hinv.idx_fits, by omega, by omega⟩

theorem pushEvents_inRange (hinv : e.Inv c) (hst : e.st = .active) (hroom : ¬ (e.nbits = 7#3 ∧ IndexGone c e))
    (bit : Bool) : ∀ ev ∈ pushEvents bit e, eventInRange c e.cb.toNat ev := by
  unfold pushEvents
  split
  case isTrue hn => exact placeEvents_inRange hinv hst (fun hgone => hroom ⟨hn, hgone⟩) _
  case isFalse => simp

/-- E.END emits the partial byte from the registers it finds, and closes the chunk from those the byte leaves. -/
theorem endEvents_inRange (hinv : e.Inv c) (hst : e.st = .active) (hroom : ¬ (e.nbits ≠ 0#3 ∧ IndexGone c e)) :
    ∀ ev ∈ flushEvents e ++ closeEvents (flushRegs e), eventInRange c e.cb.toNat ev := by
  rw [List.forall_mem_append]
  by_cases hn : e.nbits = 0#3
  · rw [flushEvents, flushRegs, if_pos hn, if_pos hn]
    exact ⟨by simp, closeEvents_inRange hinv hst⟩
  · have hplace : ¬ IndexGone c e := fun hgone => hroom ⟨hn, hgone⟩
    rw [flushEvents, flushRegs, if_neg hn, if_neg hn]
    exact ⟨placeEvents_inRange hinv hst hplace _, closeEvents_inRange (hinv.placeRegs hst hplace) hst⟩

theorem EncDoes.inRange (hdoes : EncDoes c e i e' evs rw) (hinv : e.Inv c) :
    ∀ ev ∈ evs, eventInRange c e.cb.toNat ev := by
  cases hdoes with
  | sampled hst _ hroom => exact pushEvents_inRange hinv hst hroom _
  | paired hst _ hroom => exact pushEvents_inRange hinv hst hroom _
  | ended hst hroom => exact endEvents_inRange hinv hst hroom
  | _ => simp

/-! ### How many there are -/

theorem placeEvents_counts (B : Byte) (e : EncRegs) :
    byteCount (placeEvents B e) ≤ 1 ∧ cendCount (placeEvents B e) ≤ 1 := by
  rw [byteCount_placeEvents, cendCount_placeEvents]
  split <;> simp

theorem pushEvents_counts (bit : Bool) (e : EncRegs) :
    byteCount (pushEvents bit e) ≤ 1 ∧ cendCount (pushEvents bit e) ≤ 1 := by
  unfold pushEvents
  split
  · exact placeEvents_counts _ e
  · simp [byteCount, cendCount]

/-- The partial byte that fills its chunk leaves none for E.END to close. -/
theorem endEvents_counts (e : EncRegs) :
    byteCount (flushEvents e ++ closeEvents (flushRegs e)) ≤ 1 ∧
      cendCount (flushEvents e ++ closeEvents (flushRegs e)) ≤ 1 := by
  rw [byteCount_append, cendCount_append, byteCount_closeEvents, cendCount_closeEvents]
  by_cases hn : e.nbits = 0#3
  · rw [flushEvents, if_pos hn]
    refine ⟨by simp [byteCount], ?_⟩
    split <;> simp [cendCount]
  · rw [flushEvents, flushRegs, if_neg hn, if_neg hn, byteCount_placeEvents, cendCount_placeEvents]
    refine ⟨le_rfl, ?_⟩
    by_cases hfull : e.pos + 1#23 = e.cb
    · have hpos : (placeRegs e).pos = 0#23 := if_pos hfull
      rw [if_pos hfull, if_pos hpos]
    · rw [if_neg hfull]
      split <;> simp

theorem EncDoes.counts (hdoes : EncDoes c e i e' evs rw) : byteCount evs ≤ 1 ∧ cendCount evs ≤ 1 := by
  cases hdoes with
  | sampled => exact pushEvents_counts _ e
  | paired => exact pushEvents_counts _ e
  | ended => exact endEvents_counts e
  | _ => exact ⟨Nat.zero_le 1, Nat.zero_le 1⟩

/-- The commands that emit on EOUT. -/
theorem EncDoes.emits_only (hdoes : EncDoes c e i e' evs rw) (h : evs ≠ []) :
    (∃ v, i = .eSamp v) ∨ (∃ b, i = .ePcmb b) ∨ i = .eEnd := by
  cases hdoes with
  | sampled => exact .inl ⟨_, rfl⟩
  | paired => exact .inr (.inl ⟨_, rfl⟩)
  | ended => exact .inr (.inr rfl)
  | _ => exact absurd rfl h

/-- The commands that emit on DOUT. -/
theorem DecDoes.emits_only (hdoes : DecDoes d i d' outs rw) (h : outs ≠ []) :
    (∃ b, i = .dBit b) ∨ ∃ b, i = .dByte b := by
  cases hdoes with
  | decodedBit => exact .inl ⟨_, rfl⟩
  | decodedByte => exact .inr ⟨_, rfl⟩
  | _ => exact absurd rfl h

theorem DecDoes.length_of_dBit {b : BitVec 1} (hdoes : DecDoes d (.dBit b) d' outs rw) (hst : d.st = .active) :
    outs.length = 1 := by
  cases hdoes with
  | refused _ hf => simp [hst] at hf
  | raised _ _ hneed => exact absurd hst hneed
  | decodedBit => exact decSeq_length _ _

theorem DecDoes.length_of_dByte {b : Byte} (hdoes : DecDoes d (.dByte b) d' outs rw) (hst : d.st = .active) :
    outs.length = 8 := by
  cases hdoes with
  | refused _ hf => simp [hst] at hf
  | raised _ _ hneed => exact absurd hst hneed
  | decodedByte => rw [decSeq_length, unpack_length]

/-- The outcome of an E command is that of a command of the E side. -/
theorem EncDoes.isEncSide (hdoes : EncDoes c e i e' evs rw) : isEncSide i = true := by
  cases hdoes with
  | refused hi => simp [Claims.isEncSide, hi]
  | raised hi => simp [Claims.isEncSide, hi]
  | _ => rfl

end

/-! ### On the ports -/

theorem any_isEout_encOut (evs : List EoutEvent) (rw : Word) :
    (evs.map PortEvent.eout ++ [PortEvent.rsp rw]).any isEout = true → evs ≠ [] := by
  rintro h rfl
  simp [isEout] at h

theorem any_isDout_encOut (evs : List EoutEvent) (rw : Word) :
    (evs.map PortEvent.eout ++ [PortEvent.rsp rw]).any isDout = false := by
  simp [isDout]

theorem any_isEout_decOut (outs : List SampleWord) (rw : Word) :
    (outs.map PortEvent.dout ++ [PortEvent.rsp rw]).any isEout = false := by
  simp [isEout]

theorem any_isDout_decOut (outs : List SampleWord) (rw : Word) :
    (outs.map PortEvent.dout ++ [PortEvent.rsp rw]).any isDout = true → outs ≠ [] := by
  rintro h rfl
  simp [isDout] at h

theorem countP_isDout_decOut (outs : List SampleWord) (rw : Word) :
    (outs.map PortEvent.dout ++ [PortEvent.rsp rw]).countP isDout = outs.length := by
  have hmap : (isDout ∘ PortEvent.dout) = fun _ => true := rfl
  rw [List.countP_append, List.countP_map, hmap, List.countP_true]
  rfl

/-- Settles O40, by the outcomes of a command: a step that runs none emits no event. -/
theorem emittedEventsAreInRange : Obligations.EmittedEventsAreInRange := by
  unfold Obligations.EmittedEventsAreInRange
  intro s t hinv hstep
  obtain ⟨-, rfl⟩ | ⟨rest, -, rfl⟩ | ⟨_, rest, i, -, -, hexec⟩ | ⟨_, rest, _, -, -, rfl⟩ := step_cases hstep
  · exact ⟨[], by simp⟩
  · exact ⟨[], by simp⟩
  · obtain ⟨e', evs, rw, hdoes, rfl⟩ | ⟨d', outs, rw, -, rfl⟩ | ⟨-, rfl⟩ | ⟨-, rfl⟩ := exec_cases hexec
    · refine ⟨_, encResult_out e' evs rw { s with cin := rest }, fun ev hev => hdoes.inRange hinv ev ?_⟩
      simpa using hev
    · exact ⟨_, decResult_out d' outs rw { s with cin := rest }, by simp⟩
    · exact ⟨[.rsp 0#32], rfl, by simp⟩
    · exact ⟨[.rsp _], rfl, by simp⟩
  · exact ⟨[.rsp _], raiseIllegal_out _, by simp⟩

/-- Settles O41, by the outcomes of a command. -/
theorem eventsPerCommand : Obligations.EventsPerCommand := by
  unfold Obligations.EventsPerCommand
  intro i s t hexec
  obtain ⟨e', evs, rw, hdoes, rfl⟩ | ⟨d', outs, rw, hdoes, rfl⟩ | ⟨rfl, rfl⟩ | ⟨rfl, rfl⟩ := exec_cases hexec
  case inl =>
    have hside := hdoes.isEncSide
    have hcounts := hdoes.counts
    refine ⟨_, encResult_out e' evs rw s, ?_, ?_, fun h => hdoes.emits_only (any_isEout_encOut evs rw h), ?_, ?_, ?_⟩
    · simpa [List.filterMap_map] using hcounts.1
    · simpa [List.filterMap_map] using hcounts.2
    · rintro b rfl
      cases hside
    · rintro b rfl
      cases hside
    · rw [any_isDout_encOut]
      simp
  case inr.inl =>
    refine ⟨_, decResult_out d' outs rw s, ?_, ?_, ?_, ?_, ?_, fun h => hdoes.emits_only (any_isDout_decOut outs rw h)⟩
    · simp [List.filterMap_map, byteCount]
    · simp [List.filterMap_map, cendCount]
    · rw [any_isEout_decOut]
      simp
    · rintro b rfl hst
      rw [countP_isDout_decOut, hdoes.length_of_dBit hst]
    · rintro b rfl hst
      rw [countP_isDout_decOut, hdoes.length_of_dByte hst]
  case inr.inr.inl => exact ⟨[.rsp 0#32], rfl, by simp [byteCount, cendCount, isEout, isDout]⟩
  case inr.inr.inr => exact ⟨[.rsp _], rfl, by simp [byteCount, cendCount, isEout, isDout]⟩

end Sys2Proof.Machine
end

