-- ==== Sys2Proof/Proofs/StepOutcomes.lean ====
section
/-!
The step on every state (spec/20_memory.md R51; spec/30_encoding.md R77; spec/70_reset_and_hazards.md R251, R252): it
always has a next state, and what that is by the host's next action.
-/

namespace Sys2Proof.Machine

open Claims

/-- Every command has a next state, and none touches the host's pending actions or the configuration. -/
theorem exec_total (i : Instr) (s : State) : ∃ t, exec i s = .next t ∧ t.cin = s.cin ∧ t.cfg = s.cfg := by
  have henc (hi : isEncSide i = true) : ∃ t, exec i s = .next t ∧ t.cin = s.cin ∧ t.cfg = s.cfg := by
    obtain ⟨e', evs, rw, -, hexec⟩ := encRuns_of_isEncSide s.cfg s.enc hi
    exact ⟨_, hexec s rfl rfl, rfl, rfl⟩
  have hdec (hi : isDecSide i = true) : ∃ t, exec i s = .next t ∧ t.cin = s.cin ∧ t.cfg = s.cfg := by
    obtain ⟨d', outs, rw, -, hexec⟩ := decRuns_of_isDecSide s.dec hi
    exact ⟨_, hexec s rfl, rfl, rfl⟩
  cases i with
  | reset => exact ⟨_, exec_reset s, rfl, rfl⟩
  | rdstat => exact ⟨_, exec_rdstat s, rfl, rfl⟩
  | eCfg _ | eStart | eSamp _ | ePcmb _ | eEnd | eRdst => exact henc rfl
  | dStart | dBit _ | dByte _ | dEnd | dRdst => exact hdec rfl

theorem step_nil {s : State} (hcin : s.cin = []) : step s = .next s := by
  simp only [step, takeAction_nil hcin]

theorem step_undecodedWord {s : State} {cw : Word} {rest : List HostAction} {r : IllegalWord}
    (hcin : s.cin = .word cw :: rest) (hd : decode cw = .error r) :
    step s = .next (raiseIllegal { s with cin := rest }) := by
  simp only [step, takeAction_cons hcin, hd]

/-- A step always has a next state, takes one action and keeps the configuration. -/
theorem step_total (s : State) : ∃ t, step s = .next t ∧ t.cin = s.cin.tail ∧ t.cfg = s.cfg := by
  rcases hcin : s.cin with _ | ⟨a, rest⟩
  · exact ⟨s, step_nil hcin, hcin, rfl⟩
  · cases a with
    | hardwareReset => exact ⟨_, step_hardwareReset hcin, rfl, rfl⟩
    | word cw =>
      cases hd : decode cw with
      | ok i =>
        obtain ⟨t, hexec, ht, hcfg⟩ := exec_total i { s with cin := rest }
        exact ⟨t, (step_decodedWord hcin hd).trans hexec, ht, hcfg⟩
      | error r => exact ⟨_, step_undecodedWord hcin hd, rfl, rfl⟩

/-- Settles O7. -/
theorem stepRunsTheDecodedCommand : Obligations.StepRunsTheDecodedCommand := by
  unfold Obligations.StepRunsTheDecodedCommand
  exact fun _ _ _ _ => step_decodedWord

/-- Settles O8. -/
theorem stepWaitsForTheHost : Obligations.StepWaitsForTheHost := by
  unfold Obligations.StepWaitsForTheHost
  exact fun _ => step_nil

/-- Settles O11, by the host's next action and, for a word, by the decoder's answer. -/
theorem everyStepGivesANextState : Obligations.EveryStepGivesANextState := by
  unfold Obligations.EveryStepGivesANextState
  exact step_total

end Sys2Proof.Machine
end

