-- ==== Sys2Proof/Proofs/FaultRecord.lean ====
section
/-!
What an answer tells of the faults (spec/30_encoding.md R74; spec/60_exceptions.md R208, R209): an answer other than
OK reports a fault that is on record after it, and no step without a reset takes one off.
-/

namespace Sys2Proof.Machine

open Claims

/-! ### The code of an answer -/

/-- The code of a fault's answer is the fault's (R74). -/
theorem faultWord_code (code : BitVec 3) : (faultWord code).toNat / 2 ^ 28 = code.toNat := by
  have hcode : code.toNat < 8 := code.isLt
  rw [faultWord, BitVec.toNat_ofNat]
  omega

/-- The code of an answer with data is OK (R74). -/
theorem responseWord_ok_code (data : BitVec 28) : (responseWord 0#4 data).toNat / 2 ^ 28 = 0 := by
  have hdata : data.toNat < 2 ^ 28 := data.isLt
  rw [toNat_responseWord_ok]
  omega

section
variable {c : Config} {e e' : EncRegs} {d d' : DecRegs} {i : Instr} {evs : List EoutEvent} {outs : List SampleWord}
  {rw : Word}

/-- An E command answers OK, or with the code its side has latched in FAULT. -/
theorem EncDoes.answer (h : EncDoes c e i e' evs rw) :
    rw.toNat / 2 ^ 28 = 0 ∨ (e'.st = .fault ∧ rw = faultWord e'.fcode) := by
  cases h with
  | refused _ hst => exact .inr ⟨hst, rfl⟩
  | raised => exact .inr ⟨rfl, rfl⟩
  | read => exact .inl (responseWord_ok_code _)
  | _ => exact .inl rfl

/-- A D command answers OK, or with the code its side has latched in FAULT. -/
theorem DecDoes.answer (h : DecDoes d i d' outs rw) :
    rw.toNat / 2 ^ 28 = 0 ∨ (d'.st = .fault ∧ rw = faultWord d'.fcode) := by
  cases h with
  | refused _ hst => exact .inr ⟨hst, rfl⟩
  | raised => exact .inr ⟨rfl, rfl⟩
  | read => exact .inl (responseWord_ok_code _)
  | _ => exact .inl rfl

end

/-- The word is OK or reports the fault that a side in FAULT, or `ILL`, has on record (R74, R209). -/
def AnswerOnRecord (t : State) (rw : Word) : Prop :=
  rw.toNat / 2 ^ 28 = 0 ∨ (t.enc.st = .fault ∧ rw = faultWord t.enc.fcode) ∨
    (t.dec.st = .fault ∧ rw = faultWord t.dec.fcode) ∨ (t.ill = true ∧ rw = faultWord (faultCode .illegalCmd))

section
variable {s t : State} {rw : Word}

theorem AnswerOnRecord.faultOnRecord (h : AnswerOnRecord t rw) (hrw : rw.toNat / 2 ^ 28 ≠ 0) : faultOnRecord t := by
  obtain h | ⟨h, -⟩ | ⟨h, -⟩ | ⟨h, -⟩ := h
  · exact absurd h hrw
  · exact .inl h
  · exact .inr (.inl h)
  · exact .inr (.inr h)

/-- The invariant says which codes a side latches, and none is above 4 (R39, item 6). -/
theorem AnswerOnRecord.code_le (h : AnswerOnRecord t rw) (henc : t.enc.Inv t.cfg) (hdec : t.dec.Inv) :
    rw.toNat / 2 ^ 28 ≤ 4 := by
  obtain h | ⟨hst, rfl⟩ | ⟨hst, rfl⟩ | ⟨-, rfl⟩ := h
  · omega
  · rw [faultWord_code]
    obtain hcode | hcode | hcode := henc.fault_code hst <;> rw [hcode] <;> decide
  · rw [faultWord_code, hdec.fault_code hst]
    decide
  · rw [faultWord_code]
    decide

theorem exec_answerOnRecord {i : Instr} (h : exec i s = .next t) :
    ∃ es, t.out = s.out ++ es ∧ ∀ rw, .rsp rw ∈ es → AnswerOnRecord t rw := by
  obtain ⟨e', evs, rw, hdoes, rfl⟩ | ⟨d', outs, rw, hdoes, rfl⟩ | ⟨-, rfl⟩ | ⟨-, rfl⟩ := exec_cases h
  · refine ⟨_, encResult_out e' evs rw s, fun rw' hrw' => ?_⟩
    obtain rfl : rw' = rw := by simpa using hrw'
    obtain hok | hfault := hdoes.answer
    · exact .inl hok
    · exact .inr (.inl hfault)
  · refine ⟨_, decResult_out d' outs rw s, fun rw' hrw' => ?_⟩
    obtain rfl : rw' = rw := by simpa using hrw'
    obtain hok | hfault := hdoes.answer
    · exact .inl hok
    · exact .inr (.inr (.inl hfault))
  · refine ⟨[.rsp 0#32], rfl, fun rw' hrw' => ?_⟩
    obtain rfl : rw' = 0#32 := by simpa using hrw'
    exact .inl rfl
  · refine ⟨[.rsp _], rfl, fun rw' hrw' => ?_⟩
    obtain rfl : rw' = _ := by simpa using hrw'
    exact .inl (responseWord_ok_code _)

/-- What a step answers is OK or on record after it. -/
theorem step_answerOnRecord (h : step s = .next t) :
    ∃ es, t.out = s.out ++ es ∧ ∀ rw, .rsp rw ∈ es → AnswerOnRecord t rw := by
  obtain ⟨-, rfl⟩ | ⟨rest, -, rfl⟩ | ⟨_, rest, i, -, -, hexec⟩ | ⟨_, rest, _, -, -, rfl⟩ := step_cases h
  · exact ⟨[], by simp⟩
  · exact ⟨[], by simp⟩
  · exact exec_answerOnRecord (s := { s with cin := rest }) hexec
  · refine ⟨[.rsp _], raiseIllegal_out _, fun rw' hrw' => ?_⟩
    obtain rfl : rw' = _ := by simpa using hrw'
    exact .inr (.inr (.inr ⟨rfl, responseWord_fault 3#3⟩))

theorem KeepsFaults.faultOnRecord (h : KeepsFaults s t) (hs : faultOnRecord s) : faultOnRecord t := by
  obtain hs | hs | hs := hs
  · exact .inl (h.enc hs).1
  · exact .inr (.inl (h.dec hs).1)
  · exact .inr (.inr (h.ill hs))

/-- A step that takes no reset keeps a fault on record: RESET is the one command that takes one off (R171, R209). -/
theorem step_keeps_faultOnRecord (h : step s = .next t) (hreset : ∀ a ∈ s.cin.head?, isReset a = false)
    (hs : faultOnRecord s) : faultOnRecord t := by
  obtain ⟨-, rfl⟩ | ⟨rest, hcin, -⟩ | ⟨cw, rest, i, hcin, hd, hexec⟩ | ⟨_, rest, _, -, -, rfl⟩ := step_cases h
  · exact hs
  · simp [hcin, isReset] at hreset
  · have hi : i ≠ .reset := by
      rintro rfl
      simp [hcin, isReset, eq_of_decode_reset hd] at hreset
    exact (exec_keepsFaults hexec hi).faultOnRecord hs
  · exact .inr (.inr rfl)

/-! ### Along a run -/

theorem core_run_succ {u : State} (h : step s = .next u) (n : Nat) :
    Sys2Proof.core.run (n + 1) s = Sys2Proof.core.run n u := by
  have hstep : Sys2Proof.core.step s = .next u := h
  simp only [Host.Core.run, hstep]

/-- A run that ends with no fault on record had none before, and every answer in it was OK. -/
theorem run_answers_ok {n : Nat} (h : Sys2Proof.core.run n s = .next t)
    (hreset : ∀ a ∈ s.cin.take n, isReset a = false) (ht : ¬ faultOnRecord t) :
    ¬ faultOnRecord s ∧ ∃ es, t.out = s.out ++ es ∧ ∀ rw, .rsp rw ∈ es → rw.toNat / 2 ^ 28 = 0 := by
  induction n generalizing s with
  | zero =>
    cases h
    exact ⟨ht, [], by simp⟩
  | succ n ih =>
    obtain ⟨u, hstep, hcin, -⟩ := step_total s
    have hrun : Sys2Proof.core.run n u = .next t := (core_run_succ hstep n).symm.trans h
    have hhead : ∀ a ∈ s.cin.head?, isReset a = false := by
      intro a ha
      obtain ⟨rest, hrest⟩ := List.head?_eq_some_iff.1 ha
      exact hreset a (by simp [hrest])
    have htail : ∀ a ∈ u.cin.take n, isReset a = false := by
      intro a ha
      rw [hcin] at ha
      rcases hs : s.cin with _ | ⟨b, rest⟩
      · simp [hs] at ha
      · rw [hs] at ha
        exact hreset a (by simp [hs, show a ∈ rest.take n from ha])
    obtain ⟨hu, es, hout, hok⟩ := ih hrun htail
    obtain ⟨es', hout', hanswers⟩ := step_answerOnRecord hstep
    refine ⟨fun hs => hu (step_keeps_faultOnRecord hstep hhead hs), es' ++ es, ?_, fun rw hrw => ?_⟩
    · rw [hout, hout', List.append_assoc]
    · obtain hrw | hrw := List.mem_append.1 hrw
      · by_contra hne
        exact hu ((hanswers rw hrw).faultOnRecord hne)
      · exact hok rw hrw

end

/-- Settles O34: an answer is on record after the step, and the invariant, which the step keeps, bounds the codes. -/
theorem responseCodesFiveAndUpNeverOccur : Obligations.ResponseCodesFiveAndUpNeverOccur := by
  unfold Obligations.ResponseCodesFiveAndUpNeverOccur
  intro s t henc hdec hstep
  obtain ⟨es, hout, hanswers⟩ := step_answerOnRecord hstep
  obtain ⟨henc', hdec'⟩ := step_keeps_registers_inv hstep henc hdec
  exact ⟨es, hout, fun rw hrw => (hanswers rw hrw).code_le henc' hdec'⟩

/-- Settles O36: what a step answers is on record after it. -/
theorem faultAnswersStayOnRecord : Obligations.FaultAnswersStayOnRecord := by
  unfold Obligations.FaultAnswersStayOnRecord
  intro s t hstep hreset
  obtain ⟨es, hout, hanswers⟩ := step_answerOnRecord hstep
  exact ⟨step_keeps_faultOnRecord hstep hreset, es, hout, fun rw hrw => (hanswers rw hrw).faultOnRecord⟩

/-- Settles O35, by induction on the number of steps. -/
theorem runThatEndsWithoutFaultHadNone : Obligations.RunThatEndsWithoutFaultHadNone := by
  unfold Obligations.RunThatEndsWithoutFaultHadNone
  intro n s t hrun hreset henc hdec hill
  have ht : ¬ faultOnRecord t := by simp [faultOnRecord, henc, hdec, hill]
  exact (run_answers_ok hrun hreset ht).2

end Sys2Proof.Machine
end

