-- ==== Sys2Proof/Proofs/Independence.lean ====
section
/-!
The two sides are independent (spec/00_scope.md R18; spec/10_state.md R20): a command's outcome is a function of its
side's registers, and it writes its side, its port and its answer alone.
-/

namespace Sys2Proof.Machine

open Claims

/-- Where the stream's events begin in the history moves with E.START alone (log entry 20). -/
theorem EncDoes.mark_kept {c : Config} {e e' : EncRegs} {i : Instr} {evs : List EoutEvent} {rw : Word}
    (h : EncDoes c e i e' evs rw) (hi : i ≠ .eStart) : e.st = .active ∨ e'.st ≠ .active := by
  cases h with
  | opened => exact absurd rfl hi
  | raised => exact .inr (by simp)
  | ended => exact .inr (by simp [freshRegs])
  | sampled hst => exact .inl hst
  | held hst => exact .inl hst
  | paired hst => exact .inl hst
  | _ => exact Decidable.em (e.st = .active)

/-- Settles O42: both states run to the result of one and the same outcome. -/
theorem sidesShareNoRegister : Obligations.SidesShareNoRegister := by
  unfold Obligations.SidesShareNoRegister
  refine ⟨fun i s s' hi henc hcfg => ?enc, fun i s s' hi hdec => ?dec⟩
  case enc =>
    obtain ⟨e', evs, rw, hdoes, hexec⟩ := encRuns_of_isEncSide s.cfg s.enc hi
    refine ⟨_, _, evs.map .eout ++ [.rsp rw], hexec s rfl rfl, hexec s' hcfg.symm henc.symm, rfl, ?_, ?_,
      fun hstart => ?_, any_isDout_encOut evs rw⟩
    · rw [← encResult_out e' evs rw s]
      rfl
    · rw [← encResult_out e' evs rw s']
      rfl
    · have hkept := hdoes.mark_kept hstart
      rw [encResult_of_mark_kept evs hkept, encResult_of_mark_kept evs (henc ▸ hkept)]
      exact ⟨rfl, rfl⟩
  case dec =>
    obtain ⟨d', outs, rw, -, hexec⟩ := decRuns_of_isDecSide s.dec hi
    refine ⟨_, _, outs.map .dout ++ [.rsp rw], hexec s rfl, hexec s' hdec.symm, rfl, ?_, ?_, any_isEout_decOut outs rw⟩
    · rw [← decResult_out d' outs rw s]
      rfl
    · rw [← decResult_out d' outs rw s']
      rfl

theorem runCommands_cons {i : Instr} {is : List Instr} {s t : State} (h : exec i s = .next t) :
    runCommands (i :: is) s = runCommands is t := by
  rw [runCommands, h]

theorem runCommands_nil (s : State) : runCommands [] s = some s := rfl

/-- Settles O43: in either order each command finds its own side as it was, so both do the same. -/
theorem commandsOfDifferentSidesCommute : Obligations.CommandsOfDifferentSidesCommute := by
  unfold Obligations.CommandsOfDifferentSidesCommute
  intro i j s hi hj
  obtain ⟨e', evs, ri, -, hexecE⟩ := encRuns_of_isEncSide s.cfg s.enc hi
  obtain ⟨d', outs, rj, -, hexecD⟩ := decRuns_of_isDecSide s.dec hj
  refine ⟨decResult d' outs rj (encResult e' evs ri s), encResult e' evs ri (decResult d' outs rj s), ri, rj,
    ?_, ?_, rfl, rfl, rfl, rfl, rfl, ?_, by simp, by simp, by simp, by simp⟩
  · rw [runCommands_cons (hexecE s rfl rfl), runCommands_cons (hexecD (encResult e' evs ri s) rfl), runCommands_nil]
  · rw [runCommands_cons (hexecD s rfl), runCommands_cons (hexecE (decResult d' outs rj s) rfl rfl), runCommands_nil]
  · have hmark : (encResult e' evs ri (decResult d' outs rj s)).eoutMark = (encResult e' evs ri s).eoutMark := by
      rw [encResult, decResult_eout]
      rfl
    exact hmark.symm

end Sys2Proof.Machine
end

