-- ==== Sys2Proof/Proofs/StreamLaws.lean ====
section
/-!
Laws of single commands (spec/43_stream.md R173; spec/40_codec.md R114; spec/20_memory.md R57, R58;
spec/70_reset_and_hazards.md R251): E.START in every state, what of a sample reaches the codec, the two forms of a
sample, the odd trailing byte, and the answer that reports a clean end.
-/

namespace Sys2Proof.Machine

open Claims

/-! ### RDSTAT at a clean end -/

theorem stCode_eq_zero_iff (st : StreamState) : stCode st = 0#2 ↔ st = .idle := by
  cases st <;> decide

theorem toNat_eq_zero_iff {w : Nat} (x : BitVec w) : x.toNat = 0 ↔ x = 0#w := by
  rw [← BitVec.toNat_inj, BitVec.toNat_ofNat, Nat.zero_mod]

/-- STATUS is 0 exactly when each of its fields is (R35). -/
theorem toNat_status_eq_zero_iff (s : State) : (status s).toNat = 0 ↔ s.cleanEnd := by
  have hshift (n k : Nat) : n * 2 ^ k = 0 ↔ n = 0 := by simp
  rw [toNat_status]
  simp only [State.cleanEnd, Nat.add_eq_zero_iff, hshift, toNat_eq_zero_iff, stCode_eq_zero_iff, Bool.toNat_eq_zero]
  tauto

theorem answered_inj {rw rw' : Word} {s : State} : answered rw s = answered rw' s ↔ rw = rw' := by
  refine ⟨fun h => ?_, fun h => by rw [h]⟩
  simpa [answered] using congrArg State.out h

/-- Settles O17: the answer is STATUS, whose fields are those of a clean end. -/
theorem cleanEndIsAZeroStatus : Obligations.CleanEndIsAZeroStatus := by
  unfold Obligations.CleanEndIsAZeroStatus
  intro s
  rw [exec_rdstat, Host.Outcome.next.injEq, answered_inj, ← toNat_eq_zero_iff, toNat_status_response,
    toNat_status_eq_zero_iff]

/-! ### E.START -/

/-- Settles O19, by the three stream states and, in IDLE, by whether `E.cb` is configured. -/
theorem estartOpensAFreshStreamOrFaults : Obligations.EstartOpensAFreshStreamOrFaults := by
  unfold Obligations.EstartOpensAFreshStreamOrFaults
  refine fun s => ⟨fun hst => ?fault, fun hst => ?active, fun hst hcb => ?unconfigured, fun hst hcb => ?opens⟩
  case fault => rw [exec_eStart, encCommand_fault hst, refuseEnc_eq_answered]
  case active =>
    rw [exec_eStart, encCommand_outOfSequence (by simp [hst]) (by simp [hst]), raiseEnc_eq_faultedE, faultCode]
  case unconfigured =>
    rw [exec_eStart, if_pos hcb, encCommand_error (by simp [hst]) hst, raiseEnc_eq_faultedE, faultCode]
  case opens =>
    rw [exec_eStart, if_neg hcb, encCommand_ok (by simp [hst]) hst, respondOk_zero]
    rfl

/-! ### Samples -/

/-- A sample reaches the codec by the decision on it alone (R106, R117). -/
theorem encPush_congr {s : State} {v w : Int} (h : decides s.enc.codec v = decides s.enc.codec w) :
    encPush v s = encPush w s := by
  simp only [encPush, encStep, encDecision_eq_decides, h]

theorem toInt_pair (hi lo : Byte) : (hi ++ lo).toInt = hi.toInt * 256 + lo.toNat := by
  rw [← sampleOfBytes_eq, sampleOfBytes, sext_eq_toInt]

/-- Reduction drops the low byte (R100). -/
theorem decides_pair (cs : CodecState) (hi lo lo' : Byte) :
    decides cs (hi ++ lo).toInt = decides cs (hi ++ lo').toInt := by
  have hlo := lo.isLt
  have hlo' := lo'.isLt
  rw [decides, decides, toInt_pair, toInt_pair, show (hi.toInt * 256 + lo.toNat) / 256 = hi.toInt by omega,
    show (hi.toInt * 256 + lo'.toNat) / 256 = hi.toInt by omega]

/-- Settles O23: the low byte takes no part in the decision. -/
theorem onlyTheHighByteOfASampleMatters : Obligations.OnlyTheHighByteOfASampleMatters := by
  unfold Obligations.OnlyTheHighByteOfASampleMatters
  intro hi lo lo' s
  rw [exec_eSamp, exec_eSamp, encPush_congr (decides_pair s.enc.codec hi lo lo')]

/-- The sequencer and the packer do not look at the pending byte. -/
theorem pushRegs_pendRegs (bit : Bool) (b : Byte) (p : Bool) (e : EncRegs) :
    pushRegs bit (pendRegs b p e) = pendRegs b p (pushRegs bit e) := by
  have hsame : (pendRegs b p e).nbits = e.nbits := rfl
  rw [pushRegs, pushRegs, packRegs, packRegs, hsame]
  split <;> rfl

theorem pushEvents_pendRegs (bit : Bool) (b : Byte) (p : Bool) (e : EncRegs) :
    pushEvents bit (pendRegs b p e) = pushEvents bit e := rfl

theorem pendRegs_pendRegs (b b' : Byte) (p p' : Bool) (e : EncRegs) :
    pendRegs b' p' (pendRegs b p e) = pendRegs b' p' e := rfl

/-- Registers with nothing pending, in the form E.PCMB leaves them. -/
theorem pendRegs_of_empty {e : EncRegs} (hhold : e.hold = 0#8) (hp : e.pend = false) : pendRegs 0#8 false e = e := by
  rw [← hhold, ← hp]
  rfl

/-- A sample's two bytes leave the registers that the sample leaves, with nothing pending, and emit what it emits. -/
theorem exec_ePcmb_pair {s : State} (lo hi : Byte) (hst : s.enc.st = .active) (hp : s.enc.pend = false)
    (hroom : ¬ (s.enc.nbits = 7#3 ∧ IndexGone s.cfg s.enc)) :
    runCommands [.ePcmb lo, .ePcmb hi] s =
      some (encResult (pendRegs 0#8 false (pushRegs (decides s.enc.codec (sampleOfBytes lo hi)) s.enc))
        (pushEvents (decides s.enc.codec (sampleOfBytes lo hi)) s.enc) 0#32
        (encResult (pendRegs lo true s.enc) [] 0#32 s)) := by
  have hhigh := exec_ePcmb_high (s := encResult (pendRegs lo true s.enc) [] 0#32 s) (b := hi) hst rfl hroom
  have henc : (encResult (pendRegs lo true s.enc) [] 0#32 s).enc = pendRegs lo true s.enc := rfl
  rw [henc, pushRegs_pendRegs, pushEvents_pendRegs, pendRegs_pendRegs] at hhigh
  rw [runCommands_cons (exec_ePcmb_low hst hp), runCommands_cons hhigh, runCommands_nil, sampleOfBytes_eq]
  rfl

/-- Settles O24: the second byte completes the sample, and clears the pending byte that the sample form never set. -/
theorem byteFormAndSampleFormAgree : Obligations.ByteFormAndSampleFormAgree := by
  unfold Obligations.ByteFormAndSampleFormAgree
  intro lo hi s hst hp hhold hroom
  have hempty : pendRegs 0#8 false s.enc = s.enc := pendRegs_of_empty hhold hp
  refine ⟨_, _, exec_ePcmb_pair lo hi hst hp hroom,
    (runCommands_cons (exec_eSamp_ok hst hp hroom)).trans (runCommands_nil _), ?_, rfl, rfl, ?_, by simp⟩
  · rw [← pushRegs_pendRegs, hempty, sampleOfBytes_eq, ← toInt_pair]
    rfl
  · rw [sampleOfBytes_eq, ← toInt_pair]
    simp

/-! ### The odd trailing byte -/

theorem flushRegs_pendRegs (b : Byte) (p : Bool) (e : EncRegs) :
    flushRegs (pendRegs b p e) = pendRegs b p (flushRegs e) := by
  have hsame : (pendRegs b p e).nbits = e.nbits := rfl
  rw [flushRegs, flushRegs, hsame]
  split <;> rfl

/-- E.END emits and leaves the same whatever byte is pending (R205). -/
theorem exec_eEnd_pendRegs {s : State} (hst : s.enc.st = .active)
    (hroom : ¬ (s.enc.nbits ≠ 0#3 ∧ IndexGone s.cfg s.enc)) (b : Byte) (p : Bool) :
    exec .eEnd { s with enc := pendRegs b p s.enc } =
      .next (encResult (freshRegs .idle s.enc) (flushEvents s.enc ++ closeEvents (flushRegs s.enc)) 0#32 s) := by
  rw [exec_eEnd_ok (s := { s with enc := pendRegs b p s.enc }) hst hroom, flushRegs_pendRegs]
  rfl

/-- Settles O25: the stream's registers are discarded, the pending byte among them. -/
theorem oddTrailingByteLeavesNoTrace : Obligations.OddTrailingByteLeavesNoTrace := by
  unfold Obligations.OddTrailingByteLeavesNoTrace
  exact fun s b p hst hroom => ⟨_, exec_eEnd_ok hst hroom, exec_eEnd_pendRegs hst hroom b p, rfl⟩

end Sys2Proof.Machine
end

