-- ==== Sys2Proof/Proofs/CodecLaws.lean ====
section
/-!
The laws of the update rule (spec/40_codec.md R108 to R115): a step of the level is `d * f / 64`, rounded down, of the
distance `d` to the target with `f` from 1 to 64, and the encoder's step is the decoder's on the decision it makes.
-/

namespace Sys2Proof.Machine

open Claims

/-! ### Adapt (R108) -/

/-- Settles O44: the clamp holds the range, and inside the range it moves the response by at most the 1 asked for. -/
theorem adaptStaysInRange : Obligations.AdaptStaysInRange := by
  unfold Obligations.AdaptStaysInRange
  intro resp bit last hlo hhi
  unfold adapt clamp
  split_ifs <;> omega

/-! ### Predict (R109) -/

theorem predict_eq (level target resp : Int) :
    predict level target resp = level + (target - level) * (resp + 1) / 64 := by
  rw [predict, asr_eq_ediv]
  rfl

section
variable {d f : Int}

/-- An upward step covers the whole distance when the fraction is 1, or when there is no distance. -/
theorem step_up_full_iff (hd : 0 ≤ d) (hf' : f ≤ 64) : d * f / 64 = d ↔ f = 64 ∨ d = 0 := by
  constructor
  · intro h
    by_contra hne
    obtain ⟨hf, hd0⟩ := not_or.1 hne
    have hlt : d * f ≤ d * 63 := mul_le_mul_of_nonneg_left (by omega) hd
    omega
  · rintro (rfl | rfl) <;> omega

/-- An upward step stalls when the fraction of the distance is below 1. -/
theorem step_up_stall_iff (hd : 0 ≤ d) (hf : 0 ≤ f) : d * f / 64 = 0 ↔ d * f < 64 := by
  have hnonneg : 0 ≤ d * f := mul_nonneg hd hf
  omega

/-- A downward step is at least 1, since it is rounded down. -/
theorem step_down_neg (hd : d < 0) (hf : 0 < f) : d * f / 64 ≤ -1 := by
  have hneg : d * f < 0 := mul_neg_of_neg_of_pos hd hf
  omega

/-- A downward step covers the whole distance when what rounding adds makes up for the missing fraction. -/
theorem step_down_full_iff (hd : d < 0) (hf' : f ≤ 64) : d * f / 64 = d ↔ -d * (64 - f) < 64 := by
  have hprod : -d * (64 - f) = d * f - 64 * d := by ring
  have hge : d * 64 ≤ d * f := mul_le_mul_of_nonpos_left hf' hd.le
  omega

end

/-- Settles O45, by what a step of `d * f / 64` covers of the distance `d`. -/
theorem predictionMovesTowardTheTarget : Obligations.PredictionMovesTowardTheTarget := by
  unfold Obligations.PredictionMovesTowardTheTarget
  intro level target resp hlo hhi
  rw [predict_eq]
  obtain ⟨hmin, hmax⟩ := step_between (d := target - level) (f := resp + 1) (by omega) (by omega)
  refine ⟨fun hup => ?up, fun hdown => ?down⟩
  case up =>
    have hfull := step_up_full_iff (d := target - level) (f := resp + 1) (by omega) (by omega)
    have hstall := step_up_stall_iff (d := target - level) (f := resp + 1) (by omega) (by omega)
    exact ⟨by omega, by omega, by omega, by omega⟩
  case down =>
    have hneg := step_down_neg (d := target - level) (f := resp + 1) (by omega) (by omega)
    have hfull := step_down_full_iff (d := target - level) (f := resp + 1) (by omega) (by omega)
    rw [show -(target - level) * (64 - (resp + 1)) = (level - target) * (63 - resp) by ring] at hfull
    exact ⟨by omega, by omega, by omega⟩

/-! ### The registers (R110, R111) -/

/-- Settles O46, by the integer rule on the registers and the level's range. -/
theorem updateIsExactOnTheRegisters : Obligations.UpdateIsExactOnTheRegisters := by
  unfold Obligations.UpdateIsExactOnTheRegisters
  intro cs bit
  have hresp : nextResp cs.resp.toNat bit cs.last ≤ 63 := nextResp_le (by omega) bit cs.last
  exact ⟨codecAfter_update cs bit, nextLevel_bounds cs.level.le_toInt BitVec.toInt_le hresp bit⟩

/-- Settles O47: the distance is within 255, and both the product and its quotient by the fraction. -/
theorem intermediateProductsFitSixteenBits : Obligations.IntermediateProductsFitSixteenBits := by
  unfold Obligations.IntermediateProductsFitSixteenBits
  intro cs bit d p
  have hlo : -128 ≤ cs.level.toInt := cs.level.le_toInt
  have hhi : cs.level.toInt ≤ 127 := BitVec.toInt_le
  have hd : -255 ≤ d ∧ d ≤ 255 := by
    simp only [d, target, sext_eq_toInt]
    split <;> omega
  obtain ⟨hf, hf', -⟩ := adaptStaysInRange cs.resp.toNat bit cs.last (by omega) (by omega)
  obtain ⟨hmin, hmax⟩ := step_between (d := d) (f := adapt cs.resp.toNat bit cs.last + 1) (by omega) (by omega)
  have hp : -16320 ≤ p ∧ p ≤ 16320 := by
    simp only [p]
    constructor <;> nlinarith
  have hq : -255 ≤ asr p 6 ∧ asr p 6 ≤ 255 := by
    rw [asr_eq_ediv, show (2 : Int) ^ 6 = 64 from rfl]
    simp only [p]
    omega
  exact ⟨hd, hp, hq⟩

/-! ### Stalls (R115) -/

/-- Settles O48: the moves of the level by the steps of R109, the decisions by the level's two ends. -/
theorem levelStallsAndEscapes : Obligations.LevelStallsAndEscapes := by
  unfold Obligations.LevelStallsAndEscapes
  refine ⟨fun level resp hlevel hlo hhi => ⟨?rises, ?top, fun hlow => ?falls, ?bottom⟩,
    fun cs sample => ⟨fun h => ?atTop, fun h => ?atBottom⟩⟩
  case rises =>
    obtain ⟨hup, -⟩ := predictionMovesTowardTheTarget level (target true) resp hlo hhi
    obtain ⟨hge, -, -, hstall⟩ := hup hlevel
    rw [show target true = 127 from rfl] at *
    omega
  case top => rw [predict_eq, show target true = 127 from rfl]; omega
  case falls =>
    obtain ⟨-, hdown⟩ := predictionMovesTowardTheTarget level (target false) resp hlo hhi
    exact (hdown hlow).2.1
  case bottom => rw [predict_eq, show target false = -128 from rfl]; omega
  case atTop =>
    have hlevel : cs.level.toInt = 127 := by rw [h]; rfl
    rw [encStep, encDecision_eq_decides, decides, decide_eq_true_iff, hlevel]
    omega
  case atBottom =>
    have hsample : -32768 ≤ sample.toInt := sample.le_toInt
    rw [encStep, encDecision_eq_decides, decides, decide_eq_true_iff, h]
    omega

/-! ### Sequences of samples (R112, R113) -/

theorem encSeq_cons (cs : CodecState) (v : Int) (vs : List Int) :
    encSeq cs (v :: vs) =
      ((encSeq (update cs (decides cs v)) vs).1, decides cs v :: (encSeq (update cs (decides cs v)) vs).2) := by
  rw [encSeq, encStep, encDecision_eq_decides]

/-- Decoding the decisions of an encoding passes through the encoder's states. -/
theorem decSeq_encSeq (cs : CodecState) (vs : List Int) : (decSeq cs (encSeq cs vs).2).1 = (encSeq cs vs).1 := by
  induction vs generalizing cs with
  | nil => rfl
  | cons v vs ih => rw [encSeq_cons, decSeq_cons, ih]

/-- The output after a sample is that of the encoder's state after it. -/
theorem decSeq_encSeq_getElem? (cs : CodecState) (vs : List Int) (k : Nat) (hk : k < vs.length) :
    (decSeq cs (encSeq cs vs).2).2[k]? = some (reconstruct (encSeq cs (vs.take (k + 1))).1) := by
  induction vs generalizing cs k with
  | nil => cases hk
  | cons v vs ih =>
    rw [encSeq_cons, decSeq_cons, List.take_succ_cons, encSeq_cons]
    cases k with
    | zero => rfl
    | succ k => exact ih _ k (by simpa using hk)

/-- Settles O49, by induction on the samples. -/
theorem encoderAndDecoderRunInLockstep : Obligations.EncoderAndDecoderRunInLockstep := by
  unfold Obligations.EncoderAndDecoderRunInLockstep
  refine fun cs samples => ⟨decSeq_encSeq cs samples, ?_, fun k hk => ?_⟩
  · rw [decSeq_length, encSeq_length]
  · rw [decSeq_encSeq_getElem? cs samples k hk, Option.map_some, toInt_reconstruct]

theorem encSeq_append (cs : CodecState) (xs ys : List Int) :
    encSeq cs (xs ++ ys) =
      ((encSeq (encSeq cs xs).1 ys).1, (encSeq cs xs).2 ++ (encSeq (encSeq cs xs).1 ys).2) := by
  induction xs generalizing cs with
  | nil => rfl
  | cons x xs ih => rw [List.cons_append, encSeq_cons, encSeq_cons, ih]; rfl

/-- Each sample is decided in the state that the samples before it leave, and leads to the next state by its decision.
-/
theorem encSeq_take_succ (cs : CodecState) {vs : List Int} {k : Nat} {v : Int} (hv : vs[k]? = some v) :
    (encSeq cs vs).2[k]? = some (decides (encSeq cs (vs.take k)).1 v) ∧
      (encSeq cs (vs.take (k + 1))).1 =
        update (encSeq cs (vs.take k)).1 (decides (encSeq cs (vs.take k)).1 v) := by
  induction vs generalizing cs k with
  | nil => simp at hv
  | cons u vs ih =>
    cases k with
    | zero =>
      obtain rfl : u = v := by simpa using hv
      rw [List.take_zero, List.take_succ_cons, List.take_zero, encSeq_cons, encSeq_cons]
      exact ⟨rfl, rfl⟩
    | succ k =>
      rw [List.take_succ_cons, List.take_succ_cons, encSeq_cons, encSeq_cons, encSeq_cons]
      exact ih _ hv

/-- Settles O50, by induction on the samples. -/
theorem splittingTheSamplesChangesNothing : Obligations.SplittingTheSamplesChangesNothing := by
  unfold Obligations.SplittingTheSamplesChangesNothing
  intro cs samples
  refine ⟨rfl, encSeq_length cs samples, fun k v hv => ?_, fun x y hxy => ?_⟩
  · obtain ⟨hbit, hstate⟩ := encSeq_take_succ cs hv
    exact ⟨hbit, hstate ▸ codecAfter_update _ _⟩
  · rw [hxy, encSeq_append]

end Sys2Proof.Machine
end

