-- ==== Sys2Proof/Proofs/DecodeStreams.lean ====
section
/-!
Decoding by commands (spec/41_bitpack.md R136; spec/43_stream.md R181): D.BIT and D.BYTE each decode the bits they
carry, so a list of them decodes the bits of all of them in order.
-/

namespace Sys2Proof.Machine

open Claims

theorem decSeq_append (cs : CodecState) (xs ys : List Bool) :
    decSeq cs (xs ++ ys) =
      ((decSeq (decSeq cs xs).1 ys).1, (decSeq cs xs).2 ++ (decSeq (decSeq cs xs).1 ys).2) := by
  induction xs generalizing cs with
  | nil => rfl
  | cons x xs ih => rw [List.cons_append, decSeq_cons, decSeq_cons, ih]; rfl

/-- In an open decode stream the command decodes `bits` and answers OK. -/
def DecodesBits (i : Instr) (bits : List Bool) : Prop :=
  ∀ s : State, s.dec.st = .active →
    exec i s =
      .next (decResult { s.dec with codec := (decSeq s.dec.codec bits).1 } (decSeq s.dec.codec bits).2 0#32 s)

theorem dBit_decodesBits (b : BitVec 1) : DecodesBits (.dBit b) [decide (b = 1#1)] := fun _ => exec_dBit_ok

theorem dByte_decodesBits (b : Byte) : DecodesBits (.dByte b) (unpack b) := fun _ => exec_dByte_ok

/-- `t` is `s` after an open decode stream has taken `bits` from `n` commands; where its answers stand among the sample
words on the ports is left out. -/
structure Decoded (s : State) (bits : List Bool) (n : Nat) (t : State) : Prop where
  dec : t.dec = { s.dec with codec := (decSeq s.dec.codec bits).1 }
  dout : t.dout = s.dout ++ (decSeq s.dec.codec bits).2
  responses : t.responses = s.responses ++ List.replicate n 0#32
  enc : t.enc = s.enc
  ill : t.ill = s.ill
  eout : t.eout = s.eout

/-- Commands that decode run through an open decode stream, each from the CodecState the one before it left. -/
theorem runCommands_decode {α : Type} {f : α → Instr} {bits : α → List Bool} (hf : ∀ a, DecodesBits (f a) (bits a))
    (as : List α) (rest : List Instr) {s : State} (hst : s.dec.st = .active) :
    ∃ t, runCommands (as.map f ++ rest) s = runCommands rest t ∧ Decoded s (as.flatMap bits) as.length t := by
  induction as generalizing s with
  | nil => exact ⟨s, rfl, rfl, by simp [decSeq_nil], by simp, rfl, rfl, rfl⟩
  | cons a as ih =>
    obtain ⟨t, hrun, ht⟩ := ih (s := decResult { s.dec with codec := (decSeq s.dec.codec (bits a)).1 }
      (decSeq s.dec.codec (bits a)).2 0#32 s) hst
    refine ⟨t, ?_, ?_, ?_, ?_, ht.enc, ht.ill, ?_⟩
    · rw [List.map_cons, List.cons_append, runCommands_cons (hf a s hst), hrun]
    · rw [ht.dec, List.flatMap_cons, decSeq_append]
      rfl
    · rw [ht.dout, decResult_dout, List.flatMap_cons, decSeq_append, List.append_assoc]
      rfl
    · rw [ht.responses, decResult_responses, List.append_assoc, List.length_cons, List.replicate_succ]
      rfl
    · rw [ht.eout, decResult_eout]

theorem decide_extractLsb'_one (b : Byte) (k : Nat) : decide (b.extractLsb' k 1 = 1#1) = b.getLsbD k := by
  have hbit : (b.extractLsb' k 1).getLsbD 0 = b.getLsbD k := by simp
  rw [← hbit]
  generalize b.extractLsb' k 1 = x
  revert x
  decide

/-- The bits that the eight D.BIT of a byte carry are those of the byte (R133). -/
theorem flatMap_bits_of_byte (b : Byte) :
    (List.range 8).flatMap (fun k => [decide (b.extractLsb' k 1 = 1#1)]) = unpack b := by
  simp only [decide_extractLsb'_one]
  rfl

/-- Settles O29: both decode the byte's bits. -/
theorem dbyteIsEightDbits : Obligations.DbyteIsEightDbits := by
  unfold Obligations.DbyteIsEightDbits
  intro byte s hst
  obtain ⟨u, hrun, hu⟩ := runCommands_decode (f := fun k => Instr.dBit (byte.extractLsb' k 1))
    (fun k => dBit_decodesBits (byte.extractLsb' k 1)) (List.range 8) [] hst
  rw [List.append_nil, runCommands_nil] at hrun
  rw [flatMap_bits_of_byte] at hu
  refine ⟨_, u, exec_dByte_ok hst, hrun, hu.enc.symm, hu.dec.symm, hu.ill.symm, ?_, ?_⟩
  · rw [decResult_dout, hu.dout]
  · rw [decResult_eout, hu.eout]

/-- Settles O58: the stream opens at `INIT_CS`, each byte decodes its eight bits, and D.END answers alone. -/
theorem wholeDecodeStreamIsTheFold : Obligations.WholeDecodeStreamIsTheFold := by
  unfold Obligations.WholeDecodeStreamIsTheFold
  intro b s hst
  have hopen := exec_dStart_ok hst
  obtain ⟨t, hrun, ht⟩ := runCommands_decode dByte_decodesBits b [.dEnd]
    (s := decResult { s.dec with codec := CodecState.init, st := .active } [] 0#32 s) rfl
  have hact : t.dec.st = .active := by rw [ht.dec]; rfl
  refine ⟨decResult { t.dec with codec := CodecState.init, st := .idle } [] 0#32 t, _, _, ?_,
    decodesTo_decSeq CodecState.init (b.flatMap unpack), ?_, ?_, ?_, rfl⟩
  · rw [List.cons_append, runCommands_cons hopen, hrun, runCommands_cons (exec_dEnd_ok hact), runCommands_nil]
  · rw [decSeq_length, List.length_flatMap]
    simp [Nat.mul_comm]
  · rw [decResult_dout, ht.dout, decResult_dout, List.append_nil, List.append_nil]
    rfl
  · rw [decResult_responses, ht.responses, decResult_responses, List.replicate_succ, List.replicate_succ']
    simp

end Sys2Proof.Machine
end

