-- ==== Sys2Proof/Proofs/Packing.lean ====
section
/-!
The packer (spec/41_bitpack.md R130 to R135): its partial byte holds the decisions not yet sent in its low bits and
zeros above them, so the bits of the bytes sent are the decisions in order.
-/

namespace Sys2Proof.Machine

open Claims

/-- The first `n` bits of a byte, in rising bit number: the decisions a partial byte holds (R27). -/
def heldBits (acc : Byte) (n : Nat) : List Bool := (List.range n).map fun k => acc.getLsbD k

theorem heldBits_length (acc : Byte) (n : Nat) : (heldBits acc n).length = n := by simp [heldBits]

theorem heldBits_zero (acc : Byte) : heldBits acc 0 = [] := rfl

theorem heldBits_eight (b : Byte) : heldBits b 8 = unpack b := (unpack_eq_map_range b).symm

/-- A byte whose bits from `n` up are 0 unpacks to its first `n` bits and zeros. -/
theorem unpack_of_clear {acc : Byte} {n : Nat} (hn : n ≤ 8) (hclear : acc.toNat < 2 ^ n) :
    unpack acc = heldBits acc n ++ List.replicate (8 - n) false := by
  rw [toNat_lt_two_pow_iff] at hclear
  rw [unpack_eq_map_range]
  refine List.ext_getElem (by simp [heldBits_length, hn]) fun k hk hk' => ?_
  rw [List.getElem_map, List.getElem_range, List.getElem_append]
  split
  case isTrue => simp [heldBits]
  case isFalse h =>
    rw [heldBits_length] at h
    rw [List.getElem_replicate, hclear k (by omega)]

/-- Decision number `n` takes its place above the ones held (R130). -/
theorem heldBits_pack {acc : Byte} {n : BitVec 3} (hclear : acc.toNat < 2 ^ n.toNat) (bit : Bool) :
    heldBits (acc ||| bitByte bit <<< n.toNat) (n.toNat + 1) = heldBits acc n.toNat ++ [bit] := by
  have hpacked := packedInto_or acc n bit
  rw [toNat_lt_two_pow_iff] at hclear
  rw [heldBits, List.range_succ, List.map_append, List.map_singleton, hpacked n.toNat, hclear n.toNat le_rfl, heldBits]
  congr 1
  · refine List.map_congr_left fun k hk => ?_
    have hne : k ≠ n.toNat := (List.mem_range.1 hk).ne
    simp [hpacked k, hne]
  · simp

theorem packFrom_nil_some {n : BitVec 3} (acc : Byte) (h : n ≠ 0#3) : packFrom acc n [] = [acc] := by
  simp [packFrom, packFlush_some acc h]

theorem packFrom_cons_full (acc : Byte) (d : Bool) (ds : List Bool) :
    packFrom acc 7#3 (d :: ds) = (acc ||| bitByte d <<< 7) :: packFrom 0#8 0#3 ds := by
  rw [packFrom, packPush_full]
  rfl

theorem packFrom_cons_partial {n : BitVec 3} (acc : Byte) (d : Bool) (ds : List Bool) (h : n ≠ 7#3) :
    packFrom acc n (d :: ds) = packFrom (acc ||| bitByte d <<< n.toNat) (n + 1#3) ds := by
  rw [packFrom, packPush_partial acc d h]
  rfl

/-- How many zeros fill the last byte of `m` decisions. -/
def padding (m : Nat) : Nat := (8 - m % 8) % 8

/-- The bits of the bytes sent are the decisions held, the decisions pushed, and zeros to the end of the last byte. -/
theorem flatMap_unpack_packFrom (ds : List Bool) {acc : Byte} {n : BitVec 3} (hclear : acc.toNat < 2 ^ n.toNat) :
    (packFrom acc n ds).flatMap unpack =
      heldBits acc n.toNat ++ ds ++ List.replicate (padding (n.toNat + ds.length)) false := by
  induction ds generalizing acc n with
  | nil =>
    have hlt : n.toNat < 8 := n.isLt
    by_cases hn : n = 0#3
    · subst hn
      rfl
    · have hne : n.toNat ≠ 0 := fun h => hn (BitVec.eq_of_toNat_eq h)
      rw [packFrom_nil_some acc hn, List.flatMap_singleton, unpack_of_clear hlt.le hclear, List.append_nil,
        List.length_nil, padding, show (8 - (n.toNat + 0) % 8) % 8 = 8 - n.toNat by omega]
  | cons d ds ih =>
    by_cases hn : n = 7#3
    · subst hn
      have hbyte : unpack (acc ||| bitByte d <<< 7) = heldBits acc 7 ++ [d] := by
        rw [← heldBits_eight]
        exact heldBits_pack (n := 7#3) hclear d
      rw [packFrom_cons_full, List.flatMap_cons, ih (by simp), hbyte]
      have hpad : padding ((7#3).toNat + (d :: ds).length) = padding ((0#3).toNat + ds.length) := by
        simp only [padding, BitVec.toNat_ofNat, List.length_cons]
        omega
      rw [hpad]
      simp [heldBits_zero]
    · have hsucc := toNat_nbits_add_one hn
      rw [packFrom_cons_partial acc d ds hn, ih (by rw [hsucc]; exact pack_clear hclear d), hsucc,
        heldBits_pack hclear, List.length_cons, Nat.add_assoc, Nat.add_comm 1]
      simp

theorem flatMap_unpack_pack (ds : List Bool) :
    (pack ds).flatMap unpack = ds ++ List.replicate (padding ds.length) false := by
  have h := flatMap_unpack_packFrom ds (acc := 0#8) (n := 0#3) (by simp)
  rw [pack]
  simpa [heldBits_zero] using h

theorem flatMap_unpack_length (bs : List Byte) : (bs.flatMap unpack).length = 8 * bs.length := by
  simp [List.length_flatMap, Nat.mul_comm]

theorem pack_length (ds : List Bool) : (pack ds).length = (ds.length + 7) / 8 := by
  have h := congrArg List.length (flatMap_unpack_pack ds)
  rw [flatMap_unpack_length, List.length_append, List.length_replicate, padding] at h
  omega

/-- Bit `k` of byte `j` is bit `8 j + k` of the bytes' bits (R133). -/
theorem getElem?_flatMap_unpack (bs : List Byte) (j : Nat) {k : Nat} (hk : k < 8) :
    (bs.flatMap unpack)[8 * j + k]? = bs[j]?.map fun b => b.getLsbD k := by
  induction bs generalizing j with
  | nil => rfl
  | cons b bs ih =>
    rw [List.flatMap_cons]
    cases j with
    | zero =>
      rw [List.getElem?_append_left (by simpa using hk), unpack_eq_map_range, List.getElem?_map,
        List.getElem?_range (by omega)]
      simp
    | succ j =>
      rw [List.getElem?_append_right (by rw [unpack_length]; omega), unpack_length,
        show 8 * (j + 1) + k - 8 = 8 * j + k by omega, ih, List.getElem?_cons_succ]

theorem flatMap_unpack_injective : Function.Injective fun bs : List Byte => bs.flatMap unpack := by
  intro xs ys h
  refine List.ext_getElem? fun j => ?_
  have hbits (k : Nat) (hk : k < 8) : xs[j]?.map (fun b => b.getLsbD k) = ys[j]?.map fun b => b.getLsbD k := by
    rw [← getElem?_flatMap_unpack xs j hk, ← getElem?_flatMap_unpack ys j hk]
    exact congrArg (fun l : List Bool => l[8 * j + k]?) h
  cases hx : xs[j]? with
  | none => simpa [hx, eq_comm] using hbits 0 (by decide)
  | some x =>
    cases hy : ys[j]? with
    | none => simpa [hx, hy] using hbits 0 (by decide)
    | some y => exact congrArg some (BitVec.eq_of_getLsbD_eq fun k hk => by simpa [hx, hy] using hbits k hk)

/-- Settles O51: the bytes' bits are the decisions and zeros. -/
theorem packInClosedForm : Obligations.PackInClosedForm := by
  unfold Obligations.PackInClosedForm
  refine fun d => ⟨pack_length d, fun j k hk hj => ?_⟩
  rw [← getElem?_flatMap_unpack (pack d) j hk, flatMap_unpack_pack]
  by_cases hlt : 8 * j + k < d.length
  · rw [List.getElem?_append_left hlt, List.getElem?_eq_getElem hlt]
    rfl
  · have hpad : 8 * j + k - d.length < padding d.length := by
      rw [pack_length] at hj
      rw [padding]
      omega
    rw [List.getElem?_append_right (by omega), List.getElem?_replicate_of_lt hpad, List.getElem?_eq_none (by omega)]
    rfl

/-- Settles O52: whole bytes need no zeros, and bytes with the same bits are the same. -/
theorem packAndUnpackRoundTrip : Obligations.PackAndUnpackRoundTrip := by
  unfold Obligations.PackAndUnpackRoundTrip
  refine ⟨flatMap_unpack_pack, fun b => flatMap_unpack_injective ?_⟩
  have hpad : padding (b.flatMap unpack).length = 0 := by
    rw [flatMap_unpack_length, padding]
    omega
  simp only [flatMap_unpack_pack, hpad, List.replicate_zero, List.append_nil]

/-- The packer's registers after a list of decisions. -/
def packPushes (acc : Byte) (n : BitVec 3) (ds : List Bool) : Byte × BitVec 3 :=
  ds.foldl (fun (p : Byte × BitVec 3) b => ((packPush p.1 p.2 b).1, (packPush p.1 p.2 b).2.1)) (acc, n)

theorem packPushes_cons_full (acc : Byte) (d : Bool) (ds : List Bool) :
    packPushes acc 7#3 (d :: ds) = packPushes 0#8 0#3 ds := by
  rw [packPushes, List.foldl_cons, packPush_full]
  rfl

theorem packPushes_cons_partial {n : BitVec 3} (acc : Byte) (d : Bool) (ds : List Bool) (h : n ≠ 7#3) :
    packPushes acc n (d :: ds) = packPushes (acc ||| bitByte d <<< n.toNat) (n + 1#3) ds := by
  rw [packPushes, List.foldl_cons, packPush_partial acc d h]
  rfl

/-- The count goes up modulo 8. -/
theorem packPushes_count (acc : Byte) (n : BitVec 3) (ds : List Bool) :
    (packPushes acc n ds).2.toNat = (n.toNat + ds.length) % 8 := by
  induction ds generalizing acc n with
  | nil => exact (Nat.mod_eq_of_lt n.isLt).symm
  | cons d ds ih =>
    by_cases hn : n = 7#3
    · subst hn
      rw [packPushes_cons_full, ih, List.length_cons, BitVec.toNat_ofNat, BitVec.toNat_ofNat]
      omega
    · rw [packPushes_cons_partial acc d ds hn, ih, toNat_nbits_add_one hn, List.length_cons, Nat.add_assoc,
        Nat.add_comm 1]

/-- The partial byte stays clear above the count. -/
theorem packPushes_clear (ds : List Bool) {acc : Byte} {n : BitVec 3} (hclear : acc.toNat < 2 ^ n.toNat) :
    (packPushes acc n ds).1.toNat < 2 ^ (packPushes acc n ds).2.toNat := by
  induction ds generalizing acc n with
  | nil => exact hclear
  | cons d ds ih =>
    by_cases hn : n = 7#3
    · subst hn
      rw [packPushes_cons_full]
      exact ih (by simp)
    · rw [packPushes_cons_partial acc d ds hn]
      exact ih (by rw [toNat_nbits_add_one hn]; exact pack_clear hclear d)

/-- Settles O53, by the packer's registers after the pushes from (0, 0). -/
theorem packerCountsModuloEight : Obligations.PackerCountsModuloEight := by
  unfold Obligations.PackerCountsModuloEight
  intro d
  have hcount := packPushes_count 0#8 0#3 d
  have hclear := packPushes_clear d (acc := 0#8) (n := 0#3) (by simp)
  rw [BitVec.toNat_ofNat, Nat.zero_mod, Nat.zero_add] at hcount
  exact ⟨hcount, (toNat_lt_two_pow_iff _ _).1 hclear⟩

end Sys2Proof.Machine
end

