-- ==== Sys2Proof/Proofs/EventWord.lean ====
section
/-!
The EOUT event word (spec/30_encoding.md R75): its number is the sum of its fields at their places, so that each field
is read back by a quotient and a remainder.
-/

namespace Sys2Proof.Machine

/-- A sum of fields that fits `32 + IDX_W` bits is the word's number. -/
theorem toNat_eventWord {w n : Nat} (h : n < 2 * (2 ^ 31 * 2 ^ w)) : (BitVec.ofNat (32 + w) n).toNat = n := by
  rw [BitVec.toNat_ofNat, Nat.mod_eq_of_lt]
  rwa [Nat.pow_add, show 2 ^ 32 = 2 * 2 ^ 31 by norm_num, Nat.mul_assoc]

/-- Settles O59, by the places of the fields. -/
theorem eoutWordHoldsItsFields : Obligations.EoutWordHoldsItsFields := by
  unfold Obligations.EoutWordHoldsItsFields
  intro c idx pl data hidx
  have hpl : pl.toNat < 2 ^ 23 := pl.isLt
  have hdata : data.toNat < 2 ^ 8 := data.isLt
  have hmod : idx % 2 ^ c.idxW = idx := Nat.mod_eq_of_lt hidx
  have hkind : 2 ^ (31 + c.idxW) = 2 ^ 31 * 2 ^ c.idxW := Nat.pow_add 2 31 c.idxW
  refine ⟨?byte, ?cend⟩
  case byte =>
    have hw : (eoutWord c (.byte idx pl data)).toNat = idx * 2 ^ 31 + pl.toNat * 2 ^ 8 + data.toNat :=
      toNat_eventWord (by omega)
    have hquot : (idx * 2 ^ 31 + pl.toNat * 2 ^ 8 + data.toNat) / 2 ^ 31 = idx := by omega
    dsimp only
    rw [hw, hquot]
    exact ⟨Nat.div_eq_of_lt (by omega), hmod, by omega, by omega⟩
  case cend =>
    have hw : (eoutWord c (.cend idx pl)).toNat = 2 ^ (31 + c.idxW) + idx * 2 ^ 31 + pl.toNat * 2 ^ 8 :=
      toNat_eventWord (by omega)
    have hquot : (2 ^ (31 + c.idxW) + idx * 2 ^ 31 + pl.toNat * 2 ^ 8) / 2 ^ 31 = 2 ^ c.idxW + idx := by omega
    dsimp only
    rw [hw, hquot]
    refine ⟨Nat.div_eq_of_lt_le (by omega) (by omega), ?_, by omega, by omega⟩
    rw [Nat.add_mod_left, hmod]

end Sys2Proof.Machine
end

