-- ==== Sys2Proof/Proofs/Splitting.lean ====
section
/-!
Split (spec/42_chunk.md R150, R151): chunk by chunk, the next `cb` bytes of the stream or what is left of it.
-/

namespace Sys2Proof.Machine

open Claims

/-- A stream of `n` bytes has a chunk number `i + 1` when its bytes go past the chunks before it. -/
theorem lt_chunkCount_iff {i n cb : Nat} (hcb : 0 < cb) : i < chunkCount n cb ↔ i * cb < n := by
  rw [chunkCount, Nat.lt_iff_add_one_le, Nat.le_div_iff_mul_le hcb, Nat.add_mul]
  omega

theorem chunkCount_mono {m n : Nat} (cb : Nat) (h : m ≤ n) : chunkCount m cb ≤ chunkCount n cb :=
  Nat.div_le_div_right (by omega)

theorem chunkCount_succ {cb : Nat} (k : Nat) (hcb : 0 < cb) : chunkCount (k + 1) cb = k / cb + 1 := by
  rw [chunkCount, show k + 1 + cb - 1 = k + cb by omega, Nat.add_div_right k hcb]

theorem chunkCount_of_dvd {k cb : Nat} (hcb : 0 < cb) (h : k % cb = 0) : chunkCount k cb = k / cb := by
  obtain rfl | hk := Nat.eq_zero_or_pos k
  · rw [chunkCount, Nat.zero_div, Nat.div_eq_of_lt (by omega)]
  · obtain ⟨m, rfl⟩ : ∃ m, k = m + 1 := ⟨k - 1, by omega⟩
    rw [chunkCount_succ m hcb, Nat.succ_div_of_mod_eq_zero h]

theorem chunkCount_of_not_dvd {k cb : Nat} (hcb : 0 < cb) (h : k % cb ≠ 0) : chunkCount k cb = k / cb + 1 := by
  obtain ⟨m, rfl⟩ : ∃ m, k = m + 1 := ⟨k - 1, by have : k ≠ 0 := fun h0 => h (by simp [h0]); omega⟩
  rw [chunkCount_succ m hcb, Nat.succ_div_of_mod_ne_zero h]

/-- A chunk is the next `cb` bytes after those of the chunks before it, or what is left. -/
theorem split_eq_map (bytes : List Byte) (cb : Nat) :
    split bytes cb = (List.range (chunkCount bytes.length cb)).map fun i => (bytes.drop (i * cb)).take cb := by
  refine List.map_congr_left fun i _ => ?_
  rw [List.drop_take, List.take_eq_take_iff, List.length_drop, Nat.add_mul]
  omega

theorem split_nil {cb : Nat} (hcb : 0 < cb) : split [] cb = [] := by
  rw [split_eq_map, List.length_nil, chunkCount_of_dvd hcb (Nat.zero_mod cb), Nat.zero_div]
  rfl

/-- A stream that is not empty begins with its first chunk. -/
theorem split_eq_cons {bytes : List Byte} {cb : Nat} (hcb : 0 < cb) (h : bytes ≠ []) :
    split bytes cb = bytes.take cb :: split (bytes.drop cb) cb := by
  have hpos : 0 < bytes.length := List.length_pos_iff.2 h
  have hcount : chunkCount bytes.length cb = chunkCount (bytes.drop cb).length cb + 1 := by
    rw [List.length_drop]
    obtain hle | hlt := Nat.le_total bytes.length cb
    · obtain ⟨m, hm⟩ : ∃ m, bytes.length = m + 1 := ⟨bytes.length - 1, by omega⟩
      rw [Nat.sub_eq_zero_of_le hle, chunkCount_of_dvd hcb (Nat.zero_mod cb), Nat.zero_div, hm, chunkCount_succ m hcb,
        Nat.div_eq_of_lt (by omega)]
    · rw [chunkCount, chunkCount, ← Nat.add_div_right _ hcb]
      congr 1
      omega
  rw [split_eq_map, split_eq_map, hcount, List.range_succ_eq_map, List.map_cons, List.map_map, Nat.zero_mul,
    List.drop_zero]
  congr 1
  refine List.map_congr_left fun i _ => ?_
  rw [Function.comp_apply, List.drop_drop, Nat.succ_mul, Nat.add_comm]

/-- What holds of the empty stream and, with the bytes after the first chunk, of a stream, holds of every stream. -/
theorem chunkwise_induction {cb : Nat} (hcb : 0 < cb) {P : List Byte → Prop} (nil : P [])
    (cons : ∀ bytes, bytes ≠ [] → P (bytes.drop cb) → P bytes) (bytes : List Byte) : P bytes := by
  induction hn : bytes.length using Nat.strong_induction_on generalizing bytes with
  | _ n ih =>
    by_cases h : bytes = []
    · exact h ▸ nil
    · have hpos : 0 < bytes.length := List.length_pos_iff.2 h
      exact cons bytes h (ih _ (by rw [List.length_drop]; omega) _ rfl)

theorem split_flatten {cb : Nat} (hcb : 0 < cb) (bytes : List Byte) : (split bytes cb).flatten = bytes := by
  induction bytes using chunkwise_induction hcb with
  | nil => rw [split_nil hcb, List.flatten_nil]
  | cons bytes h ih => rw [split_eq_cons hcb h, List.flatten_cons, ih, List.take_append_drop]

theorem split_length (bytes : List Byte) (cb : Nat) : (split bytes cb).length = chunkCount bytes.length cb := by
  rw [split_eq_map, List.length_map, List.length_range]

theorem split_getElem? {bytes : List Byte} {cb i : Nat} (hi : i < chunkCount bytes.length cb) :
    (split bytes cb)[i]? = some ((bytes.drop (i * cb)).take cb) := by
  rw [split_eq_map, List.getElem?_map, List.getElem?_range hi, Option.map_some]

/-- Settles O54: each chunk by its place, the whole stream by its first chunk and the rest. -/
theorem chunksCoverTheStream : Obligations.ChunksCoverTheStream := by
  unfold Obligations.ChunksCoverTheStream
  refine fun bytes cb hcb => ⟨split_length bytes cb, split_flatten hcb bytes, fun i c hc => ?_, fun n b hb => ?_⟩
  · have hi : i < chunkCount bytes.length cb := by
      rw [← split_length]
      exact (List.getElem?_eq_some_iff.1 hc).1
    obtain rfl : (bytes.drop (i * cb)).take cb = c := by simpa [split_getElem? hi] using hc
    have hlt := (lt_chunkCount_iff hcb).1 hi
    have hnext (h : i + 1 < chunkCount bytes.length cb) : i * cb + cb < bytes.length := by
      rw [← Nat.succ_mul]
      exact (lt_chunkCount_iff hcb).1 h
    rw [split_length, List.length_take, List.length_drop]
    exact ⟨by omega, by omega, fun h => by have := hnext h; omega⟩
  · have hn : n < bytes.length := (List.getElem?_eq_some_iff.1 hb).1
    have hdiv : n / cb * cb + n % cb = n := Nat.div_add_mod' n cb
    refine ⟨_, split_getElem? ((lt_chunkCount_iff hcb).2 (by omega)), ?_⟩
    rw [List.getElem?_take_of_lt (Nat.mod_lt n hcb), List.getElem?_drop, hdiv, hb]

end Sys2Proof.Machine
end

