-- ==== Sys2Proof/Proofs/Sequencing.lean ====
section
/-!
The sequencer in closed form (spec/42_chunk.md R152 to R154): where byte number `k` of a stream goes and what goes out
with it, as a function of `k`, and why the events of a whole stream are those of the chunks of Split.
-/

namespace Sys2Proof.Machine

open Claims

/-! ### Positions as functions of the byte count -/

/-- The registers stand where they do after `k` bytes of a stream (R154). -/
structure AtByte (k : Nat) (e : EncRegs) : Prop where
  configured : 0 < e.cb.toNat
  pos : e.pos.toNat = k % e.cb.toNat
  idx : e.idx = chunkCount k e.cb.toNat

/-- The events of byte number `k`: the byte, and the CEND of the chunk it fills. -/
def byteEvents (cb k : Nat) (B : Byte) : List EoutEvent :=
  .byte (k / cb + 1) (BitVec.ofNat 23 (k % cb)) B ::
    if (k + 1) % cb = 0 then [.cend (k / cb + 1) (BitVec.ofNat 23 cb)] else []

/-- The events of a list of bytes, the first of them number `k`. -/
def bytesEvents (cb : Nat) : Nat → List Byte → List EoutEvent
  | _, [] => []
  | k, B :: Bs => byteEvents cb k B ++ bytesEvents cb (k + 1) Bs

/-- The events of closing a stream of `k` bytes: the CEND of a chunk that no byte has filled. -/
def closingEvents (cb k : Nat) : List EoutEvent :=
  if k % cb = 0 then [] else [.cend (k / cb + 1) (BitVec.ofNat 23 (k % cb))]

section
variable {k : Nat} {e : EncRegs}

theorem AtByte.pos_lt (h : AtByte k e) : e.pos.toNat < e.cb.toNat := by
  rw [h.pos]
  exact Nat.mod_lt k h.configured

theorem AtByte.pos_eq_ofNat (h : AtByte k e) : e.pos = BitVec.ofNat 23 (k % e.cb.toNat) := by
  rw [← h.pos, BitVec.ofNat_toNat, BitVec.setWidth_eq]

/-- Between chunks the bytes of whole chunks have gone out. -/
theorem AtByte.pos_eq_zero_iff (h : AtByte k e) : e.pos = 0#23 ↔ k % e.cb.toNat = 0 := by
  rw [Machine.pos_eq_zero_iff, h.pos]

theorem AtByte.nextIdx_eq (h : AtByte k e) : nextIdx e = k / e.cb.toNat + 1 := by
  by_cases hpos : e.pos = 0#23
  · rw [nextIdx, if_pos hpos, h.idx, chunkCount_of_dvd h.configured (h.pos_eq_zero_iff.1 hpos)]
  · rw [nextIdx, if_neg hpos, h.idx, chunkCount_of_not_dvd h.configured fun hdvd => hpos (h.pos_eq_zero_iff.2 hdvd)]

theorem AtByte.fills_iff (h : AtByte k e) : e.pos + 1#23 = e.cb ↔ (k + 1) % e.cb.toNat = 0 := by
  have hlt := h.pos_lt
  rw [Machine.fills_iff hlt, ← Nat.mod_add_mod, ← h.pos]
  constructor
  · intro hfull
    rw [hfull, Nat.mod_self]
  · intro hmod
    by_contra hne
    rw [Nat.mod_eq_of_lt (by omega)] at hmod
    omega

/-- A byte moves the position one place on. -/
theorem AtByte.placeRegs (h : AtByte k e) : AtByte (k + 1) (placeRegs e) where
  configured := h.configured
  pos := by
    rw [Machine.placeRegs, toNat_nextPos h.pos_lt, h.pos, Nat.mod_add_mod]
  idx := by
    rw [Machine.placeRegs, h.nextIdx_eq, chunkCount_succ k h.configured]

theorem AtByte.placeEvents_eq (h : AtByte k e) (B : Byte) : placeEvents B e = byteEvents e.cb.toNat k B := by
  have hcb : e.cb = BitVec.ofNat 23 e.cb.toNat := by rw [BitVec.ofNat_toNat, BitVec.setWidth_eq]
  by_cases hfull : e.pos + 1#23 = e.cb
  · rw [placeEvents, byteEvents, if_pos hfull, if_pos (h.fills_iff.1 hfull), h.nextIdx_eq, h.pos_eq_ofNat, ← hcb]
  · rw [placeEvents, byteEvents, if_neg hfull, if_neg fun hmod => hfull (h.fills_iff.2 hmod), h.nextIdx_eq,
      h.pos_eq_ofNat]

theorem AtByte.closeEvents_eq (h : AtByte k e) : closeEvents e = closingEvents e.cb.toNat k := by
  by_cases hpos : e.pos = 0#23
  · rw [closeEvents, closingEvents, if_pos hpos, if_pos (h.pos_eq_zero_iff.1 hpos)]
  · have hdvd : k % e.cb.toNat ≠ 0 := fun hdvd => hpos (h.pos_eq_zero_iff.2 hdvd)
    rw [closeEvents, closingEvents, if_neg hpos, if_neg hdvd, h.idx, chunkCount_of_not_dvd h.configured hdvd,
      h.pos_eq_ofNat]

/-- The next byte finds an index for its chunk when the stream with it needs no more chunks than there are indices. -/
theorem AtByte.room {c : Config} (h : AtByte k e) (hfits : chunkCount (k + 1) e.cb.toNat < 2 ^ c.idxW) :
    ¬ IndexGone c e := by
  rintro ⟨hpos, hidx⟩
  rw [h.idx, chunkCount_of_dvd h.configured (h.pos_eq_zero_iff.1 hpos)] at hidx
  rw [chunkCount_succ k h.configured] at hfits
  omega

end

/-! ### The events of a stream are those of its chunks -/

theorem bytesEvents_append (cb k : Nat) (xs ys : List Byte) :
    bytesEvents cb k (xs ++ ys) = bytesEvents cb k xs ++ bytesEvents cb (k + xs.length) ys := by
  induction xs generalizing k with
  | nil => rfl
  | cons x xs ih =>
    rw [List.cons_append, bytesEvents, bytesEvents, ih, List.append_assoc, List.length_cons, Nat.add_right_comm,
      Nat.add_assoc]

/-- Bytes within chunk `q + 1`, from place `j` on: each goes to its place, and the one that fills the chunk closes it.
-/
theorem bytesEvents_within_chunk {cb q : Nat} (Bs : List Byte) {j : Nat} (hj : j < cb) (hlen : j + Bs.length ≤ cb) :
    bytesEvents cb (q * cb + j) Bs =
      (Bs.mapIdx fun i B => EoutEvent.byte (q + 1) (BitVec.ofNat 23 (j + i)) B) ++
        if j + Bs.length = cb then [.cend (q + 1) (BitVec.ofNat 23 cb)] else [] := by
  induction Bs generalizing j with
  | nil => rw [if_neg (by simp only [List.length_nil]; omega)]; rfl
  | cons B Bs ih =>
    have hdiv : (q * cb + j) / cb = q := by
      rw [Nat.add_comm, Nat.add_mul_div_right _ _ (by omega), Nat.div_eq_of_lt hj, Nat.zero_add]
    have hmod : (q * cb + j) % cb = j := by rw [Nat.add_comm, Nat.add_mul_mod_self_right, Nat.mod_eq_of_lt hj]
    have hnext : (q * cb + j + 1) % cb = (j + 1) % cb := by
      rw [Nat.add_assoc, Nat.add_comm, Nat.add_mul_mod_self_right]
    rw [List.length_cons] at hlen ⊢
    rw [bytesEvents, byteEvents, hdiv, hmod, hnext, List.mapIdx_cons]
    by_cases hfull : j + 1 = cb
    · have hnil : Bs = [] := List.length_eq_zero_iff.1 (by omega)
      subst hnil
      rw [if_pos (by rw [hfull, Nat.mod_self]), if_pos (by simpa using hfull)]
      rfl
    · have hne : (j + 1) % cb ≠ 0 := by rw [Nat.mod_eq_of_lt (by omega)]; omega
      rw [if_neg hne, Nat.add_assoc, ih (by omega) (by omega), Nat.add_assoc, Nat.add_comm 1]
      simp only [Nat.add_assoc, Nat.add_comm 1, List.cons_append, List.nil_append, Nat.add_zero]

/-- Placing the bytes of a stream from the start of chunk `q + 1` and closing it emits the events of its chunks. -/
theorem bytesEvents_eq_chunkEvents {cb : Nat} (hcb : 0 < cb) (Bs : List Byte) (q : Nat) :
    bytesEvents cb (q * cb) Bs ++ closingEvents cb (q * cb + Bs.length) = chunkEvents (q + 1) (split Bs cb) := by
  induction Bs using chunkwise_induction hcb generalizing q with
  | nil =>
    rw [split_nil hcb, closingEvents, List.length_nil, Nat.add_zero, Nat.mul_mod_left, if_pos rfl]
    rfl
  | cons Bs h ih =>
    have hpos : 0 < Bs.length := List.length_pos_iff.2 h
    have hfirst := bytesEvents_within_chunk (q := q) (Bs.take cb) hcb (by rw [List.length_take]; omega)
    simp only [Nat.add_zero, Nat.zero_add] at hfirst
    rw [split_eq_cons hcb h, chunkEvents]
    by_cases hlt : Bs.length < cb
    · have hmod : (q * cb + Bs.length) % cb = Bs.length := by
        rw [Nat.add_comm, Nat.add_mul_mod_self_right, Nat.mod_eq_of_lt hlt]
      have hdiv : (q * cb + Bs.length) / cb = q := by
        rw [Nat.add_comm, Nat.add_mul_div_right _ _ hcb, Nat.div_eq_of_lt hlt, Nat.zero_add]
      rw [List.drop_of_length_le hlt.le, split_nil hcb, chunkEvents, List.append_nil, closingEvents, hmod, hdiv,
        if_neg hpos.ne']
      rw [List.take_of_length_le hlt.le, if_neg hlt.ne, List.append_nil] at hfirst
      rw [hfirst, List.take_of_length_le hlt.le]
    · have htake : (Bs.take cb).length = cb := by rw [List.length_take]; omega
      have hsplit : bytesEvents cb (q * cb) Bs =
          bytesEvents cb (q * cb) (Bs.take cb) ++ bytesEvents cb ((q + 1) * cb) (Bs.drop cb) := by
        have := bytesEvents_append cb (q * cb) (Bs.take cb) (Bs.drop cb)
        rwa [List.take_append_drop, htake, ← Nat.succ_mul] at this
      have hend : q * cb + Bs.length = (q + 1) * cb + (Bs.drop cb).length := by
        rw [List.length_drop, Nat.succ_mul]
        omega
      rw [if_pos htake] at hfirst
      rw [hsplit, hend, List.append_assoc, ih (q + 1), hfirst, htake]

/-! ### SeqByte and SeqClose -/

/-- Bytes placed one by one (R152). -/
theorem foldl_seqByte_eq (Bs : List Byte) {k : Nat} {s : State} (h : AtByte k s.enc) :
    ∃ e, AtByte (k + Bs.length) e ∧ e.cb = s.enc.cb ∧
      Bs.foldl (fun t b => seqByte b t) s = encMoved e (bytesEvents s.enc.cb.toNat k Bs) s := by
  induction Bs generalizing k s with
  | nil => exact ⟨s.enc, h, rfl, (encMoved_self s).symm⟩
  | cons B Bs ih =>
    have hplace : seqByte B s = encMoved (placeRegs s.enc) (byteEvents s.enc.cb.toNat k B) s := by
      rw [seqByte_eq_placed, placed_eq_encMoved, h.placeEvents_eq]
    obtain ⟨e, he, hcb, hfold⟩ := ih (k := k + 1) (s := seqByte B s) (by rw [hplace]; exact h.placeRegs)
    refine ⟨e, ?_, ?_, ?_⟩
    · rwa [List.length_cons, ← Nat.add_assoc, Nat.add_right_comm]
    · rw [hcb, hplace]
      rfl
    · rw [List.foldl_cons, hfold, hplace, encMoved_encMoved]
      rfl

theorem atByte_zero {e : EncRegs} (hcb : e.cb ≠ 0#23) (hpos : e.pos = 0#23) (hidx : e.idx = 0) : AtByte 0 e := by
  have hconf : 0 < e.cb.toNat := Nat.pos_of_ne_zero fun h0 => hcb (BitVec.eq_of_toNat_eq h0)
  refine ⟨hconf, ?_, ?_⟩
  · rw [hpos, Nat.zero_mod]
    rfl
  · rw [hidx, chunkCount_of_dvd hconf (Nat.zero_mod _), Nat.zero_div]

/-- Settles O55, by the sequencer's closed form. -/
theorem sequencerComputesSplit : Obligations.SequencerComputesSplit := by
  unfold Obligations.SequencerComputesSplit
  intro bytes s hpos hidx hcb
  have hstart : AtByte 0 s.enc := atByte_zero hcb hpos hidx
  refine ⟨?_, fun n hn => ?_⟩
  · obtain ⟨e, he, hecb, hfold⟩ := foldl_seqByte_eq bytes hstart
    have hevents := bytesEvents_eq_chunkEvents hstart.configured bytes 0
    have hclose : (encMoved e (bytesEvents s.enc.cb.toNat 0 bytes) s).enc = e := rfl
    rw [hfold, seqClose_eq_closed, closed_eq_encMoved, hclose, he.closeEvents_eq, encMoved_encMoved, hecb]
    rw [Nat.zero_mul] at hevents
    rw [hevents]
    rfl
  · obtain ⟨e, he, hecb, hfold⟩ := foldl_seqByte_eq (bytes.take (n + 1)) hstart
    rw [List.length_take, Nat.min_eq_left hn, Nat.zero_add] at he
    rw [hfold, ← hecb]
    exact ⟨he.idx.trans (chunkCount_succ n he.configured), he.pos⟩

end Sys2Proof.Machine
end

