-- ==== Sys2Proof/Proofs/EncodeStreams.lean ====
section
/-!
Whole encode streams (spec/43_stream.md R179; spec/42_chunk.md R155): what an open stream has taken after a list of
commands, by its decisions alone, and the two forms of a sample as commands that each take one.
-/

namespace Sys2Proof.Machine

open Claims

/-! ### The bytes that a list of decisions completes -/

/-- The bytes that the packer completes on the way (R130). -/
def fullBytes (acc : Byte) (n : BitVec 3) : List Bool → List Byte
  | [] => []
  | d :: ds => (packPush acc n d).2.2.toList ++ fullBytes (packPush acc n d).1 (packPush acc n d).2.1 ds

theorem packPushes_append (acc : Byte) (n : BitVec 3) (xs ys : List Bool) :
    packPushes acc n (xs ++ ys) = packPushes (packPushes acc n xs).1 (packPushes acc n xs).2 ys :=
  List.foldl_append

theorem packPushes_cons (acc : Byte) (n : BitVec 3) (d : Bool) (ds : List Bool) :
    packPushes acc n (d :: ds) = packPushes (packPush acc n d).1 (packPush acc n d).2.1 ds := rfl

theorem fullBytes_append (acc : Byte) (n : BitVec 3) (xs ys : List Bool) :
    fullBytes acc n (xs ++ ys) =
      fullBytes acc n xs ++ fullBytes (packPushes acc n xs).1 (packPushes acc n xs).2 ys := by
  induction xs generalizing acc n with
  | nil => rfl
  | cons x xs ih => rw [List.cons_append, fullBytes, fullBytes, ih, packPushes_cons, List.append_assoc]

/-- Packing is the bytes completed on the way, and the one that the flush sends (R131). -/
theorem packFrom_eq (acc : Byte) (n : BitVec 3) (ds : List Bool) :
    packFrom acc n ds =
      fullBytes acc n ds ++ (packFlush (packPushes acc n ds).1 (packPushes acc n ds).2).toList := by
  induction ds generalizing acc n with
  | nil => rfl
  | cons d ds ih => rw [packFrom, fullBytes, ih, packPushes_cons, List.append_assoc]

theorem fullBytes_length (acc : Byte) (n : BitVec 3) (ds : List Bool) :
    (fullBytes acc n ds).length = (n.toNat + ds.length) / 8 := by
  induction ds generalizing acc n with
  | nil => exact (Nat.div_eq_of_lt n.isLt).symm
  | cons d ds ih =>
    rw [fullBytes, List.length_append, ih, List.length_cons]
    by_cases hn : n = 7#3
    · subst hn
      rw [packPush_full]
      simp only [Option.toList_some, List.length_singleton, BitVec.toNat_ofNat]
      omega
    · rw [packPush_partial acc d hn, toNat_nbits_add_one hn, Option.toList_none, List.length_nil]
      omega

/-- Every decision pushed is in a completed byte or held. -/
theorem packPushes_count_add_fullBytes (acc : Byte) (n : BitVec 3) (ds : List Bool) :
    (packPushes acc n ds).2.toNat + 8 * (fullBytes acc n ds).length = n.toNat + ds.length := by
  rw [packPushes_count, fullBytes_length, Nat.mod_add_div]

/-! ### One decision on the registers -/

theorem pushRegs_full {e : EncRegs} (bit : Bool) (hn : e.nbits = 7#3) :
    pushRegs bit e = placeRegs { e with codec := update e.codec bit, acc := 0#8, nbits := 0#3 } := by
  rw [pushRegs, packRegs, if_pos hn, if_pos hn]

theorem pushRegs_partial {e : EncRegs} (bit : Bool) (hn : e.nbits ≠ 7#3) :
    pushRegs bit e = { e with codec := update e.codec bit, acc := packByte bit e, nbits := e.nbits + 1#3 } := by
  rw [pushRegs, packRegs, if_neg hn, if_neg hn]

/-- The quantiser and the packer take the decision, and `E.cb` and `E.pend` stay (R117). -/
theorem pushRegs_fields (bit : Bool) (e : EncRegs) :
    (pushRegs bit e).codec = update e.codec bit ∧ (pushRegs bit e).cb = e.cb ∧ (pushRegs bit e).pend = e.pend ∧
      ((pushRegs bit e).acc, (pushRegs bit e).nbits) = packPushes e.acc e.nbits [bit] := by
  by_cases hn : e.nbits = 7#3
  · rw [pushRegs_full bit hn, hn, packPushes_cons, packPush_full]
    exact ⟨rfl, rfl, rfl, rfl⟩
  · rw [pushRegs_partial bit hn, packPushes_cons, packPush_partial _ _ hn]
    exact ⟨rfl, rfl, rfl, rfl⟩

/-- The sequencer takes the byte that the decision completes, if it completes one (R117). -/
theorem AtByte.pushRegs {k : Nat} {e : EncRegs} (h : AtByte k e) (bit : Bool) :
    AtByte (k + (fullBytes e.acc e.nbits [bit]).length) (pushRegs bit e) ∧
      pushEvents bit e = bytesEvents e.cb.toNat k (fullBytes e.acc e.nbits [bit]) := by
  by_cases hn : e.nbits = 7#3
  · have hbytes : fullBytes e.acc e.nbits [bit] = [packByte bit e] := by
      rw [fullBytes, hn, packPush_full, packByte, hn]
      rfl
    have hcodec : AtByte k { e with codec := update e.codec bit, acc := 0#8, nbits := 0#3 } :=
      ⟨h.configured, h.pos, h.idx⟩
    rw [hbytes, pushRegs_full bit hn, pushEvents, if_pos hn, h.placeEvents_eq]
    exact ⟨hcodec.placeRegs, (List.append_nil _).symm⟩
  · have hbytes : fullBytes e.acc e.nbits [bit] = [] := by
      rw [fullBytes, packPush_partial _ _ hn]
      rfl
    rw [hbytes, pushRegs_partial bit hn, pushEvents, if_neg hn]
    exact ⟨⟨h.configured, h.pos, h.idx⟩, rfl⟩

/-! ### What an open stream has taken -/

/-- `t` is `s` after its open encode stream, `k` bytes into it, has taken the decisions `bits` from `n` commands; the
pending byte, and where the answers stand among the events on the ports, are left out. -/
structure Took (k : Nat) (s : State) (bits : List Bool) (n : Nat) (t : State) : Prop where
  cfg : t.cfg = s.cfg
  st : t.enc.st = .active
  cb : t.enc.cb = s.enc.cb
  codec : t.enc.codec = bits.foldl update s.enc.codec
  packer : (t.enc.acc, t.enc.nbits) = packPushes s.enc.acc s.enc.nbits bits
  atByte : AtByte (k + (fullBytes s.enc.acc s.enc.nbits bits).length) t.enc
  eout : t.eout = s.eout ++ bytesEvents s.enc.cb.toNat k (fullBytes s.enc.acc s.enc.nbits bits)
  responses : t.responses = s.responses ++ List.replicate n 0#32

section
variable {k n n' : Nat} {s t u : State} {bits bits' : List Bool}

theorem Took.refl (hst : s.enc.st = .active) (h : AtByte k s.enc) : Took k s [] 0 s :=
  ⟨rfl, hst, rfl, rfl, rfl, h, (List.append_nil _).symm, (List.append_nil _).symm⟩

theorem Took.trans (h : Took k s bits n t)
    (h' : Took (k + (fullBytes s.enc.acc s.enc.nbits bits).length) t bits' n' u) :
    Took k s (bits ++ bits') (n + n') u := by
  have hacc : t.enc.acc = (packPushes s.enc.acc s.enc.nbits bits).1 := congrArg Prod.fst h.packer
  have hnbits : t.enc.nbits = (packPushes s.enc.acc s.enc.nbits bits).2 := congrArg Prod.snd h.packer
  have hbytes : fullBytes s.enc.acc s.enc.nbits (bits ++ bits') =
      fullBytes s.enc.acc s.enc.nbits bits ++ fullBytes t.enc.acc t.enc.nbits bits' := by
    rw [fullBytes_append, hacc, hnbits]
  refine ⟨h'.cfg.trans h.cfg, h'.st, h'.cb.trans h.cb, ?_, ?_, ?_, ?_, ?_⟩
  · rw [h'.codec, h.codec, List.foldl_append]
  · rw [h'.packer, packPushes_append, hacc, hnbits]
  · rw [hbytes, List.length_append, ← Nat.add_assoc]
    exact h'.atByte
  · rw [h'.eout, h.eout, hbytes, bytesEvents_append, h.cb, List.append_assoc]
  · rw [h'.responses, h.responses, List.replicate_add, List.append_assoc]

/-- A command, or two, whose work is that of one decision. -/
theorem Took.of_pushRegs {bit : Bool} {b : Byte} {p : Bool} (hst : s.enc.st = .active) (h : AtByte k s.enc)
    (hcfg : t.cfg = s.cfg) (henc : t.enc = pendRegs b p (pushRegs bit s.enc))
    (heout : t.eout = s.eout ++ pushEvents bit s.enc) (hresp : t.responses = s.responses ++ List.replicate n 0#32) :
    Took k s [bit] n t := by
  obtain ⟨hcodec, hcb, -, hpacker⟩ := pushRegs_fields bit s.enc
  obtain ⟨hat, hevents⟩ := h.pushRegs bit
  refine ⟨hcfg, ?_, ?_, ?_, ?_, ?_, ?_, hresp⟩
  · rw [henc]
    exact (pushRegs_st bit s.enc).trans hst
  · rw [henc]
    exact hcb
  · rw [henc]
    exact hcodec
  · rw [henc]
    exact hpacker
  · rw [henc]
    exact ⟨hat.configured, hat.pos, hat.idx⟩
  · rw [heout, hevents]

/-- A low byte is held, and no decision is made. -/
theorem Took.held (b : Byte) (hst : s.enc.st = .active) (h : AtByte k s.enc) :
    Took k s [] 1 (encResult (pendRegs b true s.enc) [] 0#32 s) :=
  ⟨rfl, hst, rfl, rfl, rfl, ⟨h.configured, h.pos, h.idx⟩, encResult_eout _ _ _ _, encResult_responses _ _ _ _⟩

end

/-! ### Samples -/

/-- In an open encode stream with no byte pending the commands take one sample, answering OK. -/
def TakesSample (is : List Instr) (v : Int) : Prop :=
  ∀ (s : State) (k : Nat), s.enc.st = .active → s.enc.pend = false → AtByte k s.enc →
    ¬ (s.enc.nbits = 7#3 ∧ IndexGone s.cfg s.enc) →
    ∃ t, (∀ rest, runCommands (is ++ rest) s = runCommands rest t) ∧
      Took k s [decides s.enc.codec v] is.length t ∧ t.enc.pend = false

theorem eSamp_takesSample (v : SampleWord) : TakesSample [.eSamp v] v.toInt := by
  intro s k hst hp hat hroom
  obtain ⟨-, -, hpend, -⟩ := pushRegs_fields (decides s.enc.codec v.toInt) s.enc
  exact ⟨_, fun rest => runCommands_cons (exec_eSamp_ok hst hp hroom),
    .of_pushRegs hst hat rfl (b := (pushRegs _ s.enc).hold) (p := (pushRegs _ s.enc).pend) rfl (encResult_eout _ _ _ _)
      (encResult_responses _ _ _ _), hpend.trans hp⟩

theorem runCommands_append {is js : List Instr} {s t : State} (h : runCommands is s = some t) :
    runCommands (is ++ js) s = runCommands js t := by
  induction is generalizing s with
  | nil => cases h; rfl
  | cons i is ih =>
    obtain ⟨u, hexec, -⟩ := exec_total i s
    rw [runCommands_cons hexec] at h
    rw [List.cons_append, runCommands_cons hexec, ih h]

theorem ePcmb_pair_takesSample (lo hi : Byte) : TakesSample [.ePcmb lo, .ePcmb hi] (sampleOfBytes lo hi) := by
  intro s k hst hp hat hroom
  refine ⟨_, fun rest => runCommands_append (exec_ePcmb_pair lo hi hst hp hroom),
    .of_pushRegs hst hat rfl rfl ?_ ?_, rfl⟩
  · simp
  · simp

/-- Samples run through an open encode stream, each from the registers the one before it left. -/
theorem runCommands_samples {α : Type} {f : α → List Instr} {val : α → Int} (hf : ∀ a, TakesSample (f a) (val a))
    (as : List α) (rest : List Instr) {s : State} {k : Nat} (hst : s.enc.st = .active) (hp : s.enc.pend = false)
    (hat : AtByte k s.enc)
    (hfits : chunkCount (k + (s.enc.nbits.toNat + as.length) / 8) s.enc.cb.toNat < 2 ^ s.cfg.idxW) :
    ∃ t, runCommands (as.flatMap f ++ rest) s = runCommands rest t ∧
      Took k s (encSeq s.enc.codec (as.map val)).2 (as.flatMap f).length t ∧ t.enc.pend = false := by
  induction as generalizing s k with
  | nil => exact ⟨s, rfl, .refl hst hat, hp⟩
  | cons a as ih =>
    rw [List.length_cons] at hfits
    have hroom : ¬ (s.enc.nbits = 7#3 ∧ IndexGone s.cfg s.enc) := by
      rintro ⟨hn, hgone⟩
      refine hat.room (lt_of_le_of_lt (chunkCount_mono _ ?_) hfits) hgone
      rw [hn, BitVec.toNat_ofNat]
      omega
    obtain ⟨t, hrun, htook, htp⟩ := hf a s k hst hp hat hroom
    have hcount : t.enc.nbits.toNat + as.length +
        8 * (fullBytes s.enc.acc s.enc.nbits [decides s.enc.codec (val a)]).length =
          s.enc.nbits.toNat + (as.length + 1) := by
      have hnbits : t.enc.nbits = (packPushes s.enc.acc s.enc.nbits [decides s.enc.codec (val a)]).2 :=
        congrArg Prod.snd htook.packer
      rw [hnbits, Nat.add_right_comm, packPushes_count_add_fullBytes, List.length_singleton, Nat.add_right_comm,
        Nat.add_assoc]
    obtain ⟨u, hrun', htook', hup⟩ := ih htook.st htp htook.atByte (by
      rw [htook.cb, htook.cfg]
      refine lt_of_le_of_lt (chunkCount_mono _ ?_) hfits
      omega)
    refine ⟨u, ?_, ?_, hup⟩
    · rw [List.flatMap_cons, List.append_assoc, hrun, hrun']
    · have hall := htook.trans htook'
      rw [List.map_cons, encSeq_cons, List.flatMap_cons, List.length_append]
      rw [htook.codec] at hall
      exact hall

/-- An odd trailing byte is held and decides nothing (R174). -/
theorem runCommands_trailing {tail : List Byte} (hlen : tail.length ≤ 1) (rest : List Instr) {s : State} {k : Nat}
    (hst : s.enc.st = .active) (hp : s.enc.pend = false) (hat : AtByte k s.enc) :
    ∃ t, runCommands (tail.map .ePcmb ++ rest) s = runCommands rest t ∧ Took k s [] tail.length t := by
  match tail, hlen with
  | [], _ => exact ⟨s, rfl, .refl hst hat⟩
  | [b], _ => exact ⟨_, runCommands_cons (exec_ePcmb_low hst hp), .held b hst hat⟩

/-! ### The end of a stream -/

theorem AtByte.flush {k : Nat} {e : EncRegs} (h : AtByte k e) :
    flushEvents e ++ closeEvents (flushRegs e) =
      bytesEvents e.cb.toNat k (packFlush e.acc e.nbits).toList ++
        closingEvents e.cb.toNat (k + (packFlush e.acc e.nbits).toList.length) := by
  by_cases hn : e.nbits = 0#3
  · rw [flushEvents, flushRegs, if_pos hn, if_pos hn, hn, packFlush_empty, h.closeEvents_eq]
    rfl
  · rw [flushEvents, flushRegs, if_neg hn, if_neg hn, packFlush_some _ hn, h.placeEvents_eq, h.placeRegs.closeEvents_eq,
      Option.toList_some, bytesEvents, bytesEvents, List.append_nil, List.length_singleton]
    rfl

/-- E.END sends the rest of the packing of the decisions taken, and closes the last chunk (R176). -/
theorem Took.exec_eEnd {k n : Nat} {s t : State} {bits : List Bool} (h : Took k s bits n t)
    (hfits : chunkCount (k + (packFrom s.enc.acc s.enc.nbits bits).length) s.enc.cb.toNat < 2 ^ s.cfg.idxW) :
    ∃ u, exec .eEnd t = .next u ∧
      u.eout = s.eout ++ (bytesEvents s.enc.cb.toNat k (packFrom s.enc.acc s.enc.nbits bits) ++
        closingEvents s.enc.cb.toNat (k + (packFrom s.enc.acc s.enc.nbits bits).length)) ∧
      u.responses = s.responses ++ List.replicate (n + 1) 0#32 ∧ u.enc.st = .idle ∧ u.enc.cb = s.enc.cb := by
  have hpack : packFrom s.enc.acc s.enc.nbits bits =
      fullBytes s.enc.acc s.enc.nbits bits ++ (packFlush t.enc.acc t.enc.nbits).toList := by
    rw [packFrom_eq, ← h.packer]
  rw [hpack, List.length_append, ← Nat.add_assoc] at hfits ⊢
  have hroom : ¬ (t.enc.nbits ≠ 0#3 ∧ IndexGone t.cfg t.enc) := by
    rintro ⟨hn, hgone⟩
    rw [packFlush_some _ hn] at hfits
    exact h.atByte.room (by rw [h.cb, h.cfg]; exact hfits) hgone
  refine ⟨_, exec_eEnd_ok h.st hroom, ?_, ?_, rfl, h.cb⟩
  · rw [encResult_eout, h.eout, h.atByte.flush, h.cb, bytesEvents_append, List.append_assoc, List.append_assoc]
  · rw [encResult_responses, h.responses, List.replicate_succ', List.append_assoc]

/-! ### Whole streams -/

theorem eStart_atByte {s : State} (hcb : s.enc.cb ≠ 0#23) :
    AtByte 0 (encResult (freshRegs .active s.enc) [] 0#32 s).enc := atByte_zero hcb rfl rfl

/-- E.START, samples, perhaps an odd byte, and E.END compute the pipeline of R179. -/
theorem runCommands_encodeStream {α : Type} {f : α → List Instr} {val : α → Int} (hf : ∀ a, TakesSample (f a) (val a))
    (as : List α) {tail : List Byte} (hlen : tail.length ≤ 1) {s : State} (hst : s.enc.st = .idle)
    (hcb : s.enc.cb ≠ 0#23)
    (hfits : chunkCount (pack (encSeq CodecState.init (as.map val)).2).length s.enc.cb.toNat < 2 ^ s.cfg.idxW) :
    ∃ t, runCommands (.eStart :: (as.flatMap f ++ (tail.map .ePcmb ++ [.eEnd]))) s = some t ∧
      t.eout = s.eout ++ chunkEvents 1 (split (pack (encSeq CodecState.init (as.map val)).2) s.enc.cb.toNat) ∧
      t.responses = s.responses ++ List.replicate ((as.flatMap f).length + tail.length + 2) 0#32 ∧
      t.enc.st = .idle ∧ t.enc.cb = s.enc.cb := by
  have hat := eStart_atByte hcb
  have hnbits : (encResult (freshRegs .active s.enc) [] 0#32 s).enc.nbits.toNat = 0 := rfl
  have hsamples := hfits
  rw [pack_length, encSeq_length, List.length_map] at hsamples
  obtain ⟨u, hrun, htook, hp⟩ := runCommands_samples hf as (tail.map .ePcmb ++ [.eEnd])
    (s := encResult (freshRegs .active s.enc) [] 0#32 s) rfl rfl hat
    (lt_of_le_of_lt (chunkCount_mono _ (by rw [hnbits]; omega)) hsamples)
  obtain ⟨v, hrun', htook'⟩ := runCommands_trailing hlen [.eEnd] htook.st hp htook.atByte
  obtain ⟨t, hexec, heout, hresp, htst, htcb⟩ := (htook.trans htook').exec_eEnd
    (by rw [List.append_nil, Nat.zero_add]; exact hfits)
  refine ⟨t, ?_, ?_, ?_, htst, htcb⟩
  · rw [runCommands_cons (exec_eStart_ok hst hcb), hrun, hrun', runCommands_cons hexec, runCommands_nil]
  · have hevents := bytesEvents_eq_chunkEvents hat.configured (pack (encSeq CodecState.init (as.map val)).2) 0
    rw [Nat.zero_mul] at hevents
    rw [heout, encResult_eout, List.append_nil, List.append_nil]
    exact congrArg (s.eout ++ ·) hevents
  · rw [hresp, encResult_responses, List.append_assoc, ← List.replicate_one, List.replicate_append_replicate]
    congr 2
    omega

/-- A PCM byte sequence is its little-endian pairs, which are its samples, and perhaps an odd byte (R174). -/
theorem exists_pairs (p : List Byte) :
    ∃ (pairs : List (Byte × Byte)) (tail : List Byte), tail.length ≤ 1 ∧
      p = (pairs.flatMap fun q => [q.1, q.2]) ++ tail ∧ assemblePCM p = pairs.map fun q => sampleOfBytes q.1 q.2 := by
  induction p using assemblePCM.induct with
  | case1 lo hi rest ih =>
    obtain ⟨pairs, tail, hlen, hp, hsamples⟩ := ih
    refine ⟨(lo, hi) :: pairs, tail, hlen, ?_, ?_⟩
    · rw [List.flatMap_cons, List.append_assoc, ← hp]
      rfl
    · rw [assemblePCM, hsamples, List.map_cons]
  | case2 b => exact ⟨[], [b], le_rfl, rfl, rfl⟩
  | case3 => exact ⟨[], [], Nat.zero_le 1, rfl, rfl⟩

/-- Settles O57: a byte stream by its pairs and its odd byte, a sample stream by its samples. -/
theorem wholeEncodeStreamIsThePipeline : Obligations.WholeEncodeStreamIsThePipeline := by
  unfold Obligations.WholeEncodeStreamIsThePipeline
  refine ⟨fun p s hst hcb hfits => ?bytes, fun v s hst hcb hfits => ?samples⟩
  case bytes =>
    obtain ⟨pairs, tail, hlen, hp, hsamples⟩ := exists_pairs p
    rw [hsamples] at hfits ⊢
    have hcommands : p.map Instr.ePcmb =
        (pairs.flatMap fun q => [.ePcmb q.1, .ePcmb q.2]) ++ tail.map .ePcmb := by
      rw [hp, List.map_append, List.map_flatMap]
      rfl
    have hcount : p.length = (pairs.flatMap fun q => [Instr.ePcmb q.1, .ePcmb q.2]).length + tail.length := by
      rw [← List.length_map (f := Instr.ePcmb), hcommands, List.length_append, List.length_map]
    rw [List.cons_append, hcommands, List.append_assoc, hcount]
    exact runCommands_encodeStream (fun q : Byte × Byte => ePcmb_pair_takesSample q.1 q.2) pairs hlen hst hcb hfits
  case samples =>
    have hcommands : v.map Instr.eSamp = v.flatMap fun x => [.eSamp x] := List.map_eq_flatMap
    have hcount : v.length = (v.flatMap fun x => [Instr.eSamp x]).length := by
      rw [← hcommands, List.length_map]
    rw [List.cons_append, hcommands, hcount]
    exact runCommands_encodeStream eSamp_takesSample v (tail := []) (Nat.zero_le 1) hst hcb hfits

theorem byteCount_bytesEvents (cb k : Nat) (Bs : List Byte) : byteCount (bytesEvents cb k Bs) = Bs.length := by
  induction Bs generalizing k with
  | nil => rfl
  | cons B Bs ih =>
    have hone : byteCount (byteEvents cb k B) = 1 := by
      unfold byteEvents
      split <;> rfl
    rw [bytesEvents, byteCount_append, hone, ih, List.length_cons, Nat.add_comm]

/-- A stream's bytes have closed one chunk for each `cb` of them (R155). -/
theorem cendCount_bytesEvents (cb k : Nat) (Bs : List Byte) :
    k / cb + cendCount (bytesEvents cb k Bs) = (k + Bs.length) / cb := by
  induction Bs generalizing k with
  | nil => rfl
  | cons B Bs ih =>
    have hone : k / cb + cendCount (byteEvents cb k B) = (k + 1) / cb := by
      unfold byteEvents
      split
      case isTrue hdvd => rw [Nat.succ_div_of_mod_eq_zero hdvd]; rfl
      case isFalse hdvd => rw [Nat.succ_div_of_mod_ne_zero hdvd]; rfl
    rw [bytesEvents, cendCount_append, ← Nat.add_assoc, hone, ih, List.length_cons, Nat.add_right_comm, Nat.add_assoc]

/-- Settles O56: the counts of a stream that has taken the samples' decisions from its start. -/
theorem streamPositionFollowsTheSampleCount : Obligations.StreamPositionFollowsTheSampleCount := by
  unfold Obligations.StreamPositionFollowsTheSampleCount
  intro samples s hst hcb hfits
  have hnbits : (encResult (freshRegs .active s.enc) [] 0#32 s).enc.nbits.toNat = 0 := rfl
  obtain ⟨t, hrun, htook, -⟩ := runCommands_samples eSamp_takesSample samples []
    (s := encResult (freshRegs .active s.enc) [] 0#32 s) rfl rfl (eStart_atByte hcb)
    (by rw [hnbits, Nat.zero_add, Nat.zero_add]; exact hfits)
  have hlen := fullBytes_length 0#8 0#3 (encSeq CodecState.init (samples.map BitVec.toInt)).2
  rw [encSeq_length, List.length_map, BitVec.toNat_ofNat, Nat.zero_mod, Nat.zero_add] at hlen
  have hat : AtByte (samples.length / 8) t.enc := by
    rw [← hlen, ← Nat.zero_add (List.length _)]
    exact htook.atByte
  have hpacker := packPushes_count 0#8 0#3 (encSeq CodecState.init (samples.map BitVec.toInt)).2
  rw [encSeq_length, List.length_map, BitVec.toNat_ofNat, Nat.zero_mod, Nat.zero_add] at hpacker
  have htcb : t.enc.cb = s.enc.cb := htook.cb
  have htnbits : t.enc.nbits = (packPushes 0#8 0#3 (encSeq CodecState.init (samples.map BitVec.toInt)).2).2 :=
    congrArg Prod.snd htook.packer
  have hcends := cendCount_bytesEvents s.enc.cb.toNat 0
    (fullBytes 0#8 0#3 (encSeq CodecState.init (samples.map BitVec.toInt)).2)
  rw [Nat.zero_div, Nat.zero_add, Nat.zero_add, hlen] at hcends
  refine ⟨t, _, ?_, htook.st, ?_, ?_, ?_, ?_, (byteCount_bytesEvents _ _ _).trans hlen, hcends⟩
  · rw [List.map_eq_flatMap, runCommands_cons (exec_eStart_ok hst hcb), ← List.append_nil (samples.flatMap _), hrun,
      runCommands_nil]
  · rw [htnbits, hpacker]
  · rw [hat.pos, htcb]
  · rw [hat.idx, htcb]
  · rw [htook.eout, encResult_eout, List.append_nil]
    rfl

end Sys2Proof.Machine
end
